-- ==== Sys2Proof/Word.lean ====
section
/-! DEFINITION. The word types of the BCG1684 model (spec/00_scope.md R3, R5, R7; spec/20_memory.md R53). -/
namespace Sys2Proof

/-- A memory cell: "all cells is in bytes" (spec/20_memory.md R53). -/
abbrev Byte := BitVec 8

/-- The carrier of an operand's value: every register and immediate has at most 64 bits (00_scope.md R3), and a value
of w bits is carried zero-extended. -/
abbrev Value := BitVec 64

/-- A 32-bit linear address (20_memory.md R54). -/
abbrev Linear := BitVec 32

/-- A 24-bit code address: the program counter (10_state.md R25). -/
abbrev CodeAddr := BitVec 24

end Sys2Proof
end

