-- ==== Sys2Proof/Config.lean ====
section
/-! DEFINITION. What an implementation fixes: the register names and the configuration record `Cfg` of
spec/00_scope.md R4, every OPEN parameter a field, and the one free value of the model. Log 1, 2, 7, 11, 12, 14. -/
namespace Sys2Proof

/-- Every register name of the source (10_state.md R14 to R31, R37, R47, R48), cells and views alike. -/
inductive Reg where
  | AH | AL | BH | BL | CH | CL | DH | DL
  | A | B | C | D
  | AX | BX | CX | DX
  | ABX | CDX
  | EAB | ECD
  | H | L | HL
  | DS | ES | SS | S
  | PC
  | AF | BF | CF | DF
  | EABF | ECDF
  | BP | SP | BPX | SPX
  | R1 | R2 | R3 | R4
  | MB | CR0 | CR1 | F
  deriving DecidableEq, Repr

/-- The five instructions the source names (00_scope.md section 4; 30_encoding.md R105). -/
inductive Mnemonic where
  | mov | ret | call | pushr | popr
  deriving DecidableEq, Repr

/-- `BYTE_ORDER` (20_memory.md R72). -/
inductive ByteOrder where
  | little | big
  deriving DecidableEq, Repr

/-- `ADDR_OVERFLOW` (20_memory.md R58). -/
inductive AddrOverflow where
  | refuse | wrap
  deriving DecidableEq, Repr

/-- `BANK_MODEL` (20_memory.md R67). -/
inductive BankModel where
  | refuse | banked
  deriving DecidableEq, Repr

/-- `IO_MODEL` (20_memory.md R68). -/
inductive IoModel where
  | refuse | draw
  deriving DecidableEq, Repr

/-- `REL_BASE` (30_encoding.md R97). -/
inductive RelBase where
  | next | start
  deriving DecidableEq, Repr

/-- The 16-bit segment registers (10_state.md R24), the values `DEFAULT_SEG` may take. -/
inductive SegReg where
  | ds | es | ss | s
  deriving DecidableEq, Repr

/-- `STACK_DIR` (41_special_instructions.md R120). -/
inductive StackDir where
  | up | down
  deriving DecidableEq, Repr

/-- `RETADDR_BYTES`, 3 or 4 (41_special_instructions.md R123). -/
inductive RetAddrBytes where
  | three | four
  deriving DecidableEq, Repr

/-- `RET_ORDER` (40_general_instructions.md R116). -/
inductive RetOrder where
  | releaseThenPop | popThenRelease
  deriving DecidableEq, Repr

/-- `IMM_EXTEND` (40_general_instructions.md R114). -/
inductive ImmExtend where
  | refuse | zero | sign
  deriving DecidableEq, Repr

/-- What a MOV of a memory value into F does with the value's bits 23 to 20. DESIGN CHOICE, log 14: the model's own
parameter, for 40_general_instructions.md R114 says that the move is refused if one is set, 30_encoding.md R102 that they
are dropped, and nothing ranks the two. RC0 is R114's. -/
inductive FLoad where
  | truncate | refuse
  deriving DecidableEq, Repr

/-- The values that interrupt entry and return compute. DESIGN CHOICE, log 12: expressions over the whole of registers
and memory, so that any state-save function of them can be written as plain data. -/
inductive EntryExpr where
  | const (v : Value)
  /-- A register, PC the interrupted pc. -/
  | reg (r : Reg)
  /-- n bytes of memory at a linear address. -/
  | mem (addr : EntryExpr) (n : Nat)
  | not (a : EntryExpr)
  | and (a b : EntryExpr)
  | add (a b : EntryExpr)
  /-- A shift right by k bits, zeros coming in. -/
  | shr (a : EntryExpr) (k : Nat)
  /-- 1 if the two are equal, else 0. -/
  | eq (a b : EntryExpr)
  /-- The second if the first is not 0, else the third. -/
  | ite (c a b : EntryExpr)
  deriving DecidableEq, Repr

/-- One action of interrupt entry or of the return from it (60_exceptions.md R144, R150). DESIGN CHOICE, log 12. -/
inductive EntryAction where
  /-- Push a value of n bytes (41_special_instructions.md R120). -/
  | push (n : Nat) (e : EntryExpr)
  /-- Pop n bytes into a register, PC among them (41_special_instructions.md R121). -/
  | pop (n : Nat) (r : Reg)
  /-- Store a value of n bytes at a linear address. -/
  | store (addr : EntryExpr) (n : Nat) (e : EntryExpr)
  /-- Set a register. -/
  | set (r : Reg) (e : EntryExpr)
  /-- Take an action only if a value is not 0. -/
  | when (c : EntryExpr) (a : EntryAction)
  deriving DecidableEq, Repr

/-- The return that matches a configured entry (60_exceptions.md R150: "A model that supplies `INT_ENTRY` must supply the
matching return"). DESIGN CHOICE, log 12: the step at the pc `point` is no instruction but these actions, so a handler
returns by any jump there, such as a RET that pops an address the entry pushed. -/
structure IntReturn where
  point : CodeAddr
  acts : List EntryAction
  deriving DecidableEq, Repr

/-- `INT_ENTRY` (60_exceptions.md R144), with its matching return (R150). -/
inductive IntEntry where
  | refuse
  | save (entry : List EntryAction) (ret : IntReturn)
  deriving DecidableEq, Repr

/-- A range of physical addresses, both ends included, that instructions may be fetched from (20_memory.md R82). -/
structure CodeRange where
  first : Nat
  last : Nat
  deriving DecidableEq, Repr

/-- `LAUNCH`, "a partial assignment that gives a value to the pc and to whichever cells and memory bytes the claim needs"
(10_state.md R51; 00_scope.md R4), the pc's being `RESET_PC` (70_reset_and_hazards.md R162), and the set of addresses
"the launch state names" (20_memory.md R82). What it leaves out is as State.reset has it (log 3, 4). -/
structure Launch where
  regs : List (Reg × Value)
  /-- Bytes by physical address. -/
  mem : List (Nat × Byte)
  /-- Bytes of banks: bank, offset, byte (20_memory.md R67). -/
  bank : List (Nat × Nat × Byte)
  code : List CodeRange
  deriving DecidableEq, Repr

/-- `OPC`: the opcode byte of each known instruction (30_encoding.md R105). -/
structure Opcodes where
  mov : Byte
  ret : Byte
  call : Byte
  pushr : Byte
  popr : Byte
  deriving DecidableEq, Repr

/-- The configuration (00_scope.md R4): every parameter the source leaves open, under the spec's names. -/
structure Cfg where
  opc : Opcodes
  /-- `REGNUM`, as pairs of an identifier and the register it names. -/
  regnum : List (Nat × Reg)
  regidBytes : Nat
  byteOrder : ByteOrder
  addrOverflow : AddrOverflow
  bankModel : BankModel
  ioModel : IoModel
  relBase : RelBase
  bprelBytes : Nat
  segimmBytes : Nat
  defaultSeg : SegReg
  stackDir : StackDir
  stackEmpty : Bool
  retaddrBytes : RetAddrBytes
  retOrder : RetOrder
  /-- `PUSHR_LIST`; `none` is the spec's own "not configured" (41_special_instructions.md R126). -/
  pushrList : Option (List Reg)
  idtBase : BitVec 24
  intEntry : IntEntry
  immExtend : ImmExtend
  resetPc : CodeAddr
  launch : Launch
  /-- Not of R4: the model's own (log 14). -/
  fLoad : FLoad
  deriving DecidableEq, Repr

/-- RC0 (00_scope.md R4; 92_eei_decisions.md): every parameter with a default at its default, the others as given;
`fLoad`, which is not of R4, is R114's refusal (log 14). -/
def Cfg.rc0 (opc : Opcodes) (regnum : List (Nat × Reg)) (order : ByteOrder) (pushrList : Option (List Reg))
    (idtBase : BitVec 24) (resetPc : CodeAddr) (launch : Launch) : Cfg where
  opc := opc
  regnum := regnum
  regidBytes := 1
  byteOrder := order
  addrOverflow := .refuse
  bankModel := .refuse
  ioModel := .refuse
  relBase := .next
  bprelBytes := 2
  segimmBytes := 2
  defaultSeg := .ds
  stackDir := .up
  stackEmpty := true
  retaddrBytes := .four
  retOrder := .releaseThenPop
  pushrList := pushrList
  idtBase := idtBase
  intEntry := .refuse
  immExtend := .refuse
  resetPc := resetPc
  launch := launch
  fLoad := .refuse

/-- The opcode bytes of the spec's arbitrary test configuration TCFG (95_test_vectors.md; 92_eei_decisions.md D50).
They are not the hardware's. DESIGN CHOICE, log 2. -/
def Opcodes.tcfg : Opcodes := { mov := 0x91, ret := 0x92, call := 0x93, pushr := 0x94, popr := 0x95 }

/-- TCFG's ten register identifiers (95_test_vectors.md). Not the hardware's. DESIGN CHOICE, log 2. -/
def tcfgRegnum : List (Nat × Reg) :=
  [(0x60, .DS), (0x61, .ES), (0x62, .SS), (0x70, .SP), (0x71, .SPX), (0x72, .BP), (0x73, .BPX), (0x7F, .F),
    (0x7E, .CR0), (0x40, .ABX)]

/-- Arbitrary identifiers for the names TCFG leaves out, so that every register can be named in the reference
configuration. Not the hardware's. DESIGN CHOICE, log 2. -/
def extraRegnum : List (Nat × Reg) :=
  [(0xA0, .AH), (0xA1, .AL), (0xA2, .BH), (0xA3, .BL), (0xA4, .CH), (0xA5, .CL), (0xA6, .DH), (0xA7, .DL),
    (0xA8, .A), (0xA9, .B), (0xAA, .C), (0xAB, .D), (0xAC, .AX), (0xAD, .BX), (0xAE, .CX), (0xAF, .DX)]
  ++ [(0xB0, .CDX), (0xB1, .EAB), (0xB2, .ECD), (0xB3, .H), (0xB4, .L), (0xB5, .HL), (0xB6, .S), (0xB7, .PC),
    (0xB8, .AF), (0xB9, .BF), (0xBA, .CF), (0xBB, .DF), (0xBC, .EABF), (0xBD, .ECDF)]
  ++ [(0xC0, .R1), (0xC1, .R2), (0xC2, .R3), (0xC3, .R4), (0xC4, .MB), (0xC5, .CR1)]

/-- The configuration of `State.reset` and `decodeTableWord`: RC0, with TCFG's arbitrary bytes and further arbitrary
values where RC0 has no default. DESIGN CHOICE, log 2: no statement rests on it but by naming it. -/
def Cfg.reference : Cfg :=
  Cfg.rc0 Opcodes.tcfg (tcfgRegnum ++ extraRegnum) .little (some [.B, .C]) 0x108000 0x001000
    { regs := [], mem := [], bank := [], code := [] }

/-- The free value of the model: the k-th byte read from an I/O port under `IO_MODEL = draw`, "any value, under no law,
possibly different at each read" (20_memory.md R68). No body: nothing can know it. Log 11. -/
opaque Config.ioByte : Nat → Byte

end Sys2Proof
end

