-- ==== Sys2Proof/Syntax.lean ====
section
/-! DEFINITION. The instructions and their arguments as data, whole: the argument modes of spec/30_encoding.md R88 and
one constructor of `Instr` per row of spec/opcode_table.json. -/
namespace Sys2Proof

/-- The argument modes of 30_encoding.md R88 that are not reserved, by the source's names. -/
inductive Mode where
  | immByte | immWord | immTbyte | immDword | immQword | immFloat
  | reg | regAddr
  | near | addr | long | far | rel
  | segReg | segImm | dsReg | dsB
  | regAL | regA | regAX | regHL | addrHL | bpRel
  | regBL | regB | regBX
  | regAF | regBF | regCF | regDF
  | none
  deriving DecidableEq, Repr

/-- What a register identifier of a payload stands for: a register, or an identifier to which `REGNUM` gives none
(30_encoding.md R95). It is kept in the instruction because the fault is raised where the argument is decoded to an
operand, argument1 before argument2 (R103). Log 17. -/
inductive RegRef where
  | named (r : Reg)
  | unassigned (id : Nat)
  deriving DecidableEq, Repr

/-- One argument that is present: its mode and its payload (30_encoding.md R92). -/
inductive Arg where
  | immByte (v : BitVec 8)
  | immWord (v : BitVec 16)
  | immTbyte (v : BitVec 24)
  | immDword (v : BitVec 32)
  | immQword (v : BitVec 64)
  /-- The 32-bit float pattern, opaque (R94). -/
  | immFloat (v : BitVec 32)
  | reg (r : RegRef)
  | regAddr (r : RegRef)
  | near (a : BitVec 8)
  | addr (a : BitVec 16)
  | long (a : BitVec 24)
  | far (a : BitVec 32)
  | rel (o : BitVec 8)
  | segReg (rs ro : RegRef)
  /-- `[register:immediate]`, the immediate as the 16-bit offset it becomes (R98, log 16). -/
  | segImm (rs : RegRef) (off : BitVec 16)
  | dsReg (ro : RegRef)
  | dsB
  | regAL | regA | regAX | regHL
  | addrHL
  /-- `[BP - number]/[BP + number]`, the number as the 16-bit two's-complement value it becomes (R104, log 16). -/
  | bpRel (n : BitVec 16)
  | regBL | regB | regBX
  | regAF | regBF | regCF | regDF
  deriving DecidableEq, Repr

/-- RET's argument1: absent, a byte or a word (30_encoding.md R107). -/
inductive RetArg where
  | none
  | byte (n : BitVec 8)
  | word (n : BitVec 16)
  deriving DecidableEq, Repr

/-- CALL's argument1: mode 0x0D, 0x0E or 0x0F (30_encoding.md R107). -/
inductive CallTarget where
  | long (a : BitVec 24)
  | far (a : BitVec 32)
  | rel (o : BitVec 8)
  deriving DecidableEq, Repr

/-- The instructions: one constructor per row of spec/opcode_table.json. -/
inductive Instr where
  /-- MOV dst, src (40_general_instructions.md R114). -/
  | mov (dst src : Arg)
  /-- RET or RET offset (R116). -/
  | ret (offset : RetArg)
  /-- CALL target (41_special_instructions.md R123). -/
  | call (target : CallTarget)
  /-- PUSHR (R126). -/
  | pushr
  /-- POPR (R127). -/
  | popr
  deriving DecidableEq, Repr

end Sys2Proof
end

