-- ==== Sys2Proof/Decode.lean ====
section
/-! DEFINITION. Bytes to instruction and back: byte order of a payload, argument modes, payload lengths, decoder and
encoder (spec/30_encoding.md R85 to R107, R112). -/
namespace Sys2Proof

/-! ### Byte order (20_memory.md R70 to R72; 30_encoding.md R91) -/

/-- The number whose bytes, least significant first, are given. -/
def natOfBytesLE : List Byte → Nat
  | [] => 0
  | b :: bs => b.toNat + 256 * natOfBytesLE bs

/-- The low n bytes of a number, least significant first. -/
def bytesOfNatLE : Nat → Nat → List Byte
  | 0, _ => []
  | n + 1, v => BitVec.ofNat 8 v :: bytesOfNatLE n (v / 256)

/-- Bytes least significant first, rearranged to ascending address order, and the same back (R70, R71): the one place
where `BYTE_ORDER` acts. -/
def ByteOrder.arrange : ByteOrder → List Byte → List Byte
  | .little, bs => bs
  | .big, bs => bs.reverse

/-- The number that bytes in ascending address order stand for. -/
def ByteOrder.natOfBytes (o : ByteOrder) (bs : List Byte) : Nat := natOfBytesLE (o.arrange bs)

/-- The n bytes of a number in ascending address order. -/
def ByteOrder.bytesOfNat (o : ByteOrder) (n v : Nat) : List Byte := o.arrange (bytesOfNatLE n v)

/-! ### Opcodes and register identifiers -/

/-- `OPC(m)` (R105). -/
def Cfg.opcode (cfg : Cfg) : Mnemonic → Byte
  | .mov => cfg.opc.mov
  | .ret => cfg.opc.ret
  | .call => cfg.opc.call
  | .pushr => cfg.opc.pushr
  | .popr => cfg.opc.popr

/-- The instruction whose opcode byte is x, if x is one of the five (R105). -/
def Cfg.mnemonicOf (cfg : Cfg) (x : Byte) : Option Mnemonic :=
  if x = cfg.opc.mov then some .mov
  else if x = cfg.opc.ret then some .ret
  else if x = cfg.opc.call then some .call
  else if x = cfg.opc.pushr then some .pushr
  else if x = cfg.opc.popr then some .popr
  else none

/-- `REGNUM^-1`: the register an identifier names (R95). -/
def Cfg.regOf (cfg : Cfg) (id : Nat) : Option Reg :=
  (cfg.regnum.find? fun e => e.1 == id).map (·.2)

/-- `REGNUM`: the identifier of a register, where it has one. -/
def Cfg.idOf (cfg : Cfg) (r : Reg) : Option Nat :=
  (cfg.regnum.find? fun e => e.2 == r).map (·.1)

/-- What an identifier stands for (R95). -/
def Cfg.refOf (cfg : Cfg) (id : Nat) : RegRef :=
  match cfg.regOf id with
  | some r => .named r
  | none => .unassigned id

/-- The identifier that stands for a reference; 0 for a register without one, which no well-formed instruction holds. -/
def RegRef.id (cfg : Cfg) : RegRef → Nat
  | .named r => (cfg.idOf r).getD 0
  | .unassigned id => id

/-! ### Argument modes -/

/-- The code of a mode (R88). -/
def Mode.code : Mode → Byte
  | .immByte => 0x00
  | .immWord => 0x01
  | .immTbyte => 0x02
  | .immDword => 0x03
  | .immQword => 0x06
  | .immFloat => 0x07
  | .reg => 0x08
  | .regAddr => 0x09
  | .near => 0x0B
  | .addr => 0x0C
  | .long => 0x0D
  | .far => 0x0E
  | .rel => 0x0F
  | .segReg => 0x10
  | .segImm => 0x11
  | .dsReg => 0x12
  | .dsB => 0x13
  | .regAL => 0x1A
  | .regA => 0x1B
  | .regAX => 0x1C
  | .regHL => 0x1D
  | .addrHL => 0x1E
  | .bpRel => 0x1F
  | .regBL => 0x20
  | .regB => 0x21
  | .regBX => 0x22
  | .regAF => 0xF0
  | .regBF => 0xF1
  | .regCF => 0xF2
  | .regDF => 0xF3
  | .none => 0xFF

/-- Every mode, in the order of R88's table. -/
def Mode.all : List Mode :=
  [.immByte, .immWord, .immTbyte, .immDword, .immQword, .immFloat, .reg, .regAddr, .near, .addr, .long, .far, .rel]
  ++ [.segReg, .segImm, .dsReg, .dsB, .regAL, .regA, .regAX, .regHL, .addrHL, .bpRel, .regBL, .regB, .regBX]
  ++ [.regAF, .regBF, .regCF, .regDF, .none]

/-- The mode with a given code; none for a code R89 reserves. -/
def Mode.ofCode (x : Byte) : Option Mode := Mode.all.find? fun m => m.code == x

/-- `plen(mode)`, in bytes (R92). -/
def Mode.plen (cfg : Cfg) : Mode → Nat
  | .immByte => 1
  | .immWord => 2
  | .immTbyte => 3
  | .immDword => 4
  | .immQword => 8
  | .immFloat => 4
  | .reg | .regAddr | .dsReg => cfg.regidBytes
  | .near => 1
  | .addr => 2
  | .long => 3
  | .far => 4
  | .rel => 1
  | .segReg => 2 * cfg.regidBytes
  | .segImm => cfg.regidBytes + cfg.segimmBytes
  | .dsB => 0
  | .regAL | .regA | .regAX | .regHL | .addrHL => 0
  | .bpRel => cfg.bprelBytes
  | .regBL | .regB | .regBX => 0
  | .regAF | .regBF | .regCF | .regDF => 0
  | .none => 0

/-- The immediate modes (R88, class Imm). -/
def Mode.isImm : Mode → Bool
  | .immByte | .immWord | .immTbyte | .immDword | .immQword | .immFloat => true
  | _ => false

/-- The mode of an argument. -/
def Arg.mode : Arg → Mode
  | .immByte _ => .immByte
  | .immWord _ => .immWord
  | .immTbyte _ => .immTbyte
  | .immDword _ => .immDword
  | .immQword _ => .immQword
  | .immFloat _ => .immFloat
  | .reg _ => .reg
  | .regAddr _ => .regAddr
  | .near _ => .near
  | .addr _ => .addr
  | .long _ => .long
  | .far _ => .far
  | .rel _ => .rel
  | .segReg _ _ => .segReg
  | .segImm _ _ => .segImm
  | .dsReg _ => .dsReg
  | .dsB => .dsB
  | .regAL => .regAL
  | .regA => .regA
  | .regAX => .regAX
  | .regHL => .regHL
  | .addrHL => .addrHL
  | .bpRel _ => .bpRel
  | .regBL => .regBL
  | .regB => .regB
  | .regBX => .regBX
  | .regAF => .regAF
  | .regBF => .regBF
  | .regCF => .regCF
  | .regDF => .regDF

def RetArg.mode : RetArg → Mode
  | .none => .none
  | .byte _ => .immByte
  | .word _ => .immWord

def CallTarget.mode : CallTarget → Mode
  | .long _ => .long
  | .far _ => .far
  | .rel _ => .rel

/-- The modes of argument1 and argument2 of an instruction (R107). -/
def Instr.modes : Instr → Mode × Mode
  | .mov d s => (d.mode, s.mode)
  | .ret n => (n.mode, .none)
  | .call t => (t.mode, .none)
  | .pushr | .popr => (.none, .none)

/-- `len = 3 + plen(A) + plen(B)` (R106). -/
def Instr.len (cfg : Cfg) (i : Instr) : Nat := 3 + i.modes.1.plen cfg + i.modes.2.plen cfg

def Instr.mnemonic : Instr → Mnemonic
  | .mov _ _ => .mov
  | .ret _ => .ret
  | .call _ => .call
  | .pushr => .pushr
  | .popr => .popr

/-! ### Decoding -/

/-- The register reference in a payload's first `REGID_BYTES` bytes. -/
def Cfg.refIn (cfg : Cfg) (p : List Byte) : RegRef := cfg.refOf (cfg.byteOrder.natOfBytes (p.take cfg.regidBytes))

/-- A payload as a w-bit value (R91, R93). -/
def Cfg.valueIn (cfg : Cfg) (w : Nat) (p : List Byte) : BitVec w := BitVec.ofNat w (cfg.byteOrder.natOfBytes p)

/-- A two's-complement number of n bytes, sign-extended to 16 bits (R104). -/
def signExtendBytes (n v : Nat) : BitVec 16 := (BitVec.ofNat (8 * n) v).signExtend 16

/-- The argument that a mode and its payload (exactly `plen` bytes) describe; none for mode None (R92). -/
def decodeArg (cfg : Cfg) (m : Mode) (p : List Byte) : Option Arg :=
  match m with
  | .immByte => some (.immByte (cfg.valueIn 8 p))
  | .immWord => some (.immWord (cfg.valueIn 16 p))
  | .immTbyte => some (.immTbyte (cfg.valueIn 24 p))
  | .immDword => some (.immDword (cfg.valueIn 32 p))
  | .immQword => some (.immQword (cfg.valueIn 64 p))
  | .immFloat => some (.immFloat (cfg.valueIn 32 p))
  | .reg => some (.reg (cfg.refIn p))
  | .regAddr => some (.regAddr (cfg.refIn p))
  | .near => some (.near (cfg.valueIn 8 p))
  | .addr => some (.addr (cfg.valueIn 16 p))
  | .long => some (.long (cfg.valueIn 24 p))
  | .far => some (.far (cfg.valueIn 32 p))
  | .rel => some (.rel (cfg.valueIn 8 p))
  | .segReg => some (.segReg (cfg.refIn p) (cfg.refIn (p.drop cfg.regidBytes)))
  | .segImm => some (.segImm (cfg.refIn p) (cfg.valueIn 16 (p.drop cfg.regidBytes)))
  | .dsReg => some (.dsReg (cfg.refIn p))
  | .dsB => some .dsB
  | .regAL => some .regAL
  | .regA => some .regA
  | .regAX => some .regAX
  | .regHL => some .regHL
  | .addrHL => some .addrHL
  | .bpRel => some (.bpRel (signExtendBytes cfg.bprelBytes (cfg.byteOrder.natOfBytes p)))
  | .regBL => some .regBL
  | .regB => some .regB
  | .regBX => some .regBX
  | .regAF => some .regAF
  | .regBF => some .regBF
  | .regCF => some .regCF
  | .regDF => some .regDF
  | .none => none

/-- Why bytes are no instruction of the model (R112 steps 2, 4 and 5), by the names of 60_exceptions.md R148, R149. -/
inductive DecodeReject where
  /-- R89, R90: a reserved argument-mode code, or 0xFF as argument1 with argument2 present. A fault. -/
  | reservedArgMode (code : Byte)
  /-- R105: the opcode byte is none of the five. A refusal. -/
  | unknownOpcode (x : Byte)
  /-- R107: a known instruction with an operand combination not admitted. A refusal. -/
  | operandForm (m : Mnemonic) (a b : Mode)
  /-- R107's exception: an immediate mode as argument1 of MOV. A fault. -/
  | writeToImmediate
  deriving DecidableEq, Repr

/-- R112 step 2: the two mode bytes of a header, unless one is reserved. DEDUCED, log 24: argument1's fault comes first
(R103), and 0xFF as argument1 before any other B byte, a reserved one too, is argument1's (R90), so it comes before R89's
fault of B. -/
def headerModes (a b : Byte) : Except DecodeReject (Mode × Mode) :=
  match Mode.ofCode a with
  | none => .error (.reservedArgMode a)
  | some ma =>
    if ma = .none ∧ b ≠ Mode.none.code then .error (.reservedArgMode 0xFF)
    else
      match Mode.ofCode b with
      | none => .error (.reservedArgMode b)
      | some mb => .ok (ma, mb)

/-- MOV's operand form (R107): an immediate destination is a fault, an absent argument no form of it. -/
def decodeMov (cfg : Cfg) (ma mb : Mode) (pa pb : List Byte) : Except DecodeReject Instr :=
  if ma.isImm then .error .writeToImmediate
  else
    match decodeArg cfg ma pa, decodeArg cfg mb pb with
    | some d, some s => .ok (.mov d s)
    | _, _ => .error (.operandForm .mov ma mb)

/-- RET's operand forms (R107). -/
def decodeRet (cfg : Cfg) (ma mb : Mode) (pa : List Byte) : Except DecodeReject Instr :=
  if mb = .none then
    match ma with
    | .none => .ok (.ret .none)
    | .immByte => .ok (.ret (.byte (cfg.valueIn 8 pa)))
    | .immWord => .ok (.ret (.word (cfg.valueIn 16 pa)))
    | _ => .error (.operandForm .ret ma mb)
  else .error (.operandForm .ret ma mb)

/-- CALL's operand forms (R107). -/
def decodeCall (cfg : Cfg) (ma mb : Mode) (pa : List Byte) : Except DecodeReject Instr :=
  if mb = .none then
    match ma with
    | .long => .ok (.call (.long (cfg.valueIn 24 pa)))
    | .far => .ok (.call (.far (cfg.valueIn 32 pa)))
    | .rel => .ok (.call (.rel (cfg.valueIn 8 pa)))
    | _ => .error (.operandForm .call ma mb)
  else .error (.operandForm .call ma mb)

/-- PUSHR's operand form (R107). -/
def decodePushr (ma mb : Mode) : Except DecodeReject Instr :=
  if ma = .none ∧ mb = .none then .ok .pushr else .error (.operandForm .pushr ma mb)

/-- POPR's operand form (R107). -/
def decodePopr (ma mb : Mode) : Except DecodeReject Instr :=
  if ma = .none ∧ mb = .none then .ok .popr else .error (.operandForm .popr ma mb)

/-- R112 steps 4 and 5: the opcode, the operand form, and the instruction with its arguments. `pa` and `pb` are the
payloads of argument1 and argument2. -/
def decodeForm (cfg : Cfg) (x : Byte) (ma mb : Mode) (pa pb : List Byte) : Except DecodeReject Instr :=
  match cfg.mnemonicOf x with
  | none => .error (.unknownOpcode x)
  | some .mov => decodeMov cfg ma mb pa pb
  | some .ret => decodeRet cfg ma mb pa
  | some .call => decodeCall cfg ma mb pa
  | some .pushr => decodePushr ma mb
  | some .popr => decodePopr ma mb

/-- The payload bytes after a header, cut into argument1's and argument2's (R91), and decoded. -/
def decodePayload (cfg : Cfg) (x : Byte) (ma mb : Mode) (p : List Byte) : Except DecodeReject Instr :=
  decodeForm cfg x ma mb (p.take (ma.plen cfg)) ((p.drop (ma.plen cfg)).take (mb.plen cfg))

/-- Why a list of bytes does not decode: it ends too early, or R112 rejects it. -/
inductive DecodeError where
  | truncated
  | rejected (r : DecodeReject)
  deriving DecidableEq, Repr

/-- R112 on a list of bytes, total: the instruction at its front and the bytes after it. -/
def decode (cfg : Cfg) (bytes : List Byte) : Except DecodeError (Instr × List Byte) :=
  match bytes with
  | x :: a :: b :: rest =>
    match headerModes a b with
    | .error r => .error (.rejected r)
    | .ok (ma, mb) =>
      if rest.length < ma.plen cfg + mb.plen cfg then .error .truncated
      else
        match decodePayload cfg x ma mb rest with
        | .error r => .error (.rejected r)
        | .ok i => .ok (i, rest.drop (ma.plen cfg + mb.plen cfg))
  | _ => .error .truncated

/-! ### Encoding -/

def RegRef.encode (cfg : Cfg) (r : RegRef) : List Byte := cfg.byteOrder.bytesOfNat cfg.regidBytes (r.id cfg)

/-- The payload of an argument (R92). -/
def Arg.payload (cfg : Cfg) : Arg → List Byte
  | .immByte v => cfg.byteOrder.bytesOfNat 1 v.toNat
  | .immWord v => cfg.byteOrder.bytesOfNat 2 v.toNat
  | .immTbyte v => cfg.byteOrder.bytesOfNat 3 v.toNat
  | .immDword v => cfg.byteOrder.bytesOfNat 4 v.toNat
  | .immQword v => cfg.byteOrder.bytesOfNat 8 v.toNat
  | .immFloat v => cfg.byteOrder.bytesOfNat 4 v.toNat
  | .reg r => r.encode cfg
  | .regAddr r => r.encode cfg
  | .near a => cfg.byteOrder.bytesOfNat 1 a.toNat
  | .addr a => cfg.byteOrder.bytesOfNat 2 a.toNat
  | .long a => cfg.byteOrder.bytesOfNat 3 a.toNat
  | .far a => cfg.byteOrder.bytesOfNat 4 a.toNat
  | .rel o => cfg.byteOrder.bytesOfNat 1 o.toNat
  | .segReg rs ro => rs.encode cfg ++ ro.encode cfg
  | .segImm rs off => rs.encode cfg ++ cfg.byteOrder.bytesOfNat cfg.segimmBytes off.toNat
  | .dsReg ro => ro.encode cfg
  | .bpRel n => cfg.byteOrder.bytesOfNat cfg.bprelBytes (n.signExtend (8 * cfg.bprelBytes)).toNat
  | .dsB | .regAL | .regA | .regAX | .regHL | .addrHL | .regBL | .regB | .regBX => []
  | .regAF | .regBF | .regCF | .regDF => []

def RetArg.payload (cfg : Cfg) : RetArg → List Byte
  | .none => []
  | .byte n => cfg.byteOrder.bytesOfNat 1 n.toNat
  | .word n => cfg.byteOrder.bytesOfNat 2 n.toNat

def CallTarget.payload (cfg : Cfg) : CallTarget → List Byte
  | .long a => cfg.byteOrder.bytesOfNat 3 a.toNat
  | .far a => cfg.byteOrder.bytesOfNat 4 a.toNat
  | .rel o => cfg.byteOrder.bytesOfNat 1 o.toNat

/-- The payload bytes of an instruction, argument1's first (R91). -/
def Instr.payload (cfg : Cfg) : Instr → List Byte
  | .mov d s => d.payload cfg ++ s.payload cfg
  | .ret n => n.payload cfg
  | .call t => t.payload cfg
  | .pushr | .popr => []

/-- The bytes of an instruction in ascending address order: header X, A, B (R86), then the payloads (R91). -/
def encode (cfg : Cfg) (i : Instr) : List Byte :=
  cfg.opcode i.mnemonic :: i.modes.1.code :: i.modes.2.code :: i.payload cfg

/-! ### Words of the opcode table -/

/-- The payload bytes that follow a header with these mode bytes; 0 where a code is reserved, which the decoder rejects
before it needs a payload. -/
def headerPayloadLen (cfg : Cfg) (a b : Byte) : Nat :=
  match headerModes a b with
  | .ok (ma, mb) => ma.plen cfg + mb.plen cfg
  | .error _ => 0

/-- The bytes, in ascending address order, of a word numbered as spec/opcode_table.json numbers it: a 24-bit header
X:A:B with X in bits 23 to 16 and at the lowest address (R86), bits above 23 counting on from it, every bit at or above
`nbits` zero. Log 18. -/
def tableBytes (cfg : Cfg) (nbits w : Nat) : List Byte :=
  let v := w % 2 ^ nbits
  let a := BitVec.ofNat 8 (v / 0x100)
  let b := BitVec.ofNat 8 v
  BitVec.ofNat 8 (v / 0x10000) :: a :: b :: bytesOfNatLE (headerPayloadLen cfg a b) (v / 0x1000000)

/-- The instruction the decoder reads from a word of the opcode table, in the reference configuration (log 2, 18). -/
def decodeTableWord (nbits w : Nat) : Option Instr :=
  match decode Cfg.reference (tableBytes Cfg.reference nbits w) with
  | .ok (i, _) => some i
  | .error _ => none

end Sys2Proof
end

