-- ==== Sys2Proof/Machine/State.lean ====
section
/-! DEFINITION. The machine's state as plain data: the storage cells of spec/10_state.md R13, memory, the pending
interrupt request, the launch state's code set, the configuration; the faults of spec/60_exceptions.md R148, the refusals
of R149; and the state after reset. INVENTORY.md lists every field with its rule. -/
namespace Sys2Proof.Machine

/-- Bytes by address: addresses strictly rising, an unlisted address holding no value (10_state.md R52). The operations
and the canonical form are in Machine/Memory.lean. -/
abbrev Memory := List Host.Cell

/-- The storage cells of the core (10_state.md R13). Every other register name is a view of these
(Machine/Registers.lean). -/
structure Cells where
  ax : BitVec 32
  bx : BitVec 32
  cx : BitVec 32
  dx : BitVec 32
  hl : BitVec 32
  ds : BitVec 16
  es : BitVec 16
  ss : BitVec 16
  /-- The segment register S. -/
  sSeg : BitVec 16
  pc : CodeAddr
  af : BitVec 32
  bf : BitVec 32
  cf : BitVec 32
  df : BitVec 32
  bpx : BitVec 32
  spx : BitVec 32
  r1 : BitVec 16
  r2 : BitVec 16
  r3 : BitVec 16
  r4 : BitVec 16
  mb : BitVec 8
  cr0 : BitVec 24
  cr1 : BitVec 16
  f : BitVec 20
  deriving DecidableEq, Repr

/-- The state. `cfg` and `code` are fixed for a run: no step writes them. -/
structure State where
  /-- The configuration (00_scope.md R4), carried here because the host's step takes a state only (log 1). -/
  cfg : Cfg
  cells : Cells
  /-- The pending interrupt request (60_exceptions.md R140). -/
  pending : Option (Fin 8192)
  /-- The store of every region but the I/O ports and the banked window, by physical address (20_memory.md R65). -/
  mem : Memory
  /-- `Bank[b][o]` of 20_memory.md R67, at key b * 0x8_0000 + o (log 5). -/
  bank : Memory
  /-- The code set of the launch state (20_memory.md R82, log 6). -/
  code : List CodeRange
  /-- The model's own: the interrupt source's choices still to come, one per step (60_exceptions.md R140, log 8). -/
  irqs : List (Option (Fin 8192))
  /-- The model's own: how many free bytes the I/O ports have given (20_memory.md R68, log 11). -/
  ioDraws : Nat
  /-- The output events (addr, byte) of the I/O ports, oldest first (20_memory.md R68, log 11). -/
  ioOut : List Host.Cell
  deriving DecidableEq, Repr

/-- The kinds of memory access that 20_memory.md R64 tells apart. -/
inductive Access where
  | read | write | fetch
  deriving DecidableEq, Repr

/-- The faults of 60_exceptions.md R148. A fault ends the run, is no trap a program can catch and changes no state
(R147, 40_general_instructions.md R113): where the hardware goes on, the model stops, which is safe. -/
inductive Fault where
  /-- Raised by a read, write or fetch of a protected region with CR0.pm = 1 (20_memory.md R64); addr is the physical
  address. Safe. -/
  | protectedAccess (addr : Nat) (kind : Access)
  /-- Raised where an instruction names a register whose CR0 bit is 0 (10_state.md R33). Safe. -/
  | registerNotEnabled (r : Reg)
  /-- Raised by decoding an A or B byte without a mode, or 0xFF as argument1 with argument2 present (30_encoding.md R89,
  R90). Safe. -/
  | reservedArgMode (code : Byte)
  /-- Raised by an immediate as a destination (30_encoding.md R93, R107). Safe. -/
  | writeToImmediate
  /-- Raised by a register of the wrong width in an address (30_encoding.md R95, R98). Safe. -/
  | badAddressRegister (r : Reg)
  /-- Raised by a register identifier without a register (30_encoding.md R95). Safe. -/
  | unknownRegister (id : Nat)
  /-- Raised by a read or fetch of a memory byte that holds no value (10_state.md R52). Safe. Registers always hold one
  (log 3). -/
  | readOfUnwritten (addr : Nat)
  deriving DecidableEq, Repr

/-- The refusals of 60_exceptions.md R149: situations the source is silent on, to which the spec gives no meaning. All
safe: the model stops where the hardware may go on. -/
inductive Refusal where
  /-- Raised by exec for an instruction without a meaning; this model has none. Safe. -/
  | notModelled (mnemonic : String)
  /-- Raised by decoding an opcode byte that is none of the five (30_encoding.md R105). Safe. -/
  | unknownOpcode (x : Byte)
  /-- Raised by decoding a combination of arguments not admitted (30_encoding.md R107). Safe. -/
  | operandForm (m : Mnemonic) (a b : Mode)
  /-- Raised by MOV with two memory operands (30_encoding.md R102). Safe. -/
  | noOperandWidth
  /-- Raised by MOV with differing operand widths (40_general_instructions.md R114). Safe. -/
  | widthMismatch
  /-- Raised by MOV between a float and an integer operand (R114). Safe. -/
  | floatIntMove
  /-- Raised by MOV to or from PC (R114). Safe. -/
  | movPc
  /-- Raised by RET for a popped value above 24 bits (R116), and by a configured interrupt entry or return that sets PC to
  one (log 12). Safe. -/
  | returnAddressTooWide
  /-- Raised by CALL for a target above 24 bits (41_special_instructions.md R123). Safe. -/
  | callTargetTooWide
  /-- Raised by taking an interrupt whose routine lies above 24 bits (60_exceptions.md R143). Safe. -/
  | interruptTargetTooWide
  /-- Raised by the stack operations where SP or an item would pass 0 or 0xFFFF (41_special_instructions.md R120 to
  R122). Safe. -/
  | stackWrap
  /-- Raised by PUSHR and POPR without a configured list (R126, R127). Safe. -/
  | pushrListUnknown
  /-- Raised by an address at or above 2^AW with `ADDR_OVERFLOW = refuse` (20_memory.md R58). Safe. -/
  | addressBeyondWidth (lin : Linear)
  /-- Raised by an access or an instruction that crosses a 64 KB boundary (20_memory.md R75). Safe. -/
  | segmentWrap (lin : Linear) (n : Nat)
  /-- Raised by fetching an instruction that passes 0xFF_FFFF (10_state.md R27). Safe. -/
  | pcWrap
  /-- Raised by an access to a disputed range (20_memory.md R63). Safe. -/
  | disputedRegion (addr : Nat)
  /-- Raised by any memory access and any step with CR0.pg = 1 (10_state.md R44, 20_memory.md R66). Safe. -/
  | pagingUnmodelled
  /-- Raised by an access to banked RAM with `BANK_MODEL = refuse` (20_memory.md R67). Safe. -/
  | bankedUnmodelled
  /-- Raised by an access to the I/O ports with `IO_MODEL = refuse`, or a fetch from them (20_memory.md R68). Safe. -/
  | ioUnmodelled (addr : Nat)
  /-- Raised by a write to the character set with CR0.pm = 0 (20_memory.md R69). Safe. -/
  | charsetWrite
  /-- Raised by a store into the code set (20_memory.md R82). Safe. -/
  | writeToCode (addr : Nat)
  /-- Raised by a fetch outside the code set (20_memory.md R82). Safe. -/
  | fetchOutsideCode (addr : Nat)
  /-- Raised by taking an interrupt with `INT_ENTRY = refuse` (60_exceptions.md R144). Safe. -/
  | interruptEntryUnmodelled (n : Fin 8192)
  /-- Raised by any step with F.v8 = 1 (60_exceptions.md R153). Safe. -/
  | virtualBcg8Unmodelled
  deriving DecidableEq, Repr

/-- How an operation ends a step (00_scope.md R8: `raise` and `refuse`). -/
inductive Stop where
  | fault (f : Fault)
  | refuse (r : Refusal)
  deriving DecidableEq, Repr

/-- An operation of a step: a result, or the step's end. A stop carries no state, so a step that ends in one changes
none (40_general_instructions.md R113(c)). -/
abbrev Run (α : Type) := Except Stop α

/-- The cells after reset. The source gives no reset value (10_state.md R51): DESIGN CHOICE, log 3, every cell 0 but the
pc at `RESET_PC` and SPX in plain RAM with room around it (70_reset_and_hazards.md R164 item 3). -/
def Cells.reset (resetPc : CodeAddr) : Cells where
  ax := 0
  bx := 0
  cx := 0
  dx := 0
  hl := 0
  ds := 0
  es := 0
  ss := 0
  sSeg := 0
  pc := resetPc
  af := 0
  bf := 0
  cf := 0
  df := 0
  bpx := 0
  spx := 0x210
  r1 := 0
  r2 := 0
  r3 := 0
  r4 := 0
  mb := 0
  cr0 := 0
  cr1 := 0
  f := 0

/-- The state right after reset: no request pending (10_state.md R51), no byte of memory with a value, no code loaded;
the rest by log 2, 3, 8 and 11. -/
def State.reset : State where
  cfg := Cfg.reference
  cells := Cells.reset Cfg.reference.resetPc
  pending := none
  mem := []
  bank := []
  code := []
  irqs := []
  ioDraws := 0
  ioOut := []

end Sys2Proof.Machine
end

