-- ==== Sys2Proof/Machine/Flags.lean ====
section
/-! DEFINITION. The named bits of F, CR0 and CR1 (spec/10_state.md R38, R47, R48; spec/00_scope.md R8) and what the step
function reads from them: address width, effective bank. No instruction of the spec computes a flag (R49, R50;
spec/40_general_instructions.md R113(a)), so there is no flag computation here. -/
namespace Sys2Proof.Machine

/-! ### F (R48) -/

def Cells.fZ (c : Cells) : Bool := c.f.getLsbD 0
def Cells.fEq (c : Cells) : Bool := c.f.getLsbD 1
def Cells.fS (c : Cells) : Bool := c.f.getLsbD 2
def Cells.fC (c : Cells) : Bool := c.f.getLsbD 3
def Cells.fO (c : Cells) : Bool := c.f.getLsbD 4
def Cells.fLt (c : Cells) : Bool := c.f.getLsbD 5
/-- F.ie, "interrupt enable" (60_exceptions.md R142). -/
def Cells.fIe (c : Cells) : Bool := c.f.getLsbD 6
/-- F.halt, "HALT" (60_exceptions.md R158). -/
def Cells.fHalt (c : Cells) : Bool := c.f.getLsbD 7
/-- F.v8, "enable virtual BCG8 mode" (60_exceptions.md R153). -/
def Cells.fV8 (c : Cells) : Bool := c.f.getLsbD 10

/-! ### CR0 (R38), as functions of its value, since POPR's accesses are governed by the value at its start (R127) -/

def cr0A20 (cr0 : BitVec 24) : Bool := cr0.getLsbD 0
def cr0Xr (cr0 : BitVec 24) : Bool := cr0.getLsbD 2
def cr0Xm (cr0 : BitVec 24) : Bool := cr0.getLsbD 4
def cr0X32 (cr0 : BitVec 24) : Bool := cr0.getLsbD 9
def cr0Pm (cr0 : BitVec 24) : Bool := cr0.getLsbD 15
def cr0Pg (cr0 : BitVec 24) : Bool := cr0.getLsbD 19

/-! ### CR1 (R47) -/

def Cells.cr1Bios (c : Cells) : Bool := c.cr1.getLsbD 0

/-- AW, the address width (20_memory.md R57). -/
def addressWidth (cr0 : BitVec 24) : Nat :=
  if cr0Xm cr0 then 24 else if cr0A20 cr0 then 20 else 16

/-- `MB_eff` (10_state.md R31). -/
def mbEff (cr0 : BitVec 24) (mb : BitVec 8) : BitVec 8 :=
  if cr0Xm cr0 then mb else (mb.setWidth 4).setWidth 8

end Sys2Proof.Machine
end

