-- ==== Sys2Proof/Machine/Registers.lean ====
section
/-! DEFINITION. Register names as views of the storage cells (spec/10_state.md R13 to R31, R47): width, the bits of cells
behind each name, enabling, reading and writing. The one place where a register is read or written by name. -/
namespace Sys2Proof

/-- `width(r)` in bits (10_state.md, the register lines). -/
def Reg.width : Reg → Nat
  | .AH | .AL | .BH | .BL | .CH | .CL | .DH | .DL => 8
  | .A | .B | .C | .D => 16
  | .AX | .BX | .CX | .DX => 32
  | .ABX | .CDX => 32
  | .EAB | .ECD => 64
  | .H | .L => 16
  | .HL => 32
  | .DS | .ES | .SS | .S => 16
  | .PC => 24
  | .AF | .BF | .CF | .DF => 32
  | .EABF | .ECDF => 64
  | .BP | .SP => 16
  | .BPX | .SPX => 32
  | .R1 | .R2 | .R3 | .R4 => 16
  | .MB => 8
  | .CR0 => 24
  | .CR1 => 16
  | .F => 20

/-- `bytes(r) = ceil(width(r) / 8)` (41_special_instructions.md R126). -/
def Reg.bytes (r : Reg) : Nat := (r.width + 7) / 8

/-- `mw(r)`: the width rounded up to a multiple of 8 (40_general_instructions.md R114). -/
def Reg.moveWidth (r : Reg) : Nat := 8 * r.bytes

/-- The float registers (40_general_instructions.md R114). -/
def Reg.isFloat : Reg → Bool
  | .AF | .BF | .CF | .DF | .EABF | .ECDF => true
  | _ => false

/-- Bits `lo` to `lo + width - 1` of the storage cell that `cell` names. -/
structure CellBits where
  cell : Reg
  lo : Nat
  width : Nat
  deriving DecidableEq, Repr

/-- The cell bits behind a name, the more significant part first (R13 to R23, R29; R21's table). `cell` is always one
of the names R13 lists as a cell. -/
def Reg.cellBits : Reg → List CellBits
  | .AH => [⟨.AX, 8, 8⟩]
  | .AL => [⟨.AX, 0, 8⟩]
  | .BH => [⟨.BX, 8, 8⟩]
  | .BL => [⟨.BX, 0, 8⟩]
  | .CH => [⟨.CX, 8, 8⟩]
  | .CL => [⟨.CX, 0, 8⟩]
  | .DH => [⟨.DX, 8, 8⟩]
  | .DL => [⟨.DX, 0, 8⟩]
  | .A => [⟨.AX, 0, 16⟩]
  | .B => [⟨.BX, 0, 16⟩]
  | .C => [⟨.CX, 0, 16⟩]
  | .D => [⟨.DX, 0, 16⟩]
  | .ABX => [⟨.AX, 0, 16⟩, ⟨.BX, 0, 16⟩]
  | .CDX => [⟨.CX, 0, 16⟩, ⟨.DX, 0, 16⟩]
  | .EAB => [⟨.AX, 0, 32⟩, ⟨.BX, 0, 32⟩]
  | .ECD => [⟨.CX, 0, 32⟩, ⟨.DX, 0, 32⟩]
  | .H => [⟨.HL, 16, 16⟩]
  | .L => [⟨.HL, 0, 16⟩]
  | .EABF => [⟨.AF, 0, 32⟩, ⟨.BF, 0, 32⟩]
  | .ECDF => [⟨.CF, 0, 32⟩, ⟨.DF, 0, 32⟩]
  | .BP => [⟨.BPX, 0, 16⟩]
  | .SP => [⟨.SPX, 0, 16⟩]
  | r => [⟨r, 0, r.width⟩]

def CellBits.meets (x y : CellBits) : Bool :=
  x.cell == y.cell && decide (x.lo < y.lo + y.width) && decide (y.lo < x.lo + x.width)

/-- Two names share a cell bit (R21; 41_special_instructions.md R126 corner case 1). -/
def Reg.overlaps (r q : Reg) : Bool := r.cellBits.any fun x => q.cellBits.any fun y => x.meets y

/-- The enabling conditions of 10_state.md R16, R18, R19, R29. -/
def Reg.enabled (cr0 : BitVec 24) : Reg → Bool
  | .AX | .BX | .CX | .DX => Machine.cr0Pm cr0
  | .ABX | .CDX => Machine.cr0Xr cr0
  | .EAB | .ECD | .EABF | .ECDF => Machine.cr0X32 cr0
  | _ => true

/-- What 41_special_instructions.md R126 asks of `PUSHR_LIST`: no register twice, no shared cell bit, no SP, SPX, PC. -/
def pushrListWf (rs : List Reg) : Bool :=
  decide (rs.Pairwise fun r q => r.overlaps q = false) &&
    rs.all fun r => !(r == .SP || r == .SPX || r == .PC)

end Sys2Proof

namespace Sys2Proof.Machine

/-- `x[r]`, zero-extended to the carrier, through the views of R13 to R31. -/
def Cells.read (c : Cells) : Reg → Value
  | .AH => (c.ax.extractLsb' 8 8).setWidth 64
  | .AL => (c.ax.setWidth 8).setWidth 64
  | .BH => (c.bx.extractLsb' 8 8).setWidth 64
  | .BL => (c.bx.setWidth 8).setWidth 64
  | .CH => (c.cx.extractLsb' 8 8).setWidth 64
  | .CL => (c.cx.setWidth 8).setWidth 64
  | .DH => (c.dx.extractLsb' 8 8).setWidth 64
  | .DL => (c.dx.setWidth 8).setWidth 64
  | .A => (c.ax.setWidth 16).setWidth 64
  | .B => (c.bx.setWidth 16).setWidth 64
  | .C => (c.cx.setWidth 16).setWidth 64
  | .D => (c.dx.setWidth 16).setWidth 64
  | .AX => c.ax.setWidth 64
  | .BX => c.bx.setWidth 64
  | .CX => c.cx.setWidth 64
  | .DX => c.dx.setWidth 64
  | .ABX => (c.ax.setWidth 16 ++ c.bx.setWidth 16).setWidth 64
  | .CDX => (c.cx.setWidth 16 ++ c.dx.setWidth 16).setWidth 64
  | .EAB => c.ax ++ c.bx
  | .ECD => c.cx ++ c.dx
  | .H => (c.hl.extractLsb' 16 16).setWidth 64
  | .L => (c.hl.setWidth 16).setWidth 64
  | .HL => c.hl.setWidth 64
  | .DS => c.ds.setWidth 64
  | .ES => c.es.setWidth 64
  | .SS => c.ss.setWidth 64
  | .S => c.sSeg.setWidth 64
  | .PC => c.pc.setWidth 64
  | .AF => c.af.setWidth 64
  | .BF => c.bf.setWidth 64
  | .CF => c.cf.setWidth 64
  | .DF => c.df.setWidth 64
  | .EABF => c.af ++ c.bf
  | .ECDF => c.cf ++ c.df
  | .BP => (c.bpx.setWidth 16).setWidth 64
  | .SP => (c.spx.setWidth 16).setWidth 64
  | .BPX => c.bpx.setWidth 64
  | .SPX => c.spx.setWidth 64
  | .R1 => c.r1.setWidth 64
  | .R2 => c.r2.setWidth 64
  | .R3 => c.r3.setWidth 64
  | .R4 => c.r4.setWidth 64
  | .MB => c.mb.setWidth 64
  | .CR0 => c.cr0.setWidth 64
  | .CR1 => c.cr1.setWidth 64
  | .F => c.f.setWidth 64

/-- A 32-bit cell with its low 16 bits replaced. -/
def withLow16 (x : BitVec 32) (v : BitVec 16) : BitVec 32 := x.extractLsb' 16 16 ++ v

/-- A 32-bit cell with its high 16 bits replaced. -/
def withHigh16 (x : BitVec 32) (v : BitVec 16) : BitVec 32 := v ++ x.setWidth 16

/-- A 32-bit cell with bits 7 to 0 replaced. -/
def withLow8 (x : BitVec 32) (v : BitVec 8) : BitVec 32 := x.extractLsb' 8 24 ++ v

/-- A 32-bit cell with bits 15 to 8 replaced. -/
def withSecond8 (x : BitVec 32) (v : BitVec 8) : BitVec 32 := x.extractLsb' 16 16 ++ v ++ x.setWidth 8

/-- `x[r] <- v`: writes exactly the bits of the view from the low `width(r)` bits of v (R13). A write to CR1 leaves its
bit 0 unchanged (R47). -/
def Cells.write (c : Cells) (r : Reg) (v : Value) : Cells :=
  match r with
  | .AH => { c with ax := withSecond8 c.ax (v.setWidth 8) }
  | .AL => { c with ax := withLow8 c.ax (v.setWidth 8) }
  | .BH => { c with bx := withSecond8 c.bx (v.setWidth 8) }
  | .BL => { c with bx := withLow8 c.bx (v.setWidth 8) }
  | .CH => { c with cx := withSecond8 c.cx (v.setWidth 8) }
  | .CL => { c with cx := withLow8 c.cx (v.setWidth 8) }
  | .DH => { c with dx := withSecond8 c.dx (v.setWidth 8) }
  | .DL => { c with dx := withLow8 c.dx (v.setWidth 8) }
  | .A => { c with ax := withLow16 c.ax (v.setWidth 16) }
  | .B => { c with bx := withLow16 c.bx (v.setWidth 16) }
  | .C => { c with cx := withLow16 c.cx (v.setWidth 16) }
  | .D => { c with dx := withLow16 c.dx (v.setWidth 16) }
  | .AX => { c with ax := v.setWidth 32 }
  | .BX => { c with bx := v.setWidth 32 }
  | .CX => { c with cx := v.setWidth 32 }
  | .DX => { c with dx := v.setWidth 32 }
  | .ABX => { c with ax := withLow16 c.ax (v.extractLsb' 16 16), bx := withLow16 c.bx (v.setWidth 16) }
  | .CDX => { c with cx := withLow16 c.cx (v.extractLsb' 16 16), dx := withLow16 c.dx (v.setWidth 16) }
  | .EAB => { c with ax := v.extractLsb' 32 32, bx := v.setWidth 32 }
  | .ECD => { c with cx := v.extractLsb' 32 32, dx := v.setWidth 32 }
  | .H => { c with hl := withHigh16 c.hl (v.setWidth 16) }
  | .L => { c with hl := withLow16 c.hl (v.setWidth 16) }
  | .HL => { c with hl := v.setWidth 32 }
  | .DS => { c with ds := v.setWidth 16 }
  | .ES => { c with es := v.setWidth 16 }
  | .SS => { c with ss := v.setWidth 16 }
  | .S => { c with sSeg := v.setWidth 16 }
  | .PC => { c with pc := v.setWidth 24 }
  | .AF => { c with af := v.setWidth 32 }
  | .BF => { c with bf := v.setWidth 32 }
  | .CF => { c with cf := v.setWidth 32 }
  | .DF => { c with df := v.setWidth 32 }
  | .EABF => { c with af := v.extractLsb' 32 32, bf := v.setWidth 32 }
  | .ECDF => { c with cf := v.extractLsb' 32 32, df := v.setWidth 32 }
  | .BP => { c with bpx := withLow16 c.bpx (v.setWidth 16) }
  | .SP => { c with spx := withLow16 c.spx (v.setWidth 16) }
  | .BPX => { c with bpx := v.setWidth 32 }
  | .SPX => { c with spx := v.setWidth 32 }
  | .R1 => { c with r1 := v.setWidth 16 }
  | .R2 => { c with r2 := v.setWidth 16 }
  | .R3 => { c with r3 := v.setWidth 16 }
  | .R4 => { c with r4 := v.setWidth 16 }
  | .MB => { c with mb := v.setWidth 8 }
  | .CR0 => { c with cr0 := v.setWidth 24 }
  | .CR1 => { c with cr1 := v.extractLsb' 1 15 ++ c.cr1.setWidth 1 }
  | .F => { c with f := v.setWidth 20 }

/-- The value of a segment register. -/
def Cells.seg (c : Cells) : SegReg → BitVec 16
  | .ds => c.ds
  | .es => c.es
  | .ss => c.ss
  | .s => c.sSeg

/-- SP, the low half of SPX (R23). -/
def Cells.sp (c : Cells) : BitVec 16 := c.spx.setWidth 16

/-- BP, the low half of BPX (R23). -/
def Cells.bp (c : Cells) : BitVec 16 := c.bpx.setWidth 16

def State.setCells (s : State) (c : Cells) : State := { s with cells := c }

/-- `x[r] <- v` on the state. -/
def State.setReg (s : State) (r : Reg) (v : Value) : State := s.setCells (s.cells.write r v)

/-- `pc <- t`. -/
def State.setPc (s : State) (t : CodeAddr) : State := s.setCells { s.cells with pc := t }

/-- `x[SP] <- v`: the high half of SPX is not touched (41_special_instructions.md R120). -/
def State.setSp (s : State) (v : BitVec 16) : State := s.setCells { s.cells with spx := withLow16 s.cells.spx v }

/-- A register named by an instruction, if it is enabled (10_state.md R33). -/
def nameReg (cr0 : BitVec 24) (r : Reg) : Run Reg :=
  if r.enabled cr0 then .ok r else .error (.fault (.registerNotEnabled r))

/-- `x[r]` of a register named by an instruction (00_scope.md R8). -/
def State.readNamed (s : State) (cr0 : BitVec 24) (r : Reg) : Run Value :=
  if r.enabled cr0 then .ok (s.cells.read r) else .error (.fault (.registerNotEnabled r))

end Sys2Proof.Machine
end

