-- ==== Sys2Proof/Machine/Memory.lean ====
section
/-! DEFINITION. Memory: the canonical byte store, address formation and width, the memory map, the checks of one byte
access and the access primitives (spec/20_memory.md R53 to R82). -/
namespace Sys2Proof.Machine

/-! ### The byte store -/

/-- The canonical form: addresses strictly rising (so no address twice). An unlisted address holds no value (10_state.md
R52), so no entry can equal what an unlisted address reads as. -/
def Memory.wf : Memory → Bool
  | [] => true
  | [_] => true
  | (a, _) :: (b, y) :: rest => decide (a < b) && Memory.wf ((b, y) :: rest)

/-- The byte at an address; none where nothing has been written. -/
def Memory.read : Memory → Nat → Option Byte
  | [], _ => none
  | (k, b) :: rest, a => if k = a then some b else Memory.read rest a

/-- The store with one byte written, canonical form kept. -/
def Memory.write : Memory → Nat → Byte → Memory
  | [], a, v => [(a, v)]
  | (k, b) :: rest, a, v =>
    if a < k then (a, v) :: (k, b) :: rest
    else if a = k then (a, v) :: rest
    else (k, b) :: Memory.write rest a v

/-- The canonical form of both stores. -/
def State.memWf (s : State) : Bool := s.mem.wf && s.bank.wf

/-! ### Addresses -/

/-- `Lin(seg, off) = seg ++ off` (R54). -/
def linear (seg off : BitVec 16) : Linear := seg ++ off

/-- `Phys(lin)` (R58). -/
def phys (ov : AddrOverflow) (cr0 : BitVec 24) (lin : Linear) : Run Nat :=
  if lin.toNat < 2 ^ addressWidth cr0 then .ok lin.toNat
  else
    match ov with
    | .refuse => .error (.refuse (.addressBeyondWidth lin))
    | .wrap => .ok (lin.toNat % 2 ^ addressWidth cr0)

/-! ### The memory map (R62, R63) -/

/-- The seven rows of R62 by what is behind them; rows 2, 3 and 7 are plain RAM. -/
inductive Region where
  | ioPorts | ram | charSet | vram | banked
  deriving DecidableEq, Repr

/-- The region of a physical address (R62). -/
def regionOf (p : Nat) : Region :=
  if p < 0x000200 then .ioPorts
  else if p < 0x038000 then .ram
  else if p < 0x040000 then .charSet
  else if p < 0x080000 then .vram
  else if p < 0x100000 then .banked
  else .ram

/-- "Is Protected" (R62, R64). -/
def Region.isProtected : Region → Bool
  | .ioPorts | .charSet => true
  | .ram | .vram | .banked => false

/-- The two disputed ranges (R63). -/
def disputed (p : Nat) : Bool :=
  (decide (0x010000 ≤ p) && decide (p ≤ 0x0101FF)) || (decide (0x038000 ≤ p) && decide (p ≤ 0x0381FF))

/-! ### One byte access (R65) -/

/-- Where a checked byte access lands: the store at a physical address, a byte of a bank (R67), or an I/O port (R68). -/
inductive Place where
  | ram (p : Nat)
  | bank (b o : Nat)
  | port (p : Nat)
  deriving DecidableEq, Repr

/-- The key of `Bank[b][o]` in the bank store. Log 5. -/
def bankKey (b o : Nat) : Nat := b * 0x80000 + o

/-- A place that exists: a bank holds 0x8_0000 bytes (R67). -/
def Place.wf : Place → Bool
  | .bank _ o => decide (o < 0x80000)
  | .ram _ | .port _ => true

/-- Membership of the code set (R82). -/
def State.inCode (s : State) (p : Nat) : Bool := s.code.any fun r => decide (r.first ≤ p) && decide (p ≤ r.last)

/-- R82: a store into the code set and a fetch from outside it are refused. -/
def codeCheck (s : State) (k : Access) (p : Nat) (pl : Place) : Run Place :=
  match k with
  | .read => .ok pl
  | .write => if s.inCode p then .error (.refuse (.writeToCode p)) else .ok pl
  | .fetch => if s.inCode p then .ok pl else .error (.refuse (.fetchOutsideCode p))

/-- R65 steps 4 to 6 at a physical address that is not disputed, then R82. DESIGN CHOICE, log 6: the spec does not rank
R82 against R65's steps, and here the region speaks first. So a write to a port under `draw` is R68's output event also at
an address the code set contains, where R82 would refuse it: the step completes. -/
def regionCheck (s : State) (cr0 : BitVec 24) (k : Access) (p : Nat) : Run Place :=
  if (regionOf p).isProtected && cr0Pm cr0 then .error (.fault (.protectedAccess p k))
  else
    match regionOf p with
    | .ioPorts =>
      match k, s.cfg.ioModel with
      | .fetch, _ => .error (.refuse (.ioUnmodelled p))
      | _, .refuse => .error (.refuse (.ioUnmodelled p))
      | _, .draw => .ok (.port p)
    | .banked =>
      match s.cfg.bankModel with
      | .refuse => .error (.refuse .bankedUnmodelled)
      | .banked => codeCheck s k p (.bank (mbEff cr0 s.cells.mb).toNat (p - 0x080000))
    | .charSet => if k = .write then .error (.refuse .charsetWrite) else codeCheck s k p (.ram p)
    | .ram | .vram => codeCheck s k p (.ram p)

/-- The checks of one byte access, in R65's order. `cr0` is the value that governs the access. -/
def checkByte (s : State) (cr0 : BitVec 24) (k : Access) (lin : Linear) : Run Place :=
  if cr0Pg cr0 then .error (.refuse .pagingUnmodelled)
  else
    match phys s.cfg.addrOverflow cr0 lin with
    | .error e => .error e
    | .ok p => if disputed p then .error (.refuse (.disputedRegion p)) else regionCheck s cr0 k p

/-- The byte a place holds; none for a byte without a value, and for a port, which holds none. -/
def State.byteAt (s : State) : Place → Option Byte
  | .ram p => s.mem.read p
  | .bank b o => s.bank.read (bankKey b o)
  | .port _ => none

/-- The physical address of a place. -/
def Place.addr : Place → Nat
  | .ram p => p
  | .bank _ o => 0x080000 + o
  | .port p => p

/-- Read a checked byte: the stored byte (R65 step 7), `ReadOfUnwritten` where there is none (R69, 10_state.md R52), a
free byte from a port (R68, log 11). -/
def State.readPlace (s : State) (pl : Place) : Run (Byte × State) :=
  match pl with
  | .port _ => .ok (Config.ioByte s.ioDraws, { s with ioDraws := s.ioDraws + 1 })
  | pl =>
    match s.byteAt pl with
    | some b => .ok (b, s)
    | none => .error (.fault (.readOfUnwritten pl.addr))

/-- Store a checked byte: into its store (R65 step 7), or as an output event of a port (R68). -/
def State.writePlace (s : State) (pl : Place) (v : Byte) : State :=
  match pl with
  | .ram p => { s with mem := s.mem.write p v }
  | .bank b o => { s with bank := s.bank.write (bankKey b o) v }
  | .port p => { s with ioOut := s.ioOut ++ [(p, v)] }

/-! ### The access primitives (R70, R71, R75) -/

/-- The conditions on a whole access that come before its bytes: paging (R66) and the 64 KB block (R75). DESIGN CHOICE,
log 10: R70, R71 and R75 do not order SegmentWrap against R65's checks of the bytes; here it comes before all of them but
paging. -/
def blockCheck (cr0 : BitVec 24) (lin : Linear) (n : Nat) : Run Unit :=
  if cr0Pg cr0 then .error (.refuse .pagingUnmodelled)
  else if 0xFFFF < lin.toNat % 0x10000 + n - 1 then .error (.refuse (.segmentWrap lin n))
  else .ok ()

/-- The n bytes from a linear address on, each checked and read in ascending order (R70). -/
def readBytes (cr0 : BitVec 24) (k : Access) : Nat → Linear → State → Run (List Byte × State)
  | 0, _, s => .ok ([], s)
  | n + 1, lin, s => do
    let pl ← checkByte s cr0 k lin
    let (b, s1) ← s.readPlace pl
    let (bs, s2) ← readBytes cr0 k n (lin + 1) s1
    .ok (b :: bs, s2)

/-- The places of the n bytes from a linear address on, all checked (R71). -/
def checkBytes (s : State) (cr0 : BitVec 24) (k : Access) : Nat → Linear → Run (List Place)
  | 0, _ => .ok []
  | n + 1, lin => do
    let pl ← checkByte s cr0 k lin
    let pls ← checkBytes s cr0 k n (lin + 1)
    .ok (pl :: pls)

/-- Store bytes at checked places, in order. -/
def State.writePlaces (s : State) : List (Place × Byte) → State
  | [] => s
  | (pl, v) :: rest => (s.writePlace pl v).writePlaces rest

/-- `MemRead(lin, n)` (R70): the value, and the state, which a read changes only by drawing from ports. -/
def memRead (cr0 : BitVec 24) (lin : Linear) (n : Nat) (s : State) : Run (Value × State) := do
  blockCheck cr0 lin n
  let (bs, s1) ← readBytes cr0 .read n lin s
  .ok (BitVec.ofNat 64 (s.cfg.byteOrder.natOfBytes bs), s1)

/-- `MemWrite(lin, n, v)` (R71): every byte is checked before one is stored, in ascending address order (log 10). -/
def memWrite (cr0 : BitVec 24) (lin : Linear) (n : Nat) (v : Value) (s : State) : Run State := do
  blockCheck cr0 lin n
  let pls ← checkBytes s cr0 .write n lin
  .ok (s.writePlaces (pls.zip (s.cfg.byteOrder.bytesOfNat n v.toNat)))

end Sys2Proof.Machine
end

