-- ==== Sys2Proof/Machine/Ops.lean ====
section
/-! DEFINITION. The named operations over state: the outcome of a run, pc advance, the stack primitives
(spec/41_special_instructions.md R120 to R122), the interrupt source, taking an interrupt (spec/60_exceptions.md R138 to
R146), the one exception entry the spec describes, the return a configured entry brings with it (R150; log 12), and the
end and the start of a run. -/
namespace Sys2Proof.Machine

/-- The three outcomes of a step (00_scope.md R9). -/
def outcome : Run State → Host.Outcome State Fault Refusal
  | .ok s => .next s
  | .error (.fault f) => .fault f
  | .error (.refuse r) => .refused r

/-- `pc_next = trunc_24(pc + len)` of an instruction at the pc (10_state.md R26). -/
def pcNext (s : State) (i : Instr) : CodeAddr := s.cells.pc + BitVec.ofNat 24 (i.len s.cfg)

/-! ### The stack -/

/-- `RETADDR_BYTES` as a number. -/
def retAddrCount : RetAddrBytes → Nat
  | .three => 3
  | .four => 4

/-- R120's table: the item's first byte a and the new SP s' of `Push(n, v)` at SP = s, as integers. -/
def pushSlot (dir : StackDir) (empty : Bool) (n : Nat) (s : Int) : Int × Int :=
  match dir, empty with
  | .up, true => (s, s + n)
  | .up, false => (s + 1, s + n)
  | .down, false => (s - n, s - n)
  | .down, true => (s - n + 1, s - n)

/-- R121's table: the item's first byte a and the new SP s' of `Pop(n)` at SP = s, as integers. -/
def popSlot (dir : StackDir) (empty : Bool) (n : Nat) (s : Int) : Int × Int :=
  match dir, empty with
  | .up, true => (s - n, s - n)
  | .up, false => (s - n + 1, s - n)
  | .down, false => (s, s + n)
  | .down, true => (s + 1, s + n)

/-- R122: the new SP of `Release(n)`, as an integer. -/
def releaseSp (dir : StackDir) (n : Nat) (s : Int) : Int :=
  match dir with
  | .up => s - n
  | .down => s + n

/-- An offset within 0 to 0xFFFF. -/
def inStack (x : Int) : Bool := decide (0 ≤ x) && decide (x ≤ 0xFFFF)

/-- The condition under which an n-byte item at a with new SP s' does not wrap (R120, R121). -/
def slotFits (n : Nat) (slot : Int × Int) : Bool := inStack slot.1 && inStack (slot.1 + n - 1) && inStack slot.2

/-- The linear address `Lin(x[SS], a)` of a stack item (R120; 20_memory.md R84). -/
def stackAddr (s : State) (a : Int) : Linear := linear s.cells.ss (BitVec.ofInt 16 a)

/-- `Push(n, v)` (R120). -/
def push (cr0 : BitVec 24) (n : Nat) (v : Value) (s : State) : Run State :=
  let slot := pushSlot s.cfg.stackDir s.cfg.stackEmpty n s.cells.sp.toNat
  if slotFits n slot then do
    let s1 ← memWrite cr0 (stackAddr s slot.1) n v s
    .ok (s1.setSp (BitVec.ofInt 16 slot.2))
  else .error (.refuse .stackWrap)

/-- `Pop(n)` (R121). -/
def pop (cr0 : BitVec 24) (n : Nat) (s : State) : Run (Value × State) :=
  let slot := popSlot s.cfg.stackDir s.cfg.stackEmpty n s.cells.sp.toNat
  if slotFits n slot then do
    let (v, s1) ← memRead cr0 (stackAddr s slot.1) n s
    .ok (v, s1.setSp (BitVec.ofInt 16 slot.2))
  else .error (.refuse .stackWrap)

/-- `Release(n)` (R122). -/
def release (n : Nat) (s : State) : Run State :=
  let sp := releaseSp s.cfg.stackDir n s.cells.sp.toNat
  if inStack sp then .ok (s.setSp (BitVec.ofInt 16 sp)) else .error (.refuse .stackWrap)

/-- Push the values of registers in list order (R126). -/
def pushAll (cr0 : BitVec 24) : List (Reg × Value) → State → Run State
  | [], s => .ok s
  | (r, v) :: rest, s => do
    let s1 ← push cr0 r.bytes v s
    pushAll cr0 rest s1

/-- The values of named registers, all read before any push (R126). -/
def readAll (cr0 : BitVec 24) (s : State) : List Reg → Run (List Value)
  | [] => .ok []
  | r :: rs => do
    let v ← s.readNamed cr0 r
    let vs ← readAll cr0 s rs
    .ok (v :: vs)

/-- Pop registers in the order given, each written as it is popped, all accesses governed by `cr0` (R127, log 13). -/
def popAll (cr0 : BitVec 24) : List Reg → State → Run State
  | [], s => .ok s
  | r :: rs, s => do
    let (v, s1) ← pop cr0 r.bytes s
    let r ← nameReg cr0 r
    popAll cr0 rs (s1.setReg r v)

/-! ### Interrupts -/

/-- The interrupt source's choice for this step: a request lands in the slot if the slot is empty (60_exceptions.md
R140). Log 8. -/
def State.arrive (s : State) : State :=
  match s.irqs with
  | [] => s
  | c :: rest =>
    match s.pending with
    | none => { s with pending := c, irqs := rest }
    | some n => { s with pending := some n, irqs := rest }

/-- The request that is taken before the next instruction, if any: pending, and F.ie = 1 (R142, R146). -/
def State.takeable (s : State) : Option (Fin 8192) := if s.cells.fIe then s.pending else none

/-- The linear address of entry n of the interrupt table, `IDT_BASE + 4 * n` (R141). -/
def idtEntry (cfg : Cfg) (n : Fin 8192) : Linear := cfg.idtBase.setWidth 32 + BitVec.ofNat 32 (4 * n.val)

/-- The condition on every step that is taken: F.v8 = 0 (R153) and CR0.pg = 0 (10_state.md R44). Log 10. -/
def modeCheck (s : State) : Run Unit :=
  if s.cells.fV8 then .error (.refuse .virtualBcg8Unmodelled)
  else if cr0Pg s.cells.cr0 then .error (.refuse .pagingUnmodelled)
  else .ok ()

/-- The value of an expression of interrupt entry or return; a read of memory may draw from ports. DESIGN CHOICE, log 12:
a register is read whether or not CR0 enables its name, for 10_state.md R33 speaks of instructions. -/
def evalEntry (cr0 : BitVec 24) : EntryExpr → State → Run (Value × State)
  | .const v, s => .ok (v, s)
  | .reg r, s => .ok (s.cells.read r, s)
  | .mem addr n, s => do
    let (a, s1) ← evalEntry cr0 addr s
    memRead cr0 (a.setWidth 32) n s1
  | .not a, s => do
    let (x, s1) ← evalEntry cr0 a s
    .ok (~~~x, s1)
  | .and a b, s => do
    let (x, s1) ← evalEntry cr0 a s
    let (y, s2) ← evalEntry cr0 b s1
    .ok (x &&& y, s2)
  | .add a b, s => do
    let (x, s1) ← evalEntry cr0 a s
    let (y, s2) ← evalEntry cr0 b s1
    .ok (x + y, s2)
  | .shr a k, s => do
    let (x, s1) ← evalEntry cr0 a s
    .ok (x >>> k, s1)
  | .eq a b, s => do
    let (x, s1) ← evalEntry cr0 a s
    let (y, s2) ← evalEntry cr0 b s1
    .ok (if x = y then 1 else 0, s2)
  | .ite c a b, s => do
    let (x, s1) ← evalEntry cr0 c s
    if x = 0 then evalEntry cr0 b s1 else evalEntry cr0 a s1

/-- A register set by interrupt entry or return, whether or not CR0 enables its name (log 12). DEDUCED, log 12: a value
for PC with a bit above 23 is refused as RET refuses it, since "code addresses with bits above 23 are refused"
(90_conflicts.md C16). -/
def setEntryReg (r : Reg) (v : Value) (s : State) : Run State :=
  if r = .PC ∧ 2 ^ 24 ≤ v.toNat then .error (.refuse .returnAddressTooWide) else .ok (s.setReg r v)

/-- One action of interrupt entry or return (R144, R150, log 12). -/
def entryAction (cr0 : BitVec 24) : EntryAction → State → Run State
  | .push n e, s => do
    let (v, s1) ← evalEntry cr0 e s
    push cr0 n v s1
  | .pop n r, s => do
    let (v, s1) ← pop cr0 n s
    setEntryReg r v s1
  | .store addr n e, s => do
    let (a, s1) ← evalEntry cr0 addr s
    let (v, s2) ← evalEntry cr0 e s1
    memWrite cr0 (a.setWidth 32) n v s2
  | .set r e, s => do
    let (v, s1) ← evalEntry cr0 e s
    setEntryReg r v s1
  | .when c a, s => do
    let (x, s1) ← evalEntry cr0 c s
    if x = 0 then .ok s1 else entryAction cr0 a s1

/-- Actions in order, all accesses governed by one CR0. -/
def entryActions (cr0 : BitVec 24) : List EntryAction → State → Run State
  | [], s => .ok s
  | a :: rest, s => do
    let s1 ← entryAction cr0 a s
    entryActions cr0 rest s1

/-- `SaveOnEntry()` (R144): refused unless `INT_ENTRY` is configured. -/
def saveOnEntry (cr0 : BitVec 24) (n : Fin 8192) (s : State) : Run State :=
  match s.cfg.intEntry with
  | .refuse => .error (.refuse (.interruptEntryUnmodelled n))
  | .save entry _ => entryActions cr0 entry s

/-- Taking interrupt n (R143): the look-up, the target check, the slot cleared, the save, the jump. -/
def takeInterrupt (n : Fin 8192) (s : State) : Run State := do
  let e := idtEntry s.cfg n
  let cr0 := s.cells.cr0
  let (seg, s1) ← memRead cr0 e 2 s
  let (off, s2) ← memRead cr0 (e + 2) 2 s1
  let t := linear (seg.setWidth 16) (off.setWidth 16)
  if t.extractLsb' 24 8 ≠ 0 then .error (.refuse .interruptTargetTooWide)
  else do
    let s3 ← saveOnEntry cr0 n { s2 with pending := none }
    .ok (s3.setPc (t.setWidth 24))

/-- The pc is at the return point of a configured entry; there is none by default (R150, log 12). -/
def State.atReturnPoint (s : State) : Bool :=
  match s.cfg.intEntry with
  | .refuse => false
  | .save _ ret => s.cells.pc == ret.point

/-- The return that matches the configured entry (R150, log 12). By default no entry is ever made and nothing is to be
undone. -/
def returnFromInterrupt (s : State) : Run State :=
  match s.cfg.intEntry with
  | .refuse => .ok s
  | .save _ ret => entryActions s.cells.cr0 ret.acts s

/-! ### The end of a run and its start -/

/-- R160 with R158: a final state, F.halt = 1 and no interrupt taken: F.ie = 0, or none pending and none to arrive. -/
def State.final (s : State) : Bool :=
  s.cells.fHalt && (!s.cells.fIe || (s.pending.isNone && s.irqs.all Option.isNone))

/-- One register assigned by `LAUNCH`, which gives CR1's read-only bit its value too (10_state.md R51). -/
def launchReg (c : Cells) (a : Reg × Value) : Cells :=
  match a.1 with
  | .CR1 => { c with cr1 := a.2.setWidth 16 }
  | r => c.write r a.2

/-- The launch state of a configuration (10_state.md R51; 70_reset_and_hazards.md R161 to R163): what `LAUNCH` assigns,
the pc at `RESET_PC`, no request pending, and the rest as State.reset has it (log 3, 4, 7). -/
def State.launch (cfg : Cfg) : State :=
  { State.reset with
    cfg := cfg
    cells := { cfg.launch.regs.foldl launchReg (Cells.reset cfg.resetPc) with pc := cfg.resetPc }
    mem := cfg.launch.mem.foldl (fun m a => m.write a.1 a.2) []
    bank := cfg.launch.bank.foldl (fun m a => m.write (bankKey a.1 a.2.1) a.2.2) []
    code := cfg.launch.code }

end Sys2Proof.Machine
end

