-- ==== Sys2Proof/Machine/Operands.lean ====
section
/-! DEFINITION. Arguments to operands, every mode of spec/30_encoding.md R93 to R104, the operand classes of R101, and
MOV's width rules (spec/40_general_instructions.md R114). -/
namespace Sys2Proof.Machine

/-- An operand (30_encoding.md R101): an immediate of w bits (float for mode 0x07), a register, a memory location. -/
inductive Operand where
  | imm (w : Nat) (v : Value) (float : Bool)
  | reg (r : Reg)
  | mem (lin : Linear)
  deriving DecidableEq, Repr

/-- The register a reference names, enabled (R95; 10_state.md R33). -/
def resolve (s : State) : RegRef → Run Reg
  | .named r => nameReg s.cells.cr0 r
  | .unassigned id => .error (.fault (.unknownRegister id))

/-- The value of a register used as a segment or an offset: it must be 16 bits wide (R98). -/
def offset16 (s : State) (ref : RegRef) : Run (BitVec 16) := do
  let r ← resolve s ref
  if r.width = 16 then .ok ((s.cells.read r).setWidth 16) else .error (.fault (.badAddressRegister r))

/-- The address in the register of mode 0x09 (R95): 32 bits a linear address, 16 bits an offset in `DEFAULT_SEG`. -/
def registerAddress (s : State) (ref : RegRef) : Run Linear := do
  let r ← resolve s ref
  if r.width = 32 then .ok ((s.cells.read r).setWidth 32)
  else if r.width = 16 then .ok (linear (s.cells.seg s.cfg.defaultSeg) ((s.cells.read r).setWidth 16))
  else .error (.fault (.badAddressRegister r))

/-- Mode 0x0F (R97): a signed 8-bit offset to `REL_BASE`, modulo 2^24. -/
def relativeTarget (s : State) (next : CodeAddr) (o : BitVec 8) : Linear :=
  let base := match s.cfg.relBase with
    | .next => next
    | .start => s.cells.pc
  (base + o.signExtend 24).setWidth 32

/-- An argument decoded to an operand (R112 step 6), `next` being pc_next. Every register that forms an address is read
here, before the instruction writes anything (R101). -/
def operand (s : State) (next : CodeAddr) : Arg → Run Operand
  | .immByte v => .ok (.imm 8 (v.setWidth 64) false)
  | .immWord v => .ok (.imm 16 (v.setWidth 64) false)
  | .immTbyte v => .ok (.imm 24 (v.setWidth 64) false)
  | .immDword v => .ok (.imm 32 (v.setWidth 64) false)
  | .immQword v => .ok (.imm 64 v false)
  | .immFloat v => .ok (.imm 32 (v.setWidth 64) true)
  | .reg ref => do
    let r ← resolve s ref
    .ok (.reg r)
  | .regAddr ref => do
    let a ← registerAddress s ref
    .ok (.mem a)
  | .near a => .ok (.mem (linear (s.cells.seg s.cfg.defaultSeg) (a.setWidth 16)))
  | .addr a => .ok (.mem (linear (s.cells.seg s.cfg.defaultSeg) a))
  | .long a => .ok (.mem (a.setWidth 32))
  | .far a => .ok (.mem a)
  | .rel o => .ok (.mem (relativeTarget s next o))
  | .segReg rs ro => do
    let seg ← offset16 s rs
    let off ← offset16 s ro
    .ok (.mem (linear seg off))
  | .segImm rs off => do
    let seg ← offset16 s rs
    .ok (.mem (linear seg off))
  | .dsReg ro => do
    let off ← offset16 s ro
    .ok (.mem (linear s.cells.ds off))
  | .dsB => .ok (.mem (linear s.cells.ds (s.cells.bx.setWidth 16)))
  | .addrHL => .ok (.mem s.cells.hl)
  | .bpRel n => .ok (.mem (linear s.cells.ss (s.cells.bp + n)))
  | .regAL => .ok (.reg .AL)
  | .regA => .ok (.reg .A)
  | .regAX => do
    let r ← resolve s (.named .AX)
    .ok (.reg r)
  | .regHL => .ok (.reg .HL)
  | .regBL => .ok (.reg .BL)
  | .regB => .ok (.reg .B)
  | .regBX => do
    let r ← resolve s (.named .BX)
    .ok (.reg r)
  | .regAF => .ok (.reg .AF)
  | .regBF => .ok (.reg .BF)
  | .regCF => .ok (.reg .CF)
  | .regDF => .ok (.reg .DF)

def Operand.isPc : Operand → Bool
  | .reg r => r == .PC
  | _ => false

/-- A float register or the float immediate (40_general_instructions.md R114). -/
def Operand.isFloat : Operand → Bool
  | .reg r => r.isFloat
  | .imm _ _ fl => fl
  | .mem _ => false

/-- An integer register or an integer immediate (R114). -/
def Operand.isInteger : Operand → Bool
  | .reg r => !r.isFloat
  | .imm _ _ fl => !fl
  | .mem _ => false

/-- R114: one of the two is a float register or float immediate and the other an integer register or immediate. -/
def floatIntClash (d s : Operand) : Bool := (d.isFloat && s.isInteger) || (d.isInteger && s.isFloat)

/-- `MoveWidth(d, s)` in bits (R114's table). An immediate of another width than its register is admitted only if it is
narrower and `IMM_EXTEND` extends it. -/
def moveWidth (ext : ImmExtend) (d s : Operand) : Run Nat :=
  match d, s with
  | .reg rd, .reg rs => if rd.width = rs.width then .ok rd.width else .error (.refuse .widthMismatch)
  | .reg rd, .imm wi _ _ =>
    if wi = rd.moveWidth then .ok rd.moveWidth
    else if wi < rd.moveWidth ∧ ext ≠ .refuse then .ok rd.moveWidth
    else .error (.refuse .widthMismatch)
  | .reg rd, .mem _ => .ok rd.moveWidth
  | .mem _, .reg rs => .ok rs.moveWidth
  | .mem _, .imm wi _ _ => .ok wi
  | .mem _, .mem _ => .error (.refuse .noOperandWidth)
  | .imm _ _ _, _ => .error (.fault .writeToImmediate)

/-- An immediate of wi bits as a value of w bits: itself, or extended by `IMM_EXTEND` (R114). -/
def extendImm (ext : ImmExtend) (wi w : Nat) (v : Value) : Value :=
  match ext with
  | .sign => (((v.setWidth wi).signExtend w).setWidth 64)
  | .refuse | .zero => v

/-- `Val(s, w)` (R101). A register of 20 bits reads zero-extended (R102). -/
def Operand.value (s : State) (w : Nat) : Operand → Run (Value × State)
  | .imm wi v _ => .ok (extendImm s.cfg.immExtend wi w v, s)
  | .reg r => .ok (s.cells.read r, s)
  | .mem lin => memRead s.cells.cr0 lin (w / 8) s

/-- The value of a MOV from `sr` to `d` as it is stored: as it is, so that R114's refusal applies, or, where the
configuration has R102's "truncated on load", its low 20 bits if it is a memory value for F (log 14). -/
def loadedValue (fl : FLoad) (d sr : Operand) (v : Value) : Value :=
  match fl, d, sr with
  | .truncate, .reg .F, .mem _ => (v.setWidth 20).setWidth 64
  | _, _, _ => v

/-- `Store(d, w, v)` (R101). F takes the low 20 bits of a 24-bit value whose bits 23 to 20 are zero; otherwise the move
is refused (R114). -/
def Operand.store (s : State) (w : Nat) (v : Value) : Operand → Run State
  | .reg r => if r = .F ∧ 2 ^ 20 ≤ v.toNat then .error (.refuse .widthMismatch) else .ok (s.setReg r v)
  | .mem lin => memWrite s.cells.cr0 lin (w / 8) v s
  | .imm _ _ _ => .error (.fault .writeToImmediate)

end Sys2Proof.Machine
end

