-- ==== Sys2Proof/Machine/General.lean ====
section
/-! DEFINITION. The general instructions MOV and RET (spec/40_general_instructions.md). -/
namespace Sys2Proof.Machine

/-- R114 between two decoded operands: the checks in the pseudocode's order, the copy, the pc. -/
def moveOperands (next : CodeAddr) (d sr : Operand) (s : State) : Run State :=
  if d.isPc || sr.isPc then .error (.refuse .movPc)
  else if floatIntClash d sr then .error (.refuse .floatIntMove)
  else do
    let w ← moveWidth s.cfg.immExtend d sr
    let (v, s1) ← sr.value s w
    let s2 ← d.store s1 w (loadedValue s.cfg.fLoad d sr v)
    .ok (s2.setPc next)

/-- MOV dst, src (R114): an immediate destination faults (30_encoding.md R107), then argument1 and argument2 are decoded
in that order (R103), then the move. -/
def movRun (dst src : Arg) (s : State) : Run State :=
  if dst.mode.isImm then .error (.fault .writeToImmediate)
  else do
    let next := pcNext s (.mov dst src)
    let d ← operand s next dst
    let sr ← operand s next src
    moveOperands next d sr s

/-- MOV (R114). The forms R115 calls inferred: log 23. -/
def execMov (dst src : Arg) (s : State) : Host.Outcome State Fault Refusal := outcome (movRun dst src s)

/-- RET's offset n, zero-extended (R116). -/
def retOffset : RetArg → Nat
  | .none => 0
  | .byte n => n.toNat
  | .word n => n.toNat

/-- The jump of RET to a popped return address (R116). -/
def returnTo (cfg : Cfg) (ra : Value) (s : State) : Run State :=
  if cfg.retaddrBytes = .four ∧ ra.extractLsb' 24 8 ≠ 0 then .error (.refuse .returnAddressTooWide)
  else .ok (s.setPc (ra.setWidth 24))

/-- RET, RET offset (R116). -/
def retRun (off : RetArg) (s : State) : Run State :=
  let n := retOffset off
  let cr0 := s.cells.cr0
  let k := retAddrCount s.cfg.retaddrBytes
  match s.cfg.retOrder with
  | .releaseThenPop => do
    let s1 ← release n s
    let (ra, s2) ← pop cr0 k s1
    returnTo s.cfg ra s2
  | .popThenRelease => do
    let (ra, s1) ← pop cr0 k s
    let s2 ← release n s1
    returnTo s.cfg ra s2

/-- RET (R116). -/
def execRet (off : RetArg) (s : State) : Host.Outcome State Fault Refusal := outcome (retRun off s)

end Sys2Proof.Machine
end

