-- ==== Sys2Proof/Machine/Special.lean ====
section
/-! DEFINITION. The special instructions CALL, PUSHR and POPR (spec/41_special_instructions.md). -/
namespace Sys2Proof.Machine

/-- `Addr(decode(argument1))` of CALL: the target address itself (R123; 30_encoding.md R96, R97). -/
def callTarget (s : State) (next : CodeAddr) : CallTarget → Linear
  | .long a => a.setWidth 32
  | .far a => a
  | .rel o => relativeTarget s next o

/-- R123 for a target address: a target above 24 bits is refused, else pc_next is pushed (log 23) and the pc set. -/
def callTo (next : CodeAddr) (t : Linear) (s : State) : Run State :=
  if t.extractLsb' 24 8 ≠ 0 then .error (.refuse .callTargetTooWide)
  else do
    let s1 ← push s.cells.cr0 (retAddrCount s.cfg.retaddrBytes) (next.setWidth 64) s
    .ok (s1.setPc (t.setWidth 24))

/-- CALL target (R123). -/
def callRun (target : CallTarget) (s : State) : Run State :=
  let next := pcNext s (.call target)
  callTo next (callTarget s next target) s

/-- CALL (R123). -/
def execCall (target : CallTarget) (s : State) : Host.Outcome State Fault Refusal := outcome (callRun target s)

/-- PUSHR (R126): every listed register is read, then all are pushed in list order. -/
def pushrRun (s : State) : Run State :=
  match s.cfg.pushrList with
  | none => .error (.refuse .pushrListUnknown)
  | some rs => do
    let vs ← readAll s.cells.cr0 s rs
    let s1 ← pushAll s.cells.cr0 (rs.zip vs) s
    .ok (s1.setPc (pcNext s .pushr))

/-- PUSHR (R126). -/
def execPushr (s : State) : Host.Outcome State Fault Refusal := outcome (pushrRun s)

/-- POPR (R127): the listed registers are popped in reverse order; a popped CR0 governs the next instruction, not the
remaining pops. -/
def poprRun (s : State) : Run State :=
  match s.cfg.pushrList with
  | none => .error (.refuse .pushrListUnknown)
  | some rs => do
    let s1 ← popAll s.cells.cr0 rs.reverse s
    .ok (s1.setPc (pcNext s .popr))

/-- POPR (R127). -/
def execPopr (s : State) : Host.Outcome State Fault Refusal := outcome (poprRun s)

end Sys2Proof.Machine
end

