-- ==== Sys2Proof/Machine/Dispatch.lean ====
section
/-! DEFINITION. One arm per instruction of spec/opcode_table.json. -/
namespace Sys2Proof.Machine

def exec (i : Instr) (s : State) : Host.Outcome State Fault Refusal :=
  match i with
  | .mov dst src => Sys2Proof.Machine.execMov dst src s
  | .ret offset => Sys2Proof.Machine.execRet offset s
  | .call target => Sys2Proof.Machine.execCall target s
  | .pushr => Sys2Proof.Machine.execPushr s
  | .popr => Sys2Proof.Machine.execPopr s

end Sys2Proof.Machine
end

