-- ==== Sys2Proof/Machine/Fetch.lean ====
section
/-! DEFINITION. Fetching an instruction's bytes at the pc and decoding them (spec/30_encoding.md R112; spec/10_state.md
R25, R27; spec/20_memory.md R75, R82), what the next step does (spec/60_exceptions.md R146, R158), and placing an
instruction where the next step fetches it. -/
namespace Sys2Proof.Machine

/-- A decoder's rejection as the step's end (60_exceptions.md R148, R149). -/
def stopOfReject : DecodeReject → Stop
  | .reservedArgMode c => .fault (.reservedArgMode c)
  | .unknownOpcode x => .refuse (.unknownOpcode x)
  | .operandForm m a b => .refuse (.operandForm m a b)
  | .writeToImmediate => .fault .writeToImmediate

/-- The n bytes of an instruction from the pc on, or of its header, do not pass 0xFF_FFFF (10_state.md R27) and lie in
one 64 KB block (20_memory.md R75). Log 20. -/
def spanCheck (pc : CodeAddr) (n : Nat) : Run Unit :=
  if 0x1000000 < pc.toNat + n then .error (.refuse .pcWrap)
  else if 0xFFFF < pc.toNat % 0x10000 + n - 1 then .error (.refuse (.segmentWrap (pc.setWidth 32) n))
  else .ok ()

/-- The linear address of the code byte at an offset from the pc. -/
def codeLinear (s : State) (offset : Nat) : Linear := s.cells.pc.setWidth 32 + BitVec.ofNat 32 offset

/-- The n code bytes at an offset from the pc, each fetched by 20_memory.md R65. A fetch changes no state: it is refused
at the I/O ports, the one place where a read does (R68). -/
def fetchBytes (s : State) (offset n : Nat) : Run (List Byte) := do
  let (bs, _) ← readBytes s.cells.cr0 .fetch n (codeLinear s offset) s
  .ok bs

/-- One code byte at an offset from the pc. -/
def fetchByte (s : State) (offset : Nat) : Run Byte := do
  let pl ← checkByte s s.cells.cr0 .fetch (codeLinear s offset)
  let (b, _) ← s.readPlace pl
  .ok b

/-- The instruction at the pc: R112 steps 1 to 5, in that order. DESIGN CHOICE, log 20: PcWrap and SegmentWrap of the
three header bytes are checked before the first of them is (step 1 names the checks of 20_memory.md R65 only), and those
of the whole instruction before its first payload byte is. -/
def fetchInstr (s : State) : Run Instr := do
  modeCheck s
  spanCheck s.cells.pc 3
  let x ← fetchByte s 0
  let a ← fetchByte s 1
  let b ← fetchByte s 2
  match headerModes a b with
  | .error r => .error (stopOfReject r)
  | .ok (ma, mb) => do
    let n := ma.plen s.cfg + mb.plen s.cfg
    spanCheck s.cells.pc (3 + n)
    let p ← fetchBytes s 3 n
    match decodePayload s.cfg x ma mb p with
    | .error r => .error (stopOfReject r)
    | .ok i => .ok i

/-- What a step does (60_exceptions.md R146, R158, R150): takes a request, idles with F.halt = 1, returns from an
interrupt, or runs an instruction. -/
inductive Turn where
  | interrupt (n : Fin 8192)
  | idle
  | interruptReturn
  | instruction
  deriving DecidableEq, Repr

/-- A pending, enabled request comes before the next fetch; a halted core executes no instruction; at the return point
of a configured entry the return takes the place of an instruction (log 12). -/
def State.turn (s : State) : Turn :=
  match s.takeable with
  | some n => .interrupt n
  | none => if s.cells.fHalt then .idle else if s.atReturnPoint then .interruptReturn else .instruction

/-- Taking a request as a step of its own. -/
def interruptStep (n : Fin 8192) (s : State) : Run State := do
  modeCheck s
  takeInterrupt n s

/-- The return from an interrupt as a step of its own. -/
def interruptReturnStep (s : State) : Run State := do
  modeCheck s
  returnFromInterrupt s

/-- The place behind a physical address, without checks: the bank that MB selects for the banked window (R67), the store
otherwise. -/
def loadPlace (s : State) (p : Nat) : Place :=
  match regionOf p with
  | .banked => .bank (mbEff s.cells.cr0 s.cells.mb).toNat (p - 0x080000)
  | _ => .ram p

/-- Code bytes placed from a physical address on. -/
def loadBytes (s : State) (p : Nat) : List Byte → State
  | [] => s
  | b :: bs => loadBytes (s.writePlace (loadPlace s p) b) (p + 1) bs

/-- Bytes placed at the pc, their addresses joined to the code set. Log 7. -/
def loadAtPc (s : State) (bs : List Byte) : State :=
  let p := s.cells.pc.toNat % 2 ^ addressWidth s.cells.cr0
  let s1 := loadBytes s p bs
  { s1 with code := ⟨p, p + bs.length - 1⟩ :: s1.code }

end Sys2Proof.Machine
end

