-- ==== Sys2Proof/Machine/Step.lean ====
section
/-! DEFINITION. One step of the machine (spec/60_exceptions.md R146; spec/30_encoding.md R112; spec/70_reset_and_hazards.md
R167, R168), and an instruction placed where the next step fetches it. -/
namespace Sys2Proof.Machine

/-- One step: the interrupt source's choice lands (R140), then a pending enabled request is taken, or a halted core
idles, or a handler's return is made, or the instruction at the pc is fetched, decoded and executed to completion. -/
def step (s : State) : Host.Outcome State Fault Refusal :=
  let s1 := s.arrive
  match s1.turn with
  | .interrupt n => outcome (interruptStep n s1)
  | .idle => .next s1
  | .interruptReturn => outcome (interruptReturnStep s1)
  | .instruction =>
    match fetchInstr s1 with
    | .error e => outcome (.error e)
    | .ok i => exec i s1

/-- A word of the opcode table, with the zero bytes its payload needs, stored at the pc and in the code set. Log 7, 18. -/
def State.withFetchWord (s : State) (nbits w : Nat) : State := loadAtPc s (tableBytes s.cfg nbits w)

end Sys2Proof.Machine
end

