-- ==== Sys2Proof/WellFormed.lean ====
section
/-! DEFINITION. When an instruction can be encoded under a configuration: the destination is no immediate
(spec/30_encoding.md R107), register references have identifiers of `REGID_BYTES` bytes (R92, R95), and the numbers of
modes 0x11 and 0x1F fit their payloads (R98, R104). And when a configuration's opcodes are what R105 asks for. -/
namespace Sys2Proof

/-- `OPC` is injective: the five bytes are "pairwise different" (30_encoding.md R105; 00_scope.md R4). -/
def Cfg.opcWf (cfg : Cfg) : Bool :=
  decide ([cfg.opc.mov, cfg.opc.ret, cfg.opc.call, cfg.opc.pushr, cfg.opc.popr].Nodup)

/-- `REGNUM` is an injective map (00_scope.md R4): no identifier and no register stands twice. -/
def Cfg.regnumWf (cfg : Cfg) : Bool :=
  decide ((cfg.regnum.map (·.1)).Nodup ∧ (cfg.regnum.map (·.2)).Nodup)

/-- An identifier fits the payload that carries it. -/
def Cfg.idFits (cfg : Cfg) (id : Nat) : Bool := decide (id < 256 ^ cfg.regidBytes)

/-- A reference that some identifier of `REGID_BYTES` bytes stands for. -/
def RegRef.wf (cfg : Cfg) : RegRef → Bool
  | .named r =>
    match cfg.idOf r with
    | some id => cfg.idFits id && (cfg.regOf id == some r)
    | none => false
  | .unassigned id => cfg.idFits id && (cfg.regOf id == none)

/-- An argument that can be encoded. -/
def Arg.wf (cfg : Cfg) : Arg → Bool
  | .reg r | .regAddr r | .dsReg r => r.wf cfg
  | .segReg rs ro => rs.wf cfg && ro.wf cfg
  | .segImm rs off => rs.wf cfg && decide (off.toNat < 256 ^ cfg.segimmBytes)
  | .bpRel n => (n.signExtend (8 * cfg.bprelBytes)).signExtend 16 == n
  | .immByte _ | .immWord _ | .immTbyte _ | .immDword _ | .immQword _ | .immFloat _ => true
  | .near _ | .addr _ | .long _ | .far _ | .rel _ => true
  | .dsB | .regAL | .regA | .regAX | .regHL | .addrHL | .regBL | .regB | .regBX => true
  | .regAF | .regBF | .regCF | .regDF => true

/-- A well-formed instruction under a configuration. -/
def Instr.wf (cfg : Cfg) : Instr → Bool
  | .mov d s => !d.mode.isImm && d.wf cfg && s.wf cfg
  | .ret _ | .call _ | .pushr | .popr => true

end Sys2Proof
end

