-- ==== Sys2Proof/Safety.lean ====
section
/-! DEFINITION. Runs and what counts as a safe run (spec/60_exceptions.md R147; spec/00_scope.md R9),
and when a configuration is one the spec admits (spec/00_scope.md R4). -/
namespace Sys2Proof.Machine

/-- One step that is neither a fault nor a refusal. -/
def Steps (s t : State) : Prop := step s = .next t

/-- States that a run of such steps leads to. -/
inductive Reaches (s : State) : State → Prop where
  | refl : Reaches s s
  | step {t u : State} : Reaches s t → Steps t u → Reaches s u

/-- A safe state: every state a run reaches can go on, so no run from it ends in a fault or a refusal (R9). -/
def Safe (s : State) : Prop := ∀ t, Reaches s t → ∃ u, Steps t u

/-- A configuration within R4's types and constraints: injective `OPC` and `REGNUM`, identifiers that fit, numbers of
modes 0x11 and 0x1F no wider than the 16 bits they are extended to (log 16), a `PUSHR_LIST` as R126 asks. -/
def cfgWf (cfg : Cfg) : Bool :=
  cfg.opcWf && cfg.regnumWf && (cfg.regnum.all fun e => cfg.idFits e.1) && decide (cfg.segimmBytes ≤ 2) &&
    decide (cfg.bprelBytes ≤ 2) && (match cfg.pushrList with | none => true | some rs => pushrListWf rs)

end Sys2Proof.Machine
end

