-- ==== Sys2Proof/Certificates/Slice0/Obligations.lean ====
section
/-! DEFINITION. The statements for the provers, from the numbered rules of spec/, each over every configuration: `s.cfg`
is as arbitrary as the rest of s (log 1). First the vocabulary of the statements, then the statements. -/
namespace Sys2Proof.Claims
open Sys2Proof.Machine

/-- The byte that an access of kind k finds at a linear address: checked by 20_memory.md R65, then read from its store;
none if the check stops, the byte holds no value, or it is a port. -/
def byteFor (s : State) (cr0 : BitVec 24) (k : Access) (lin : Linear) : Option Byte :=
  match checkByte s cr0 k lin with
  | .ok pl => s.byteAt pl
  | .error _ => none

/-- A byte access of kind k at a linear address is not stopped: its check passes, and it finds a value or a port. -/
def passes (s : State) (cr0 : BitVec 24) (k : Access) (lin : Linear) : Bool :=
  match checkByte s cr0 k lin with
  | .ok (.port _) => true
  | .ok pl => (s.byteAt pl).isSome
  | .error _ => false

/-- The n bytes from a linear address on lie in one 64 KB block (20_memory.md R70, R75). -/
abbrev InBlock (lin : Linear) (n : Nat) : Prop := lin.toNat % 0x10000 + n ≤ 0x10000

/-- The bytes `bs` stand at the linear addresses from lin on and can be read there, no one of them a port. -/
abbrev Readable (s : State) (cr0 : BitVec 24) (k : Access) (lin : Linear) (bs : List Byte) : Prop :=
  cr0Pg cr0 = false ∧ InBlock lin bs.length ∧
    ∀ i, i < bs.length → byteFor s cr0 k (lin + BitVec.ofNat 32 i) = bs[i]?

/-- A byte may be stored at a linear address, and it is no port. -/
def storable (s : State) (cr0 : BitVec 24) (lin : Linear) : Bool :=
  match checkByte s cr0 .write lin with
  | .ok (.port _) => false
  | .ok _ => true
  | .error _ => false

/-- The n bytes from a linear address on may be stored to. -/
abbrev Storable (s : State) (cr0 : BitVec 24) (lin : Linear) (n : Nat) : Prop :=
  cr0Pg cr0 = false ∧ InBlock lin n ∧ ∀ i, i < n → storable s cr0 (lin + BitVec.ofNat 32 i) = true

/-- The byte at the i-th of n ascending addresses of a value v of n bytes (20_memory.md R71). -/
def storedByte (o : ByteOrder) (n : Nat) (v : Value) (i : Nat) : Byte :=
  match o with
  | .little => v.extractLsb' (8 * i) 8
  | .big => v.extractLsb' (8 * (n - 1 - i)) 8

/-- The value v is what the bytes `bs`, in ascending address order, stand for (20_memory.md R70). -/
abbrev Carries (o : ByteOrder) (v : Value) (bs : List Byte) : Prop :=
  v.toNat < 2 ^ (8 * bs.length) ∧ ∀ i, i < bs.length → bs[i]? = some (storedByte o bs.length v i)

/-- From s to t, every byte of memory is unchanged but for the n bytes at lin. -/
def OnlyBytesAt (s t : State) (cr0 : BitVec 24) (lin : Linear) (n : Nat) : Prop :=
  ∀ pl : Place, pl.wf = true → (∀ i, i < n → checkByte s cr0 .write (lin + BitVec.ofNat 32 i) ≠ .ok pl) →
    t.byteAt pl = s.byteAt pl

/-- In t, the n bytes at lin (addressed as in s) hold the value v. -/
def HoldsAt (s t : State) (cr0 : BitVec 24) (lin : Linear) (n : Nat) (v : Value) : Prop :=
  ∀ i, i < n → ∀ pl, checkByte s cr0 .write (lin + BitVec.ofNat 32 i) = .ok pl →
    t.byteAt pl = some (storedByte s.cfg.byteOrder n v i)

/-- Everything of the state but its cells and its bytes of memory is unchanged. -/
def RestSame (s t : State) : Prop :=
  t.cfg = s.cfg ∧ t.pending = s.pending ∧ t.code = s.code ∧ t.irqs = s.irqs ∧ t.ioDraws = s.ioDraws ∧
    t.ioOut = s.ioOut

/-- All of memory and everything else but the cells is unchanged. -/
def OnlyCells (s t : State) : Prop := RestSame s t ∧ t.mem = s.mem ∧ t.bank = s.bank

/-- The item's first byte and the new SP of a push of n bytes in state s (41_special_instructions.md R120). -/
abbrev pushSlotOf (s : State) (n : Nat) : Int × Int := pushSlot s.cfg.stackDir s.cfg.stackEmpty n s.cells.sp.toNat

/-- The item's first byte and the new SP of a pop of n bytes in state s (R121). -/
abbrev popSlotOf (s : State) (n : Nat) : Int × Int := popSlot s.cfg.stackDir s.cfg.stackEmpty n s.cells.sp.toNat

/-- The number of bytes of the first j registers of a list. -/
def bytesBefore (rs : List Reg) (j : Nat) : Nat := ((rs.take j).map Reg.bytes).sum

/-- SP before the j-th push of PUSHR's list, from SP = sp (R120, R126). -/
def spBefore (dir : StackDir) (rs : List Reg) (j : Nat) (sp : Int) : Int :=
  match dir with
  | .up => sp + bytesBefore rs j
  | .down => sp - bytesBefore rs j

/-- The slot of the j-th push of PUSHR's list in state s. -/
abbrev itemSlot (s : State) (rs : List Reg) (j n : Nat) : Int × Int :=
  pushSlot s.cfg.stackDir s.cfg.stackEmpty n (spBefore s.cfg.stackDir rs j s.cells.sp.toNat)

/-- The offsets in the stack segment that pushes write while SP goes from `before` to `after` (R120's table). -/
def pushedOffset (dir : StackDir) (empty : Bool) (before after off : Nat) : Prop :=
  match dir, empty with
  | .up, true => before ≤ off ∧ off < after
  | .up, false => before < off ∧ off ≤ after
  | .down, false => after ≤ off ∧ off < before
  | .down, true => after < off ∧ off ≤ before

/-- POPR's loop (R127), as the bytes in memory say it: popping the registers in the order given, each from the item the
stack pointer of its turn addresses, each written as it is popped, leads from s to t. -/
def PopsTo (cr0 : BitVec 24) : List Reg → State → State → Prop
  | [], s, t => t = s
  | r :: rs, s, t => ∃ bs v, bs.length = r.bytes ∧ slotFits r.bytes (popSlotOf s r.bytes) = true ∧
      Readable s cr0 .read (stackAddr s (popSlotOf s r.bytes).1) bs ∧ Carries s.cfg.byteOrder v bs ∧
      r.enabled cr0 = true ∧ PopsTo cr0 rs ((s.setSp (BitVec.ofInt 16 (popSlotOf s r.bytes).2)).setReg r v) t

/-- Nothing but an instruction happens in the next step, and its mode is one the spec gives a meaning (60_exceptions.md
R146, R153, R158; 10_state.md R44); the pc is no handler's return point (log 12). -/
abbrev RunsInstruction (s : State) : Prop :=
  s.takeable = none ∧ s.cells.fHalt = false ∧ s.atReturnPoint = false ∧ s.cells.fV8 = false ∧
    cr0Pg s.cells.cr0 = false

/-- How many bytes the instruction at whose start `bs` stands has, as far as `bs` tells: the header's 3 until it is there
whole, then those its mode bytes ask for (30_encoding.md R106, R112). -/
def neededBytes (cfg : Cfg) : List Byte → Nat
  | _ :: a :: b :: _ => 3 + headerPayloadLen cfg a b
  | _ => 3

/-- x is what an immediate of wi bits and value v is as a value of w bits: itself at its own width, extended as
`IMM_EXTEND` says below it (40_general_instructions.md R114). -/
abbrev ImmGives (ext : ImmExtend) (wi w : Nat) (v x : Value) : Prop :=
  wi = w ∧ x = v ∨ wi < w ∧ ext = .zero ∧ x = v ∨
    wi < w ∧ ext = .sign ∧ x = BitVec.ofNat 64 (if v.getLsbD (wi - 1) then v.toNat + (2 ^ w - 2 ^ wi) else v.toNat)

/-- The argument names the register r, and names no register before it that could stop the step first. -/
abbrev Names (cr0 : BitVec 24) (r : Reg) (a : Arg) : Prop :=
  a = .reg (.named r) ∨ a = .regAddr (.named r) ∨ a = .dsReg (.named r) ∨ (∃ off, a = .segImm (.named r) off) ∨
    (∃ ro, a = .segReg (.named r) ro) ∨
    (∃ q : Reg, q.enabled cr0 = true ∧ q.width = 16 ∧ a = .segReg (.named q) (.named r)) ∨
    a = .regAX ∧ r = .AX ∨ a = .regBX ∧ r = .BX

/-- The code of an argument's mode and the length of its payload, from the tables of 30_encoding.md R88 and R92. -/
def argRow (cfg : Cfg) : Arg → Byte × Nat
  | .immByte _ => (0x00, 1)
  | .immWord _ => (0x01, 2)
  | .immTbyte _ => (0x02, 3)
  | .immDword _ => (0x03, 4)
  | .immQword _ => (0x06, 8)
  | .immFloat _ => (0x07, 4)
  | .reg _ => (0x08, cfg.regidBytes)
  | .regAddr _ => (0x09, cfg.regidBytes)
  | .near _ => (0x0B, 1)
  | .addr _ => (0x0C, 2)
  | .long _ => (0x0D, 3)
  | .far _ => (0x0E, 4)
  | .rel _ => (0x0F, 1)
  | .segReg _ _ => (0x10, 2 * cfg.regidBytes)
  | .segImm _ _ => (0x11, cfg.regidBytes + cfg.segimmBytes)
  | .dsReg _ => (0x12, cfg.regidBytes)
  | .dsB => (0x13, 0)
  | .regAL => (0x1A, 0)
  | .regA => (0x1B, 0)
  | .regAX => (0x1C, 0)
  | .regHL => (0x1D, 0)
  | .addrHL => (0x1E, 0)
  | .bpRel _ => (0x1F, cfg.bprelBytes)
  | .regBL => (0x20, 0)
  | .regB => (0x21, 0)
  | .regBX => (0x22, 0)
  | .regAF => (0xF0, 0)
  | .regBF => (0xF1, 0)
  | .regCF => (0xF2, 0)
  | .regDF => (0xF3, 0)

/-- The spec's example of a configured save (60_exceptions.md R144: "push F as 3 bytes, push the pc as `RETADDR_BYTES`
bytes, clear `F.ie`"), and the return point pushed on top for the handler's RET (log 12). -/
def exampleEntry (cfg : Cfg) (point : CodeAddr) : List EntryAction :=
  [.push 3 (.reg .F), .push (retAddrCount cfg.retaddrBytes) (.reg .PC), .set .F (.and (.reg .F) (.const 0xFFFBF)),
    .push (retAddrCount cfg.retaddrBytes) (.const (point.setWidth 64))]

/-- The return that matches it (R150, log 12). -/
def exampleReturn (cfg : Cfg) (point : CodeAddr) : IntReturn :=
  ⟨point, [.pop (retAddrCount cfg.retaddrBytes) .PC, .pop 3 .F]⟩

end Sys2Proof.Claims

open Sys2Proof Sys2Proof.Machine Sys2Proof.Claims

/-! ### Addresses and the memory map (20_memory.md) -/

/-- R54: `Lin(seg, off) = seg * 0x1_0000 + off`, and the source's example. -/
def Obligations.LinearAddressIsSegmentThenOffset : Prop :=
  (∀ seg off : BitVec 16, (linear seg off).toNat = seg.toNat * 0x10000 + off.toNat) ∧
    linear 0x0080 0x1000 = 0x00801000

/-- R57: AW = 24 if CR0.xm (with CR0.a20 too: the spec's decision D4), 20 if only CR0.a20, 16 otherwise. -/
def Obligations.AddressWidthFromCr0 : Prop :=
  ∀ cr0 : BitVec 24,
    (cr0.getLsbD 4 = true → addressWidth cr0 = 24) ∧
    (cr0.getLsbD 4 = false → cr0.getLsbD 0 = true → addressWidth cr0 = 20) ∧
    (cr0.getLsbD 4 = false → cr0.getLsbD 0 = false → addressWidth cr0 = 16)

/-- R58: the physical address is the linear one below 2^AW, and at or above it what `ADDR_OVERFLOW` says (the spec's
decision D5). -/
def Obligations.PhysicalAddressWithinWidth : Prop :=
  ∀ (cr0 : BitVec 24) (lin : Linear),
    (lin.toNat < 2 ^ addressWidth cr0 → ∀ ov, phys ov cr0 lin = .ok lin.toNat) ∧
    (2 ^ addressWidth cr0 ≤ lin.toNat →
      phys .refuse cr0 lin = .error (.refuse (.addressBeyondWidth lin)) ∧
      phys .wrap cr0 lin = .ok (lin.toNat % 2 ^ addressWidth cr0))

/-- R63: a read, write or fetch of a byte of a disputed range is refused (the spec's decision D10). Paging is checked
before it (R65). -/
def Obligations.DisputedRangesRefused : Prop :=
  ∀ (s : State) (cr0 : BitVec 24) (k : Access) (lin : Linear) (p : Nat), cr0Pg cr0 = false →
    phys s.cfg.addrOverflow cr0 lin = .ok p →
    (0x010000 ≤ p ∧ p ≤ 0x0101FF ∨ 0x038000 ≤ p ∧ p ≤ 0x0381FF) →
    checkByte s cr0 k lin = .error (.refuse (.disputedRegion p))

/-- R62, R65, R82 (log 6): the plain regions (RAM rows 2, 3 and 7 and VRAM, less the disputed range). A read lands in the store
in every mode; a write does outside the code set and is refused inside it; a fetch does inside it and is refused
outside. -/
def Obligations.PlainRegionsAreMemory : Prop :=
  ∀ (s : State) (cr0 : BitVec 24) (lin : Linear) (p : Nat), cr0Pg cr0 = false →
    phys s.cfg.addrOverflow cr0 lin = .ok p →
    (0x000200 ≤ p ∧ p ≤ 0x00FFFF ∨ 0x010200 ≤ p ∧ p ≤ 0x037FFF ∨ 0x040000 ≤ p ∧ p ≤ 0x07FFFF ∨
      0x100000 ≤ p ∧ p ≤ 0xFFFFFF) →
    checkByte s cr0 .read lin = .ok (.ram p) ∧
    checkByte s cr0 .write lin = (if s.inCode p then .error (.refuse (.writeToCode p)) else .ok (.ram p)) ∧
    checkByte s cr0 .fetch lin = (if s.inCode p then .ok (.ram p) else .error (.refuse (.fetchOutsideCode p)))

/-- R64, R69: with CR0.pm = 1 every access to the I/O ports and to the character set (less its disputed part, R65)
faults; with CR0.pm = 0 the character set reads as plain memory and refuses a write. -/
def Obligations.PortsAndCharacterSetAreProtected : Prop :=
  ∀ (s : State) (cr0 : BitVec 24) (lin : Linear) (p : Nat), cr0Pg cr0 = false →
    phys s.cfg.addrOverflow cr0 lin = .ok p →
    (cr0.getLsbD 15 = true → (p ≤ 0x0001FF ∨ 0x038200 ≤ p ∧ p ≤ 0x03FFFF) →
      ∀ k, checkByte s cr0 k lin = .error (.fault (.protectedAccess p k))) ∧
    (cr0.getLsbD 15 = false → 0x038200 ≤ p ∧ p ≤ 0x03FFFF →
      checkByte s cr0 .read lin = .ok (.ram p) ∧ checkByte s cr0 .write lin = .error (.refuse .charsetWrite))

/-- R67, R31: the banked window is refused by default; under `banked` an access the code set allows (R82) is of
`Bank[MB_eff][p - 0x08_0000]`, MB_eff the low 4 bits of MB while CR0.xm = 0 and all 8 bits while it is 1. -/
def Obligations.BankedWindowSelectsBank : Prop :=
  ∀ (s : State) (cr0 : BitVec 24) (k : Access) (lin : Linear) (p : Nat), cr0Pg cr0 = false →
    phys s.cfg.addrOverflow cr0 lin = .ok p → 0x080000 ≤ p ∧ p ≤ 0x0FFFFF →
    (s.cfg.bankModel = .refuse → checkByte s cr0 k lin = .error (.refuse .bankedUnmodelled)) ∧
    (s.cfg.bankModel = .banked →
      (k = .read ∨ k = .write ∧ s.inCode p = false ∨ k = .fetch ∧ s.inCode p = true) →
      checkByte s cr0 k lin
        = .ok (.bank (if cr0.getLsbD 4 then s.cells.mb.toNat else s.cells.mb.toNat % 16) (p - 0x080000)))

/-- R68 with CR0.pm = 0: an access to a port is refused by default; under `draw` a byte read is a free byte that no
read before it drew (log 11) and a byte written, also at an address of the code set (log 6), is an output event that
stores nothing; a fetch is refused in both. -/
def Obligations.IoPortsDrawAndEmit : Prop :=
  ∀ (s : State) (cr0 : BitVec 24) (lin : Linear) (v : Value), cr0Pg cr0 = false → cr0Pm cr0 = false →
    lin.toNat ≤ 0x1FF →
    checkByte s cr0 .fetch lin = .error (.refuse (.ioUnmodelled lin.toNat)) ∧
    (s.cfg.ioModel = .refuse → memRead cr0 lin 1 s = .error (.refuse (.ioUnmodelled lin.toNat)) ∧
      memWrite cr0 lin 1 v s = .error (.refuse (.ioUnmodelled lin.toNat))) ∧
    (s.cfg.ioModel = .draw →
      memRead cr0 lin 1 s = .ok ((Config.ioByte s.ioDraws).setWidth 64, { s with ioDraws := s.ioDraws + 1 }) ∧
      memWrite cr0 lin 1 v s = .ok { s with ioOut := s.ioOut ++ [(lin.toNat, v.setWidth 8)] })

/-- R66: with CR0.pg = 1 every memory access, fetch included, is refused (the spec's decision D12). -/
def Obligations.PagingRefusesEveryAccess : Prop :=
  ∀ (s : State) (cr0 : BitVec 24), cr0.getLsbD 19 = true →
    (∀ k lin, checkByte s cr0 k lin = .error (.refuse .pagingUnmodelled)) ∧
    (∀ lin n, memRead cr0 lin n s = .error (.refuse .pagingUnmodelled)) ∧
    (∀ lin n v, memWrite cr0 lin n v s = .error (.refuse .pagingUnmodelled))

/-- R75: an access that crosses a 64 KB boundary is refused, whatever its bytes (log 10: before any of them is checked). -/
def Obligations.SegmentWrapRefused : Prop :=
  ∀ (s : State) (cr0 : BitVec 24) (lin : Linear) (n : Nat), cr0Pg cr0 = false → ¬ InBlock lin n →
    memRead cr0 lin n s = .error (.refuse (.segmentWrap lin n)) ∧
    ∀ v, memWrite cr0 lin n v s = .error (.refuse (.segmentWrap lin n))

/-- R70, R72: a read of up to 8 bytes gives the value the bytes carry in `BYTE_ORDER`, and changes nothing. The first byte
that is stopped stops the whole read: with its check's fault or refusal (R70), or, if it holds no value, with the fault
ReadOfUnwritten of its address (R52, R69). -/
def Obligations.MemReadGivesTheBytes : Prop :=
  (∀ (s : State) (cr0 : BitVec 24) (lin : Linear) (bs : List Byte) (v : Value), bs.length ≤ 8 →
    Readable s cr0 .read lin bs → Carries s.cfg.byteOrder v bs → memRead cr0 lin bs.length s = .ok (v, s)) ∧
  (∀ (s : State) (cr0 : BitVec 24) (lin : Linear) (n i : Nat) (pl : Place), cr0Pg cr0 = false → InBlock lin n →
    i < n → (∀ j, j < i → passes s cr0 .read (lin + BitVec.ofNat 32 j) = true) →
    checkByte s cr0 .read (lin + BitVec.ofNat 32 i) = .ok pl → (∀ p, pl ≠ .port p) → s.byteAt pl = none →
    memRead cr0 lin n s = .error (.fault (.readOfUnwritten pl.addr))) ∧
  (∀ (s : State) (cr0 : BitVec 24) (lin : Linear) (n i : Nat) (e : Stop), cr0Pg cr0 = false → InBlock lin n →
    i < n → (∀ j, j < i → passes s cr0 .read (lin + BitVec.ofNat 32 j) = true) →
    checkByte s cr0 .read (lin + BitVec.ofNat 32 i) = .error e → memRead cr0 lin n s = .error e)

/-- R71: a write stores each byte of the value at its address in `BYTE_ORDER`, every other byte of memory and all
registers unchanged. If a byte's check fails, the write ends in that fault or refusal and stores nothing, the lowest
address first (log 10). -/
def Obligations.MemWriteStoresTheBytes : Prop :=
  (∀ (s : State) (cr0 : BitVec 24) (lin : Linear) (n : Nat) (v : Value), n ≤ 8 → Storable s cr0 lin n →
    ∃ t, memWrite cr0 lin n v s = .ok t ∧ HoldsAt s t cr0 lin n v ∧ OnlyBytesAt s t cr0 lin n ∧ t.cells = s.cells ∧
      RestSame s t) ∧
  (∀ (s : State) (cr0 : BitVec 24) (lin : Linear) (n i : Nat) (v : Value) (e : Stop), cr0Pg cr0 = false →
    InBlock lin n → i < n → (∀ j, j < i → ∃ pl, checkByte s cr0 .write (lin + BitVec.ofNat 32 j) = .ok pl) →
    checkByte s cr0 .write (lin + BitVec.ofNat 32 i) = .error e → memWrite cr0 lin n v s = .error e)

/-- R70, R71: a read after a write of the same bytes gives the value written, in every byte order. -/
def Obligations.ReadAfterWriteGivesTheValue : Prop :=
  ∀ (s t : State) (cr0 : BitVec 24) (lin : Linear) (n : Nat) (v : Value), n ≤ 8 → s.cfg.ioModel = .refuse →
    v.toNat < 2 ^ (8 * n) → memWrite cr0 lin n v s = .ok t → memRead cr0 lin n t = .ok (v, t)

/-- R45, R47, R49 (95_test_vectors.md V25, V29): of CR0, only the six named bits govern an access or enable a
register. -/
def Obligations.OnlyNamedCr0BitsGovern : Prop :=
  ∀ (s : State) (x y : BitVec 24), (∀ b ∈ [0, 2, 4, 9, 15, 19], x.getLsbD b = y.getLsbD b) →
    (∀ k lin, checkByte s x k lin = checkByte s y k lin) ∧ (∀ r : Reg, r.enabled x = r.enabled y) ∧
    (∀ lin n, memRead x lin n s = memRead y lin n s) ∧ (∀ lin n v, memWrite x lin n v s = memWrite y lin n v s)

/-! ### Registers (10_state.md) -/

/-- R14 to R20, R23, R29: the compositions, in terms of the cells; A, B, C, D are the low halves of AX, BX, CX, DX. -/
def Obligations.RegisterViewsOfCells : Prop :=
  ∀ c : Cells,
    c.read .A = ((c.read .AX).setWidth 16).setWidth 64 ∧
    c.read .B = ((c.read .BX).setWidth 16).setWidth 64 ∧
    c.read .C = ((c.read .CX).setWidth 16).setWidth 64 ∧
    c.read .D = ((c.read .DX).setWidth 16).setWidth 64 ∧
    c.read .A = ((c.read .AH).setWidth 8 ++ (c.read .AL).setWidth 8).setWidth 64 ∧
    c.read .B = ((c.read .BH).setWidth 8 ++ (c.read .BL).setWidth 8).setWidth 64 ∧
    c.read .C = ((c.read .CH).setWidth 8 ++ (c.read .CL).setWidth 8).setWidth 64 ∧
    c.read .D = ((c.read .DH).setWidth 8 ++ (c.read .DL).setWidth 8).setWidth 64 ∧
    c.read .ABX = ((c.read .A).setWidth 16 ++ (c.read .B).setWidth 16).setWidth 64 ∧
    c.read .CDX = ((c.read .C).setWidth 16 ++ (c.read .D).setWidth 16).setWidth 64 ∧
    c.read .EAB = (c.read .AX).setWidth 32 ++ (c.read .BX).setWidth 32 ∧
    c.read .ECD = (c.read .CX).setWidth 32 ++ (c.read .DX).setWidth 32 ∧
    c.read .HL = ((c.read .H).setWidth 16 ++ (c.read .L).setWidth 16).setWidth 64 ∧
    c.read .EABF = (c.read .AF).setWidth 32 ++ (c.read .BF).setWidth 32 ∧
    c.read .ECDF = (c.read .CF).setWidth 32 ++ (c.read .DF).setWidth 32 ∧
    c.read .BP = ((c.read .BPX).setWidth 16).setWidth 64 ∧
    c.read .SP = ((c.read .SPX).setWidth 16).setWidth 64

/-- R13: a register reads back what was written to it, at its width; CR1 but for its read-only bit 0 (R47). -/
def Obligations.WrittenRegisterReadsBack : Prop :=
  ∀ (c : Cells) (r : Reg) (v : Value),
    (r ≠ .CR1 → (c.write r v).read r = BitVec.ofNat 64 (v.toNat % 2 ^ r.width)) ∧
    (c.write .CR1 v).read .CR1 = (v.extractLsb' 1 15 ++ c.cr1.extractLsb' 0 1).setWidth 64

/-- R13, R16, R21 (95_test_vectors.md Part 4 law 5): a write to a name leaves every name that shares no cell bit with it
unchanged, and every bit of a storage cell that is not behind the name; as many cell bits are behind a name as it is wide.
In particular the high halves of AX, BX, CX, DX, BPX and SPX keep their bits when a narrower view is written. -/
def Obligations.WriteLeavesDisjointRegisters : Prop :=
  (∀ (c : Cells) (r q : Reg) (v : Value), r.overlaps q = false → (c.write r v).read q = c.read q) ∧
  (∀ (c : Cells) (r cell : Reg) (v : Value) (b : Nat), cell.cellBits = [⟨cell, 0, cell.width⟩] →
    (∀ x ∈ r.cellBits, x.cell = cell → ¬ (x.lo ≤ b ∧ b < x.lo + x.width)) →
    ((c.write r v).read cell).getLsbD b = (c.read cell).getLsbD b) ∧
  (∀ r : Reg, (r.cellBits.map CellBits.width).sum = r.width) ∧
  (∀ (c : Cells) (v : Value) (view cell : Reg),
    (view ∈ [Reg.AL, .AH, .A, .ABX] ∧ cell = .AX ∨ view ∈ [Reg.BL, .BH, .B, .ABX] ∧ cell = .BX ∨
      view ∈ [Reg.CL, .CH, .C, .CDX] ∧ cell = .CX ∨ view ∈ [Reg.DL, .DH, .D, .CDX] ∧ cell = .DX ∨
      view = .BP ∧ cell = .BPX ∨ view = .SP ∧ cell = .SPX) →
    ((c.write view v).read cell).extractLsb' 16 16 = (c.read cell).extractLsb' 16 16)

/-- R33 with the conditions of R16, R18, R19, R29: AX, BX, CX, DX are enabled by CR0 bit 15 alone, ABX and CDX by bit 2,
EAB, ECD, EABF and ECDF by bit 9, every other name always; an instruction that names a register whose CR0 bit is 0 faults: MOV
whose destination names it (as the register, as an address or in one), MOV whose source does, PUSHR with it in the list,
and POPR when its turn comes, its item popped (R127; where the spec does not order two checks, log 15). -/
def Obligations.DisabledRegisterFaults : Prop :=
  (∀ (cr0 : BitVec 24) (r : Reg), r.enabled cr0 = true ↔
    ((r = .AX ∨ r = .BX ∨ r = .CX ∨ r = .DX) → cr0.getLsbD 15 = true) ∧
    ((r = .ABX ∨ r = .CDX) → cr0.getLsbD 2 = true) ∧
    ((r = .EAB ∨ r = .ECD ∨ r = .EABF ∨ r = .ECDF) → cr0.getLsbD 9 = true)) ∧
  ∀ (s : State) (r : Reg),
    ((r = .AX ∨ r = .BX ∨ r = .CX ∨ r = .DX) ∧ s.cells.cr0.getLsbD 15 = false ∨
      (r = .ABX ∨ r = .CDX) ∧ s.cells.cr0.getLsbD 2 = false ∨
      (r = .EAB ∨ r = .ECD ∨ r = .EABF ∨ r = .ECDF) ∧ s.cells.cr0.getLsbD 9 = false) →
    (∀ dst src, Names s.cells.cr0 r dst → exec (.mov dst src) s = .fault (.registerNotEnabled r)) ∧
    (∀ dst src d, dst.mode.isImm = false → operand s (pcNext s (.mov dst src)) dst = .ok d →
      Names s.cells.cr0 r src → exec (.mov dst src) s = .fault (.registerNotEnabled r)) ∧
    (∀ before after, s.cfg.pushrList = some (before ++ r :: after) →
      (∀ q ∈ before, q.enabled s.cells.cr0 = true) → exec .pushr s = .fault (.registerNotEnabled r)) ∧
    (∀ before after t bs, s.cfg.pushrList = some (before ++ r :: after) → PopsTo s.cells.cr0 after.reverse s t →
      bs.length = r.bytes → slotFits r.bytes (popSlotOf t r.bytes) = true →
      Readable t s.cells.cr0 .read (stackAddr t (popSlotOf t r.bytes).1) bs →
      exec .popr s = .fault (.registerNotEnabled r))

/-! ### Encoding (30_encoding.md) -/

/-- Decoding an encoded well-formed instruction gives it back, whatever follows it: every instruction, every argument
mode, every operand value the encoding admits (R85 to R107). -/
def Obligations.DecodeOfEncodeIsTheInstruction : Prop :=
  ∀ (cfg : Cfg) (i : Instr) (rest : List Byte), cfg.opcWf = true → i.wf cfg = true →
    decode cfg (encode cfg i ++ rest) = .ok (i, rest)

/-- Bytes that decode are the encoding of what they decode to, under a configuration the spec admits. -/
def Obligations.EncodeOfDecodeIsTheBytes : Prop :=
  ∀ (cfg : Cfg) (bytes rest : List Byte) (i : Instr), cfgWf cfg = true → decode cfg bytes = .ok (i, rest) →
    encode cfg i ++ rest = bytes

/-- Words written out from the spec (95_test_vectors.md V80, V82, V91, V98 to V105 with TCFG's opcode
bytes) decode to the instructions they stand for. -/
def Obligations.SpecWordsDecode : Prop :=
  decode Cfg.reference [0x91, 0x1B, 0x13] = .ok (.mov .regA .dsB, []) ∧
  decode Cfg.reference [0x91, 0x21, 0x01, 0x00, 0x10] = .ok (.mov .regB (.immWord 0x1000), []) ∧
  decode { Cfg.reference with byteOrder := .big } [0x91, 0x1B, 0x0C, 0x12, 0x34]
    = .ok (.mov .regA (.addr 0x1234), []) ∧
  decode Cfg.reference [0x92, 0xFF, 0xFF] = .ok (.ret .none, []) ∧
  decode Cfg.reference [0x92, 0x00, 0xFF, 0x04] = .ok (.ret (.byte 0x04), []) ∧
  decode Cfg.reference [0x92, 0x01, 0xFF, 0x04, 0x01] = .ok (.ret (.word 0x0104), []) ∧
  decode Cfg.reference [0x93, 0x0D, 0xFF, 0x40, 0x00, 0x10] = .ok (.call (.long 0x100040), []) ∧
  decode Cfg.reference [0x93, 0x0E, 0xFF, 0x40, 0x00, 0x10, 0x00] = .ok (.call (.far 0x00100040), []) ∧
  decode Cfg.reference [0x93, 0x0F, 0xFF, 0x10] = .ok (.call (.rel 0x10), []) ∧
  decode Cfg.reference [0x94, 0xFF, 0xFF] = .ok (.pushr, []) ∧
  decode Cfg.reference [0x95, 0xFF, 0xFF] = .ok (.popr, [])

/-- R89, R90 and R112 step 2: a reserved or unused code in the A or B byte, or 0xFF as argument1 with a B byte other than
0xFF, is rejected, whatever the opcode byte. That 0xFF as argument1 comes before a reserved B byte is read from R90 and
R103 (log 24). -/
def Obligations.ReservedModesRejected : Prop :=
  ∀ (cfg : Cfg) (x a b : Byte) (rest : List Byte),
    (∀ c : Byte, (c = 0x04 ∨ c = 0x05 ∨ c = 0x0A ∨ 0x14 ≤ c ∧ c ≤ 0x19 ∨ 0x23 ≤ c ∧ c ≤ 0xEF ∨
        0xF4 ≤ c ∧ c ≤ 0xFE) →
      (a = c → decode cfg (x :: a :: b :: rest) = .error (.rejected (.reservedArgMode c))) ∧
      (b = c → a ≠ 0xFF → (∃ m, Mode.ofCode a = some m) →
        decode cfg (x :: a :: b :: rest) = .error (.rejected (.reservedArgMode c)))) ∧
    (a = 0xFF → b ≠ 0xFF → decode cfg (x :: a :: b :: rest) = .error (.rejected (.reservedArgMode 0xFF)))

/-- R105, R107, R112: with its payload present, an unknown opcode byte is rejected by name, an immediate as MOV's
argument1 is the fault WriteToImmediate, and every other combination R107's table does not list is OperandForm. -/
def Obligations.OperandFormsRejected : Prop :=
  ∀ (cfg : Cfg) (x : Byte) (ma mb : Mode) (rest : List Byte), cfg.opcWf = true →
    (ma = .none → mb = .none) → ma.plen cfg + mb.plen cfg ≤ rest.length →
    ((∀ m, x ≠ cfg.opcode m) →
      decode cfg (x :: ma.code :: mb.code :: rest) = .error (.rejected (.unknownOpcode x))) ∧
    (x = cfg.opcode .mov → ma.isImm = true →
      decode cfg (x :: ma.code :: mb.code :: rest) = .error (.rejected .writeToImmediate)) ∧
    (x = cfg.opcode .mov → ma.isImm = false → mb = .none →
      decode cfg (x :: ma.code :: mb.code :: rest) = .error (.rejected (.operandForm .mov ma mb))) ∧
    (x = cfg.opcode .ret → ¬ ((ma = .none ∨ ma = .immByte ∨ ma = .immWord) ∧ mb = .none) →
      decode cfg (x :: ma.code :: mb.code :: rest) = .error (.rejected (.operandForm .ret ma mb))) ∧
    (x = cfg.opcode .call → ¬ ((ma = .long ∨ ma = .far ∨ ma = .rel) ∧ mb = .none) →
      decode cfg (x :: ma.code :: mb.code :: rest) = .error (.rejected (.operandForm .call ma mb))) ∧
    (x = cfg.opcode .pushr → ¬ (ma = .none ∧ mb = .none) →
      decode cfg (x :: ma.code :: mb.code :: rest) = .error (.rejected (.operandForm .pushr ma mb))) ∧
    (x = cfg.opcode .popr → ¬ (ma = .none ∧ mb = .none) →
      decode cfg (x :: ma.code :: mb.code :: rest) = .error (.rejected (.operandForm .popr ma mb)))

/-- R106: the length of a decoded instruction is 3 plus the payload lengths its two mode bytes give, and that many bytes
are taken; R26: pc_next is pc + len modulo 2^24. R88, R92: the code and the payload length of every mode. -/
def Obligations.LengthFromTheModeBytes : Prop :=
  (∀ (cfg : Cfg) (a : Arg), a.mode.code = (argRow cfg a).1 ∧ Mode.ofCode (argRow cfg a).1 = some a.mode ∧
    a.mode.plen cfg = (argRow cfg a).2 ∧
    (a.mode.isImm = true ↔ (argRow cfg a).1 ∈ ([0x00, 0x01, 0x02, 0x03, 0x06, 0x07] : List Byte))) ∧
  (∀ cfg : Cfg, Mode.none.code = 0xFF ∧ Mode.ofCode 0xFF = some .none ∧ Mode.none.plen cfg = 0) ∧
  (∀ (cfg : Cfg) (x a b : Byte) (tail rest : List Byte) (i : Instr),
    decode cfg (x :: a :: b :: tail) = .ok (i, rest) →
    ∃ ma mb, Mode.ofCode a = some ma ∧ Mode.ofCode b = some mb ∧ i.len cfg = 3 + ma.plen cfg + mb.plen cfg ∧
      3 + tail.length = i.len cfg + rest.length) ∧
  (∀ (s : State) (i : Instr), (pcNext s i).toNat = (s.cells.pc.toNat + i.len s.cfg) % 2 ^ 24)

/-! ### Operands (30_encoding.md R95 to R104) -/

/-- R96, R98 (mode 0x13), R100, R104: the addresses of the modes that name no register by identifier; `DEFAULT_SEG`'s
value is that of DS, ES, SS or S (R24). -/
def Obligations.LiteralAndImpliedAddresses : Prop :=
  ∀ (s : State) (next : CodeAddr),
    ((s.cells.seg .ds).setWidth 64 = s.cells.read .DS ∧ (s.cells.seg .es).setWidth 64 = s.cells.read .ES ∧
      (s.cells.seg .ss).setWidth 64 = s.cells.read .SS ∧ (s.cells.seg .s).setWidth 64 = s.cells.read .S) ∧
    (∀ a, operand s next (.near a)
      = .ok (.mem (BitVec.ofNat 32 ((s.cells.seg s.cfg.defaultSeg).toNat * 0x10000 + a.toNat)))) ∧
    (∀ a, operand s next (.addr a)
      = .ok (.mem (BitVec.ofNat 32 ((s.cells.seg s.cfg.defaultSeg).toNat * 0x10000 + a.toNat)))) ∧
    (∀ a, operand s next (.long a) = .ok (.mem (BitVec.ofNat 32 a.toNat))) ∧
    (∀ a, operand s next (.far a) = .ok (.mem a)) ∧
    operand s next .dsB
      = .ok (.mem (BitVec.ofNat 32 (s.cells.ds.toNat * 0x10000 + (s.cells.read .B).toNat))) ∧
    operand s next .addrHL = .ok (.mem (BitVec.ofNat 32 (s.cells.read .HL).toNat)) ∧
    (∀ n, operand s next (.bpRel n)
      = .ok (.mem (BitVec.ofNat 32
          (s.cells.ss.toNat * 0x10000 + ((s.cells.read .BP).toNat + n.toNat) % 0x10000))))

/-- R97: mode 0x0F is the base plus the signed offset, modulo 2^24 (the spec's decision D19). -/
def Obligations.RelativeAddressIsSigned : Prop :=
  ∀ (s : State) (next : CodeAddr) (o : BitVec 8),
    (s.cfg.relBase = .next → operand s next (.rel o)
      = .ok (.mem (BitVec.ofNat 32 (((next.toNat : Int) + o.toInt) % 0x1000000).toNat))) ∧
    (s.cfg.relBase = .start → operand s next (.rel o)
      = .ok (.mem (BitVec.ofNat 32 (((s.cells.pc.toNat : Int) + o.toInt) % 0x1000000).toNat)))

/-- R95, R98: the modes that name a register by identifier. An identifier without a register and a disabled register
fault; mode 0x09 takes a 32-bit register as a linear address and a 16-bit one as an offset in `DEFAULT_SEG`; segments
and offsets are 16-bit registers; another width faults (log 15 for the order). -/
def Obligations.RegisterHeldAddresses : Prop :=
  ∀ (s : State) (next : CodeAddr),
    (∀ id, operand s next (.reg (.unassigned id)) = .error (.fault (.unknownRegister id)) ∧
      operand s next (.regAddr (.unassigned id)) = .error (.fault (.unknownRegister id)) ∧
      operand s next (.dsReg (.unassigned id)) = .error (.fault (.unknownRegister id)) ∧
      (∀ off, operand s next (.segImm (.unassigned id) off) = .error (.fault (.unknownRegister id))) ∧
      (∀ ro, operand s next (.segReg (.unassigned id) ro) = .error (.fault (.unknownRegister id))) ∧
      (∀ q : Reg, q.enabled s.cells.cr0 = true → q.width = 16 →
        operand s next (.segReg (.named q) (.unassigned id)) = .error (.fault (.unknownRegister id)))) ∧
    (∀ r : Reg, r.enabled s.cells.cr0 = false →
      operand s next (.reg (.named r)) = .error (.fault (.registerNotEnabled r)) ∧
      operand s next (.regAddr (.named r)) = .error (.fault (.registerNotEnabled r)) ∧
      operand s next (.dsReg (.named r)) = .error (.fault (.registerNotEnabled r)) ∧
      (∀ off, operand s next (.segImm (.named r) off) = .error (.fault (.registerNotEnabled r))) ∧
      (∀ ro, operand s next (.segReg (.named r) ro) = .error (.fault (.registerNotEnabled r))) ∧
      (∀ q : Reg, q.enabled s.cells.cr0 = true → q.width = 16 →
        operand s next (.segReg (.named q) (.named r)) = .error (.fault (.registerNotEnabled r)))) ∧
    (∀ r : Reg, r.enabled s.cells.cr0 = true →
      operand s next (.reg (.named r)) = .ok (.reg r) ∧
      operand s next (.regAddr (.named r)) =
        (if r.width = 32 then .ok (.mem (BitVec.ofNat 32 (s.cells.read r).toNat))
        else if r.width = 16 then
          .ok (.mem (BitVec.ofNat 32 ((s.cells.seg s.cfg.defaultSeg).toNat * 0x10000 + (s.cells.read r).toNat)))
        else .error (.fault (.badAddressRegister r))) ∧
      operand s next (.dsReg (.named r)) =
        (if r.width = 16 then .ok (.mem (BitVec.ofNat 32 (s.cells.ds.toNat * 0x10000 + (s.cells.read r).toNat)))
        else .error (.fault (.badAddressRegister r))) ∧
      (∀ off, operand s next (.segImm (.named r) off) =
        (if r.width = 16 then .ok (.mem (BitVec.ofNat 32 ((s.cells.read r).toNat * 0x10000 + off.toNat)))
        else .error (.fault (.badAddressRegister r)))) ∧
      (∀ q : Reg, q.enabled s.cells.cr0 = true →
        operand s next (.segReg (.named r) (.named q)) =
          (if r.width = 16 then
            if q.width = 16 then
              .ok (.mem (BitVec.ofNat 32 ((s.cells.read r).toNat * 0x10000 + (s.cells.read q).toNat)))
            else .error (.fault (.badAddressRegister q))
          else .error (.fault (.badAddressRegister r)))))

/-- R93, R94, R99: immediates are their values at their widths, and the dedicated modes name their registers, AX and BX
where CR0.pm enables them. -/
def Obligations.ImmediatesAndDedicatedRegisters : Prop :=
  ∀ (s : State) (next : CodeAddr),
    (∀ v, operand s next (.immByte v) = .ok (.imm 8 (BitVec.ofNat 64 v.toNat) false)) ∧
    (∀ v, operand s next (.immWord v) = .ok (.imm 16 (BitVec.ofNat 64 v.toNat) false)) ∧
    (∀ v, operand s next (.immTbyte v) = .ok (.imm 24 (BitVec.ofNat 64 v.toNat) false)) ∧
    (∀ v, operand s next (.immDword v) = .ok (.imm 32 (BitVec.ofNat 64 v.toNat) false)) ∧
    (∀ v, operand s next (.immQword v) = .ok (.imm 64 v false)) ∧
    (∀ v, operand s next (.immFloat v) = .ok (.imm 32 (BitVec.ofNat 64 v.toNat) true)) ∧
    operand s next .regAL = .ok (.reg .AL) ∧ operand s next .regA = .ok (.reg .A) ∧
    operand s next .regHL = .ok (.reg .HL) ∧ operand s next .regBL = .ok (.reg .BL) ∧
    operand s next .regB = .ok (.reg .B) ∧ operand s next .regAF = .ok (.reg .AF) ∧
    operand s next .regBF = .ok (.reg .BF) ∧ operand s next .regCF = .ok (.reg .CF) ∧
    operand s next .regDF = .ok (.reg .DF) ∧
    (s.cells.cr0.getLsbD 15 = true →
      operand s next .regAX = .ok (.reg .AX) ∧ operand s next .regBX = .ok (.reg .BX)) ∧
    (s.cells.cr0.getLsbD 15 = false →
      operand s next .regAX = .error (.fault (.registerNotEnabled .AX)) ∧
      operand s next .regBX = .error (.fault (.registerNotEnabled .BX)))

/-! ### MOV (40_general_instructions.md R114) -/

/-- R114 (log 23), register from register: both of one width, both float or both integer, neither PC. The register takes the
source's value (F of 20 bits included), the pc advances, nothing else changes. -/
def Obligations.MovRegisterFromRegister : Prop :=
  ∀ (s : State) (dst src : Arg) (rd rs : Reg),
    operand s (pcNext s (.mov dst src)) dst = .ok (.reg rd) →
    operand s (pcNext s (.mov dst src)) src = .ok (.reg rs) →
    rd ≠ .PC → rs ≠ .PC → rd.width = rs.width → rd.isFloat = rs.isFloat →
    exec (.mov dst src) s = .next ((s.setReg rd (s.cells.read rs)).setPc (pcNext s (.mov dst src)))

/-- R114 (log 23), register from immediate: of the register's move width, or narrower and extended by `IMM_EXTEND`; float with
float, integer with integer. F takes a 24-bit value whose bits 23 to 20 are zero; MovStops has the others. -/
def Obligations.MovRegisterFromImmediate : Prop :=
  ∀ (s : State) (dst src : Arg) (rd : Reg) (wi : Nat) (v : Value),
    operand s (pcNext s (.mov dst src)) dst = .ok (.reg rd) →
    operand s (pcNext s (.mov dst src)) src = .ok (.imm wi v rd.isFloat) → rd ≠ .PC →
    ∀ x : Value, ImmGives s.cfg.immExtend wi rd.moveWidth v x →
      (rd = .F → x.toNat < 2 ^ 20) →
      exec (.mov dst src) s = .next ((s.setReg rd x).setPc (pcNext s (.mov dst src)))

/-- R114 (log 23), register from memory: the bytes of the register's move width at the address, in `BYTE_ORDER`; F
takes a value whose bits 23 to 20 are zero, and where the configuration has R102's truncation the low 20 bits of any other
too (log 14). -/
def Obligations.MovRegisterFromMemory : Prop :=
  ∀ (s : State) (dst src : Arg) (rd : Reg) (lin : Linear) (bs : List Byte) (v : Value),
    operand s (pcNext s (.mov dst src)) dst = .ok (.reg rd) →
    operand s (pcNext s (.mov dst src)) src = .ok (.mem lin) → rd ≠ .PC →
    8 * bs.length = rd.moveWidth → Readable s s.cells.cr0 .read lin bs → Carries s.cfg.byteOrder v bs →
    (rd = .F → s.cfg.fLoad = .truncate ∨ v.toNat < 2 ^ 20) →
    exec (.mov dst src) s = .next ((s.setReg rd v).setPc (pcNext s (.mov dst src)))

/-- R114 (log 23), memory from register: the register's bytes, F zero-extended to 3, stored at the address; every other byte and
every register but the pc unchanged. -/
def Obligations.MovMemoryFromRegister : Prop :=
  ∀ (s : State) (dst src : Arg) (rs : Reg) (lin : Linear),
    operand s (pcNext s (.mov dst src)) dst = .ok (.mem lin) →
    operand s (pcNext s (.mov dst src)) src = .ok (.reg rs) → rs ≠ .PC → Storable s s.cells.cr0 lin rs.bytes →
    ∃ t, exec (.mov dst src) s = .next t ∧ HoldsAt s t s.cells.cr0 lin rs.bytes (s.cells.read rs) ∧
      OnlyBytesAt s t s.cells.cr0 lin rs.bytes ∧ t.cells = { s.cells with pc := pcNext s (.mov dst src) } ∧
      RestSame s t

/-- R114 (log 23), memory from immediate: as many bytes as the immediate is wide. -/
def Obligations.MovMemoryFromImmediate : Prop :=
  ∀ (s : State) (dst src : Arg) (wi : Nat) (v : Value) (fl : Bool) (lin : Linear),
    operand s (pcNext s (.mov dst src)) dst = .ok (.mem lin) →
    operand s (pcNext s (.mov dst src)) src = .ok (.imm wi v fl) → Storable s s.cells.cr0 lin (wi / 8) →
    ∃ t, exec (.mov dst src) s = .next t ∧ HoldsAt s t s.cells.cr0 lin (wi / 8) v ∧
      OnlyBytesAt s t s.cells.cr0 lin (wi / 8) ∧ t.cells = { s.cells with pc := pcNext s (.mov dst src) } ∧
      RestSame s t

/-- R114's refusals, in its order: PC as either operand; then a float against an integer; then differing widths, an
immediate that is wider or not extended, a value for F with one of bits 23 to 20 set (95_test_vectors.md V158; from memory
under `fLoad = refuse`, log 14), and two memory operands. An immediate destination faults (30_encoding.md
R107). -/
def Obligations.MovStops : Prop :=
  ∀ (s : State) (dst src : Arg) (d sr : Operand),
    (dst.mode.isImm = true → exec (.mov dst src) s = .fault .writeToImmediate) ∧
    (operand s (pcNext s (.mov dst src)) dst = .ok d → operand s (pcNext s (.mov dst src)) src = .ok sr →
      dst.mode.isImm = false →
      ((d = .reg .PC ∨ sr = .reg .PC) → exec (.mov dst src) s = .refused .movPc) ∧
      (d ≠ .reg .PC → sr ≠ .reg .PC →
        (d.isFloat = true ∧ sr.isInteger = true ∨ d.isInteger = true ∧ sr.isFloat = true →
          exec (.mov dst src) s = .refused .floatIntMove) ∧
        (∀ rd rs, d = .reg rd → sr = .reg rs → rd.isFloat = rs.isFloat → rd.width ≠ rs.width →
          exec (.mov dst src) s = .refused .widthMismatch) ∧
        (∀ rd wi v, d = .reg rd → sr = .imm wi v rd.isFloat →
          (rd.moveWidth < wi ∨ wi < rd.moveWidth ∧ s.cfg.immExtend = .refuse) →
          exec (.mov dst src) s = .refused .widthMismatch) ∧
        (∀ wi v x, d = .reg .F → sr = .imm wi v false → ImmGives s.cfg.immExtend wi 24 v x → 2 ^ 20 ≤ x.toNat →
          exec (.mov dst src) s = .refused .widthMismatch) ∧
        (∀ lin bs v, d = .reg .F → sr = .mem lin → s.cfg.fLoad = .refuse → bs.length = 3 →
          Readable s s.cells.cr0 .read lin bs → Carries s.cfg.byteOrder v bs → 2 ^ 20 ≤ v.toNat →
          exec (.mov dst src) s = .refused .widthMismatch) ∧
        (∀ a b, d = .mem a → sr = .mem b → exec (.mov dst src) s = .refused .noOperandWidth)))

/-- The frame of MOV, every form: no step of it changes the configuration, the request slot or the code set. To a
register: no byte of memory, and no register that shares no bit with it but the pc. To memory: no register but the pc,
and no byte outside the w / 8 bytes at the destination's address, w as `MoveWidth` gives it. -/
def Obligations.MovFrame : Prop :=
  ∀ (s t : State) (dst src : Arg), exec (.mov dst src) s = .next t →
    t.cfg = s.cfg ∧ t.pending = s.pending ∧ t.code = s.code ∧ t.irqs = s.irqs ∧
    (∀ rd, operand s (pcNext s (.mov dst src)) dst = .ok (.reg rd) →
      t.mem = s.mem ∧ t.bank = s.bank ∧ t.ioOut = s.ioOut ∧ (rd ≠ .F → t.cells.f = s.cells.f) ∧
      ∀ q : Reg, q ≠ .PC → rd.overlaps q = false → t.cells.read q = s.cells.read q) ∧
    (∀ lin sr w, operand s (pcNext s (.mov dst src)) dst = .ok (.mem lin) →
      operand s (pcNext s (.mov dst src)) src = .ok sr → moveWidth s.cfg.immExtend (.mem lin) sr = .ok w →
      t.cells = { s.cells with pc := t.cells.pc } ∧ OnlyBytesAt s t s.cells.cr0 lin (w / 8))

/-! ### The stack, CALL and RET (40_general_instructions.md R116, 41_special_instructions.md R120 to R125) -/

/-- R120, R121, R122: the item's first byte and the new SP, for every setting of `STACK_DIR` and `STACK_EMPTY`, as the
three tables have them; and where the new SP or a byte of the item would leave 0 to 0xFFFF, the operation is refused. -/
def Obligations.StackSlotsAndWrap : Prop :=
  (∀ (n : Nat) (s : Int),
    pushSlot .up true n s = (s, s + n) ∧ pushSlot .up false n s = (s + 1, s + n) ∧
    pushSlot .down false n s = (s - n, s - n) ∧ pushSlot .down true n s = (s - n + 1, s - n) ∧
    popSlot .up true n s = (s - n, s - n) ∧ popSlot .up false n s = (s - n + 1, s - n) ∧
    popSlot .down false n s = (s, s + n) ∧ popSlot .down true n s = (s + 1, s + n) ∧
    releaseSp .up n s = s - n ∧ releaseSp .down n s = s + n) ∧
  ∀ (s : State) (cr0 : BitVec 24) (n : Nat) (v : Value),
    (∀ a sp', pushSlotOf s n = (a, sp') → (a < 0 ∨ 0xFFFF < a + n - 1 ∨ sp' < 0 ∨ 0xFFFF < sp') →
      push cr0 n v s = .error (.refuse .stackWrap)) ∧
    (∀ a sp', popSlotOf s n = (a, sp') → (a < 0 ∨ 0xFFFF < a + n - 1 ∨ sp' < 0 ∨ 0xFFFF < sp') →
      pop cr0 n s = .error (.refuse .stackWrap)) ∧
    ((releaseSp s.cfg.stackDir n s.cells.sp.toNat < 0 ∨ 0xFFFF < releaseSp s.cfg.stackDir n s.cells.sp.toNat) →
      release n s = .error (.refuse .stackWrap))

/-- R121: a pop directly after a push of the same size returns the value and restores SP, for every setting of the
parameters and of `BYTE_ORDER` (ports apart, which store nothing). -/
def Obligations.PopAfterPush : Prop :=
  ∀ (s t : State) (cr0 : BitVec 24) (n : Nat) (v : Value), n ≤ 8 → v.toNat < 2 ^ (8 * n) →
    s.cfg.ioModel = .refuse → push cr0 n v s = .ok t →
    ∃ u, pop cr0 n t = .ok (v, u) ∧ u.cells = s.cells ∧ OnlyCells t u

/-- R123 (log 23): CALL pushes pc_next as `RETADDR_BYTES` bytes at the stack item's address and jumps to the target; no register
but SP and the pc, no flag and no byte outside the item changes. -/
def Obligations.CallPushesReturnAddressAndJumps : Prop :=
  ∀ (s : State) (tg : CallTarget) (n : Nat), n = retAddrCount s.cfg.retaddrBytes →
    (callTarget s (pcNext s (.call tg)) tg).toNat < 2 ^ 24 → slotFits n (pushSlotOf s n) = true →
    Storable s s.cells.cr0 (stackAddr s (pushSlotOf s n).1) n →
    ∃ t, exec (.call tg) s = .next t ∧
      t.cells = { s.cells with
        pc := BitVec.ofNat 24 (callTarget s (pcNext s (.call tg)) tg).toNat
        spx := withLow16 s.cells.spx (BitVec.ofInt 16 (pushSlotOf s n).2) } ∧
      HoldsAt s t s.cells.cr0 (stackAddr s (pushSlotOf s n).1) n (BitVec.ofNat 64 (pcNext s (.call tg)).toNat) ∧
      OnlyBytesAt s t s.cells.cr0 (stackAddr s (pushSlotOf s n).1) n ∧ RestSame s t

/-- R123, R96, R97: the target of each of CALL's three forms; a target above 24 bits is refused with nothing pushed.
R116: RET's offset is the immediate, zero-extended, and no offset is the offset 0 (corner case 1). -/
def Obligations.CallTargetsAndRetOffsets : Prop :=
  ∀ (s : State) (next : CodeAddr),
    (∀ a, callTarget s next (.long a) = BitVec.ofNat 32 a.toNat) ∧ (∀ a, callTarget s next (.far a) = a) ∧
    (∀ o, operand s next (.rel o) = .ok (.mem (callTarget s next (.rel o)))) ∧
    (∀ a : BitVec 32, 2 ^ 24 ≤ a.toNat → exec (.call (.far a)) s = .refused .callTargetTooWide) ∧
    retOffset .none = 0 ∧ (∀ n, retOffset (.byte n) = n.toNat) ∧ (∀ n, retOffset (.word n) = n.toNat) ∧
    exec (.ret .none) s = exec (.ret (.byte 0)) s ∧ exec (.ret .none) s = exec (.ret (.word 0)) s

/-- R116 under `release_then_pop`: n bytes are dropped, the return address is popped from the item then on top, the pc
is set to it; SP and the pc are all that changes. A 4-byte address above 24 bits is refused. -/
def Obligations.RetReleasesThenPops : Prop :=
  ∀ (s : State) (off : RetArg) (k : Nat) (sp : Int) (bs : List Byte) (ra : Value),
    s.cfg.retOrder = .releaseThenPop → k = retAddrCount s.cfg.retaddrBytes →
    sp = releaseSp s.cfg.stackDir (retOffset off) s.cells.sp.toNat → inStack sp = true →
    slotFits k (popSlot s.cfg.stackDir s.cfg.stackEmpty k sp) = true → bs.length = k →
    Readable s s.cells.cr0 .read (stackAddr s (popSlot s.cfg.stackDir s.cfg.stackEmpty k sp).1) bs →
    Carries s.cfg.byteOrder ra bs →
    (ra.toNat < 2 ^ 24 → exec (.ret off) s
      = .next ((s.setSp (BitVec.ofInt 16 (popSlot s.cfg.stackDir s.cfg.stackEmpty k sp).2)).setPc
          (BitVec.ofNat 24 ra.toNat))) ∧
    (2 ^ 24 ≤ ra.toNat → exec (.ret off) s = .refused .returnAddressTooWide)

/-- R116 under `pop_then_release`: the return address is popped from the item on top, then n bytes are dropped. -/
def Obligations.RetPopsThenReleases : Prop :=
  ∀ (s : State) (off : RetArg) (k : Nat) (sp : Int) (bs : List Byte) (ra : Value),
    s.cfg.retOrder = .popThenRelease → k = retAddrCount s.cfg.retaddrBytes →
    slotFits k (popSlotOf s k) = true → bs.length = k →
    sp = releaseSp s.cfg.stackDir (retOffset off) (popSlotOf s k).2 → inStack sp = true →
    Readable s s.cells.cr0 .read (stackAddr s (popSlotOf s k).1) bs → Carries s.cfg.byteOrder ra bs →
    (ra.toNat < 2 ^ 24 →
      exec (.ret off) s = .next ((s.setSp (BitVec.ofInt 16 sp)).setPc (BitVec.ofNat 24 ra.toNat))) ∧
    (2 ^ 24 ≤ ra.toNat → exec (.ret off) s = .refused .returnAddressTooWide)

/-- The frame of RET: no byte of memory and no register but SP (in SPX) and the pc. -/
def Obligations.RetFrame : Prop :=
  ∀ (s t : State) (off : RetArg), exec (.ret off) s = .next t →
    t.mem = s.mem ∧ t.bank = s.bank ∧ t.ioOut = s.ioOut ∧ t.cfg = s.cfg ∧ t.pending = s.pending ∧ t.code = s.code ∧
    t.irqs = s.irqs ∧ ∃ v, t.cells = { s.cells with pc := t.cells.pc, spx := withLow16 s.cells.spx v }

/-- R116, R123 (95_test_vectors.md Part 4 law 3): RET without operand, run where CALL jumped to, returns to CALL's
pc_next with SP and every other register as before the call. -/
def Obligations.RetUndoesCall : Prop :=
  ∀ (s t : State) (tg : CallTarget), s.cfg.ioModel = .refuse → exec (.call tg) s = .next t →
    ∃ u, exec (.ret .none) t = .next u ∧ u.cells = { s.cells with pc := pcNext s (.call tg) } ∧ OnlyCells t u

/-! ### PUSHR and POPR (41_special_instructions.md R126 to R128) -/

/-- R126: with every listed register enabled and every item's bytes storable, PUSHR stores each register, in list order,
at the item its turn of SP addresses, and moves SP past them all; no other byte, register or flag changes but the pc. -/
def Obligations.PushrStoresListedRegisters : Prop :=
  ∀ (s : State) (rs : List Reg), s.cfg.pushrList = some rs → (∀ r ∈ rs, r.enabled s.cells.cr0 = true) →
    (∀ j r, rs[j]? = some r → slotFits r.bytes (itemSlot s rs j r.bytes) = true ∧
      Storable s s.cells.cr0 (stackAddr s (itemSlot s rs j r.bytes).1) r.bytes) →
    ∃ t, exec .pushr s = .next t ∧ RestSame s t ∧
      t.cells = { s.cells with
        pc := pcNext s .pushr
        spx := withLow16 s.cells.spx
          (BitVec.ofInt 16 (spBefore s.cfg.stackDir rs rs.length s.cells.sp.toNat)) } ∧
      (∀ j r, rs[j]? = some r →
        HoldsAt s t s.cells.cr0 (stackAddr s (itemSlot s rs j r.bytes).1) r.bytes (s.cells.read r)) ∧
      (∀ pl : Place, pl.wf = true →
        (∀ j r, rs[j]? = some r → ∀ i, i < r.bytes →
          checkByte s s.cells.cr0 .write (stackAddr s (itemSlot s rs j r.bytes).1 + BitVec.ofNat 32 i) ≠ .ok pl) →
        t.byteAt pl = s.byteAt pl)

/-- R127: POPR pops the listed registers in reverse order, each written as it is popped (log 13) and all accesses governed
by the CR0 at its start, then advances the pc. -/
def Obligations.PoprPopsInReverse : Prop :=
  ∀ (s t : State) (rs : List Reg), s.cfg.pushrList = some rs → PopsTo s.cells.cr0 rs.reverse s t →
    exec .popr s = .next (t.setPc (pcNext s .popr))

/-- The frame of POPR: no byte of memory, and no register but SP (with SPX), the pc and those that share a bit with a
listed one. -/
def Obligations.PoprFrame : Prop :=
  ∀ (s t : State) (rs : List Reg), s.cfg.pushrList = some rs → exec .popr s = .next t →
    t.mem = s.mem ∧ t.bank = s.bank ∧ t.ioOut = s.ioOut ∧ t.cfg = s.cfg ∧ t.pending = s.pending ∧ t.code = s.code ∧
    t.irqs = s.irqs ∧ t.cells.pc = pcNext s .popr ∧
    ∀ q : Reg, q ≠ .PC → q ≠ .SP → q ≠ .SPX → (∀ r ∈ rs, r.overlaps q = false) → t.cells.read q = s.cells.read q

/-- R126, R127 corner case 3 and R149: without a configured list both are refused; with an empty one they only advance
the pc. -/
def Obligations.PushrAndPoprWithoutRegisters : Prop :=
  ∀ s : State,
    (s.cfg.pushrList = none → exec .pushr s = .refused .pushrListUnknown ∧
      exec .popr s = .refused .pushrListUnknown) ∧
    (s.cfg.pushrList = some [] → exec .pushr s = .next (s.setPc (s.cells.pc + 3)) ∧
      exec .popr s = .next (s.setPc (s.cells.pc + 3)))

/-- R128, the pairing law: a POPR that starts where a PUSHR left SP, with SS, CR0, MB and CR1's read-only bit as they
were and the pushed bytes unchanged, gives every listed register and SP the value it had when the PUSHR started. -/
def Obligations.PoprRestoresWhatPushrSaved : Prop :=
  ∀ (s t s' : State) (rs : List Reg), s.cfg.pushrList = some rs → pushrListWf rs = true →
    s.cfg.ioModel = .refuse → exec .pushr s = .next t →
    s'.cfg = s.cfg → s'.code = s.code → s'.cells.sp = t.cells.sp → s'.cells.ss = s.cells.ss →
    s'.cells.cr0 = s.cells.cr0 → s'.cells.mb = s.cells.mb → s'.cells.cr1Bios = s.cells.cr1Bios →
    (∀ off pl, pushedOffset s.cfg.stackDir s.cfg.stackEmpty s.cells.sp.toNat t.cells.sp.toNat off →
      checkByte s s.cells.cr0 .write (linear s.cells.ss (BitVec.ofNat 16 off)) = .ok pl →
      s'.byteAt pl = t.byteAt pl) →
    ∃ u, exec .popr s' = .next u ∧ u.cells.sp = s.cells.sp ∧ ∀ r ∈ rs, u.cells.read r = s.cells.read r

/-! ### Flags (10_state.md R49, R50; 40_general_instructions.md R113) -/

/-- R113(a), R50, R125: F changes only by a MOV whose destination is F or a POPR whose list holds F (the spec's decision
D23). -/
def Obligations.FlagsChangeOnlyByMovOrPopr : Prop :=
  ∀ (i : Instr) (s t : State), exec i s = .next t → t.cells.f ≠ s.cells.f →
    (∃ dst src, i = .mov dst src ∧ operand s (pcNext s i) dst = .ok (.reg .F)) ∨
    (i = .popr ∧ ∃ rs, s.cfg.pushrList = some rs ∧ Reg.F ∈ rs)

/-! ### Steps, interrupts and modes (60_exceptions.md; 70_reset_and_hazards.md) -/

/-- R112, when no request is taken, the core is not halted and the pc is no handler's return point (log 12), with `bs` the
bytes fetched from the pc on. If they decode to an instruction, the step is that instruction's, at the state in which the
interrupt source's choice has landed; if the whole instruction is rejected, the step ends in the rejection's fault or
refusal (R148, R149). Before any byte, and again once the header is there, an instruction that passes 0xFF_FFFF is PcWrap
(10_state.md R27) and one that crosses a 64 KB boundary is SegmentWrap (20_memory.md R75; log 20 for the order). The first
byte that fails its check ends the step so, and the first without a value is ReadOfUnwritten (10_state.md R52). -/
def Obligations.StepRunsTheDecodedInstruction : Prop :=
  ∀ (s : State) (bs : List Byte), RunsInstruction s.arrive →
    Readable s.arrive s.cells.cr0 .fetch (BitVec.ofNat 32 s.cells.pc.toNat) bs →
    (∀ i, decode s.cfg bs = .ok (i, []) → step s = exec i s.arrive) ∧
    (bs.length = neededBytes s.cfg bs →
      (∀ c, decode s.cfg bs = .error (.rejected (.reservedArgMode c)) → step s = .fault (.reservedArgMode c)) ∧
      (∀ x, decode s.cfg bs = .error (.rejected (.unknownOpcode x)) → step s = .refused (.unknownOpcode x)) ∧
      (∀ m a b, decode s.cfg bs = .error (.rejected (.operandForm m a b)) → step s = .refused (.operandForm m a b)) ∧
      (decode s.cfg bs = .error (.rejected .writeToImmediate) → step s = .fault .writeToImmediate)) ∧
    (bs = [] ∨ bs.length = 3 →
      (2 ^ 24 < s.cells.pc.toNat + neededBytes s.cfg bs → step s = .refused .pcWrap) ∧
      (s.cells.pc.toNat + neededBytes s.cfg bs ≤ 2 ^ 24 →
        ¬ InBlock (BitVec.ofNat 32 s.cells.pc.toNat) (neededBytes s.cfg bs) →
        step s = .refused (.segmentWrap (BitVec.ofNat 32 s.cells.pc.toNat) (neededBytes s.cfg bs)))) ∧
    (bs.length < neededBytes s.cfg bs → InBlock (BitVec.ofNat 32 s.cells.pc.toNat) (neededBytes s.cfg bs) →
      (∀ f, checkByte s.arrive s.cells.cr0 .fetch (BitVec.ofNat 32 (s.cells.pc.toNat + bs.length)) = .error (.fault f) →
        step s = .fault f) ∧
      (∀ r, checkByte s.arrive s.cells.cr0 .fetch (BitVec.ofNat 32 (s.cells.pc.toNat + bs.length)) = .error (.refuse r) →
        step s = .refused r) ∧
      (∀ pl, checkByte s.arrive s.cells.cr0 .fetch (BitVec.ofNat 32 (s.cells.pc.toNat + bs.length)) = .ok pl →
        s.byteAt pl = none → step s = .fault (.readOfUnwritten pl.addr)))

/-- R140, R142: a request lands in an empty slot and in no other, one choice of the interrupt source a step, which
changes nothing else (log 8); and while F.ie = 0 a pending request stays pending through any step that completes. -/
def Obligations.RequestLandsAndStaysPending : Prop :=
  ∀ s : State,
    s.arrive = { s with pending := s.arrive.pending, irqs := s.irqs.tail } ∧
    (∀ n, s.pending = some n → s.arrive.pending = some n) ∧
    (∀ c rest, s.pending = none → s.irqs = c :: rest → s.arrive.pending = c) ∧
    (s.pending = none → s.irqs = [] → s.arrive.pending = none) ∧
    (∀ n t, s.pending = some n → s.cells.fIe = false → step s = .next t → t.pending = some n)

/-- R141 to R144, R146: with F.ie = 1 a pending request is taken before the next fetch. The entry at `IDT_BASE + 4n`
holds segment word and offset word; a routine above 24 bits is refused; under `INT_ENTRY = refuse` the entry is refused;
otherwise the slot is cleared, the configured save runs, and the pc is the routine's address. -/
def Obligations.PendingInterruptIsTaken : Prop :=
  ∀ (s a : State) (n : Fin 8192) (bseg boff : List Byte) (seg off : Value), a = s.arrive →
    a.pending = some n → a.cells.fIe = true → a.cells.fV8 = false → cr0Pg a.cells.cr0 = false →
    bseg.length = 2 → boff.length = 2 →
    Readable a a.cells.cr0 .read (BitVec.ofNat 32 (a.cfg.idtBase.toNat + 4 * n.val)) bseg →
    Readable a a.cells.cr0 .read (BitVec.ofNat 32 (a.cfg.idtBase.toNat + 4 * n.val + 2)) boff →
    Carries a.cfg.byteOrder seg bseg → Carries a.cfg.byteOrder off boff →
    (0xFF < seg.toNat → step s = .refused .interruptTargetTooWide) ∧
    (seg.toNat ≤ 0xFF → a.cfg.intEntry = .refuse → step s = .refused (.interruptEntryUnmodelled n)) ∧
    (seg.toNat ≤ 0xFF → ∀ entry ret u, a.cfg.intEntry = .save entry ret →
      entryActions a.cells.cr0 entry { a with pending := none } = .ok u →
      step s = .next (u.setPc (BitVec.ofNat 24 (seg.toNat * 0x10000 + off.toNat))))

/-- The spec's example of a configured save (R144) with the return that must match it (R150), both the model's own
assumption (log 12). The entry clears F.ie and changes no other flag and not the pc; a RET in any handler state with the
entry's SP and memory, and the SS, CR0 and MB of the interrupted state, leads to the return point, and the return from
there gives the interrupted pc, F and SP back and leaves every other register as the handler had it. The step at the
return point is that return, under every configured entry. -/
def Obligations.ConfiguredEntrySavesPcAndFlags : Prop :=
  (∀ (s t : State) (cr0 : BitVec 24) (point : CodeAddr), s.cfg.ioModel = .refuse →
    entryActions cr0 (exampleEntry s.cfg point) s = .ok t →
    t.cells.fIe = false ∧ (∀ b, b ≠ 6 → t.cells.f.getLsbD b = s.cells.f.getLsbD b) ∧ t.cells.pc = s.cells.pc ∧
    ∀ h : State, h.cfg = s.cfg → h.code = s.code → h.mem = t.mem → h.bank = t.bank → h.cells.sp = t.cells.sp →
      h.cells.ss = s.cells.ss → h.cells.cr0 = cr0 → h.cells.mb = s.cells.mb →
      ∃ u w, exec (.ret .none) h = .next u ∧ u.cells = { h.cells with pc := point, spx := u.cells.spx } ∧
        entryActions cr0 (exampleReturn s.cfg point).acts u = .ok w ∧
        w.cells = { h.cells with
          pc := s.cells.pc
          f := s.cells.f
          spx := withLow16 h.cells.spx s.cells.sp } ∧
        OnlyCells h w) ∧
  (∀ (s : State) (entry : List EntryAction) (ret : IntReturn), s.cfg.intEntry = .save entry ret →
    s.arrive.takeable = none → s.cells.fHalt = false → s.cells.fV8 = false → cr0Pg s.cells.cr0 = false →
    s.cells.pc = ret.point → step s = outcome (entryActions s.cells.cr0 ret.acts s.arrive))

/-- R158, R160: a halted core with no request to take executes no instruction: only the interrupt source's choice
lands, and all other state survives (log 9). A state is final exactly when it is halted and no run from it takes an
interrupt. -/
def Obligations.HaltedCoreIdles : Prop :=
  ∀ s : State,
    (s.cells.fHalt = true → s.arrive.takeable = none → step s = .next s.arrive) ∧
    (s.final = true ↔ s.cells.fHalt = true ∧ ∀ t, Reaches s t → ∀ n, t.arrive.turn ≠ .interrupt n)

/-- R153 and 10_state.md R44: an instruction or interrupt step with F.v8 = 1 is refused, and so is one with CR0.pg = 1
(log 10 for the order). -/
def Obligations.UnmodelledModesRefuseEveryStep : Prop :=
  ∀ s : State, s.arrive.turn ≠ .idle →
    (s.cells.fV8 = true → step s = .refused .virtualBcg8Unmodelled) ∧
    (s.cells.fV8 = false → cr0Pg s.cells.cr0 = true → step s = .refused .pagingUnmodelled)

/-! ### Invariants -/

/-- 10_state.md R51: right after reset no request is pending. No byte of memory holds a value, and memory is canonical:
the model's choice, log 4. -/
def Obligations.ResetHasNoRequestAndCanonicalMemory : Prop :=
  State.reset.pending = none ∧ (∀ pl, State.reset.byteAt pl = none) ∧ State.reset.memWf = true

/-- Every step keeps the canonical form of both byte stores (the model's form, log 4 and 5). -/
def Obligations.StepKeepsMemoryCanonical : Prop :=
  ∀ s t : State, s.memWf = true → step s = .next t → t.memWf = true

/-- 00_scope.md R11, 20_memory.md R82, 10_state.md R47: no step changes the configuration, the code set or CR1 bit 0. -/
def Obligations.StepKeepsConfigurationCodeSetAndBiosBit : Prop :=
  ∀ s t : State, step s = .next t → t.cfg = s.cfg ∧ t.code = s.code ∧ t.cells.cr1.getLsbD 0 = s.cells.cr1.getLsbD 0

/-- 20_memory.md R82: program bytes are immutable for a run: no run of steps changes a byte at an address of the code
set, in the store or in any bank. -/
def Obligations.CodeBytesNeverChange : Prop :=
  ∀ s t : State, Reaches s t → ∀ pl : Place, pl.wf = true → s.inCode pl.addr = true → t.byteAt pl = s.byteAt pl

/-- 20_memory.md R64, R69: no run of steps changes a byte of the character set: a write there faults in protected mode
and is refused outside it. -/
def Obligations.CharacterSetNeverChanges : Prop :=
  ∀ s t : State, Reaches s t → ∀ p, 0x038000 ≤ p → p ≤ 0x03FFFF → t.mem.read p = s.mem.read p
end

