-- ==== Sys2Proof/Laws/Bytes.lean ====
section
/-! SUPPORT. Bytes to number and back, in both byte orders; register references and arguments as bytes. -/
namespace Sys2Proof

@[simp] theorem bytesOfNatLE_length (n v : Nat) : (bytesOfNatLE n v).length = n := by
  induction n generalizing v with
  | zero => rfl
  | succ n ih => simp [bytesOfNatLE, ih]

theorem natOfBytesLE_lt (bs : List Byte) : natOfBytesLE bs < 256 ^ bs.length := by
  induction bs with
  | nil => simp [natOfBytesLE]
  | cons b bs ih =>
    have := b.isLt
    simp only [natOfBytesLE, List.length_cons, Nat.pow_succ]
    omega

/-- The bytes of a number stand for the number modulo their width. -/
@[simp] theorem natOfBytesLE_bytesOfNatLE (n v : Nat) : natOfBytesLE (bytesOfNatLE n v) = v % 256 ^ n := by
  induction n generalizing v with
  | zero => simp [bytesOfNatLE, natOfBytesLE, Nat.mod_one]
  | succ n ih =>
    simp only [bytesOfNatLE, natOfBytesLE, ih, BitVec.toNat_ofNat]
    rw [show 256 ^ (n + 1) = 256 * 256 ^ n by rw [Nat.pow_succ, Nat.mul_comm], Nat.mod_mul]

/-- The number that bytes stand for has those bytes. -/
@[simp] theorem bytesOfNatLE_natOfBytesLE (bs : List Byte) : bytesOfNatLE bs.length (natOfBytesLE bs) = bs := by
  induction bs with
  | nil => rfl
  | cons b bs ih =>
    have hb := b.isLt
    simp only [List.length_cons, bytesOfNatLE, natOfBytesLE]
    rw [show (b.toNat + 256 * natOfBytesLE bs) / 256 = natOfBytesLE bs by omega, ih]
    congr 1
    apply BitVec.eq_of_toNat_eq
    simp; omega

@[simp] theorem ByteOrder.arrange_length (o : ByteOrder) (bs : List Byte) : (o.arrange bs).length = bs.length := by
  cases o <;> simp [ByteOrder.arrange]

@[simp] theorem ByteOrder.arrange_arrange (o : ByteOrder) (bs : List Byte) : o.arrange (o.arrange bs) = bs := by
  cases o <;> simp [ByteOrder.arrange]

@[simp] theorem ByteOrder.bytesOfNat_length (o : ByteOrder) (n v : Nat) : (o.bytesOfNat n v).length = n := by
  simp [ByteOrder.bytesOfNat]

@[simp] theorem ByteOrder.natOfBytes_bytesOfNat (o : ByteOrder) (n v : Nat) :
    o.natOfBytes (o.bytesOfNat n v) = v % 256 ^ n := by
  simp [ByteOrder.natOfBytes, ByteOrder.bytesOfNat]

@[simp] theorem ByteOrder.bytesOfNat_natOfBytes (o : ByteOrder) (bs : List Byte) :
    o.bytesOfNat bs.length (o.natOfBytes bs) = bs := by
  rw [← ByteOrder.arrange_length o bs, ByteOrder.natOfBytes, ByteOrder.bytesOfNat, bytesOfNatLE_natOfBytesLE,
    ByteOrder.arrange_arrange]

theorem ByteOrder.natOfBytes_lt (o : ByteOrder) (bs : List Byte) : o.natOfBytes bs < 256 ^ bs.length := by
  simpa [ByteOrder.natOfBytes] using natOfBytesLE_lt (o.arrange bs)

/-- A mode's code names the mode. -/
@[simp] theorem Mode.ofCode_code (m : Mode) : Mode.ofCode m.code = some m := by cases m <;> rfl

/-- A code that names a mode is the mode's code. -/
theorem Mode.code_of_ofCode {x : Byte} {m : Mode} (h : Mode.ofCode x = some m) : m.code = x := by
  simpa using List.find?_some h

@[simp] theorem RegRef.encode_length (cfg : Cfg) (r : RegRef) : (r.encode cfg).length = cfg.regidBytes := by
  simp [RegRef.encode]

/-- The payload of an argument has the length its mode gives (R92). -/
@[simp] theorem Arg.payload_length (cfg : Cfg) (a : Arg) : (a.payload cfg).length = a.mode.plen cfg := by
  cases a <;> simp [Arg.payload, Arg.mode, Mode.plen, Nat.two_mul]

@[simp] theorem RetArg.payload_length (cfg : Cfg) (a : RetArg) : (a.payload cfg).length = a.mode.plen cfg := by
  cases a <;> simp [RetArg.payload, RetArg.mode, Mode.plen]

@[simp] theorem CallTarget.payload_length (cfg : Cfg) (a : CallTarget) :
    (a.payload cfg).length = a.mode.plen cfg := by
  cases a <;> simp [CallTarget.payload, CallTarget.mode, Mode.plen]

/-- An argument is never mode None. -/
@[simp] theorem Arg.mode_ne_none (a : Arg) : a.mode ≠ .none := by cases a <;> simp [Arg.mode]

end Sys2Proof
end

