-- ==== Sys2Proof/Laws/Run.lean ====
section
/-! SUPPORT. Taking apart a run: the bind lemma, once, and what the outcome of a run says. -/
namespace Sys2Proof.Machine

/-- A sequence that succeeds is two runs that succeed. -/
theorem Run.bind_eq_ok {α β : Type} {x : Run α} {f : α → Run β} {b : β} :
    (x >>= f) = .ok b ↔ ∃ a, x = .ok a ∧ f a = .ok b := by
  cases x with
  | error e => simp [bind, Except.bind]
  | ok a => simp [bind, Except.bind]

@[simp] theorem Run.ok_bind {α β : Type} (a : α) (f : α → Run β) : ((.ok a : Run α) >>= f) = f a := rfl

@[simp] theorem Run.error_bind {α β : Type} (e : Stop) (f : α → Run β) : ((.error e : Run α) >>= f) = .error e := rfl

theorem outcome_eq_next {r : Run State} {t : State} : outcome r = .next t ↔ r = .ok t := by
  cases r with
  | ok s => simp [outcome]
  | error e => cases e <;> simp [outcome]

@[simp] theorem outcome_ok (s : State) : outcome (.ok s) = .next s := rfl
@[simp] theorem outcome_fault (f : Fault) : outcome (.error (.fault f)) = .fault f := rfl
@[simp] theorem outcome_refuse (r : Refusal) : outcome (.error (.refuse r)) = .refused r := rfl

end Sys2Proof.Machine
end

