-- ==== Sys2Proof/Laws/State.lean ====
section
/-! SUPPORT. One lemma per field per update of the state, all by unfolding once: later proofs cite these. -/
namespace Sys2Proof.Machine

section SetCells
variable (s : State) (c : Cells)
@[simp] theorem State.setCells_cells : (s.setCells c).cells = c := rfl
@[simp] theorem State.setCells_cfg : (s.setCells c).cfg = s.cfg := rfl
@[simp] theorem State.setCells_pending : (s.setCells c).pending = s.pending := rfl
@[simp] theorem State.setCells_mem : (s.setCells c).mem = s.mem := rfl
@[simp] theorem State.setCells_bank : (s.setCells c).bank = s.bank := rfl
@[simp] theorem State.setCells_code : (s.setCells c).code = s.code := rfl
@[simp] theorem State.setCells_irqs : (s.setCells c).irqs = s.irqs := rfl
@[simp] theorem State.setCells_ioDraws : (s.setCells c).ioDraws = s.ioDraws := rfl
@[simp] theorem State.setCells_ioOut : (s.setCells c).ioOut = s.ioOut := rfl
@[simp] theorem State.setCells_self : s.setCells s.cells = s := rfl
@[simp] theorem State.setCells_setCells (c' : Cells) : (s.setCells c).setCells c' = s.setCells c' := rfl
end SetCells

section SetReg
variable (s : State) (r : Reg) (v : Value)
@[simp] theorem State.setReg_cells : (s.setReg r v).cells = s.cells.write r v := rfl
@[simp] theorem State.setReg_cfg : (s.setReg r v).cfg = s.cfg := rfl
@[simp] theorem State.setReg_pending : (s.setReg r v).pending = s.pending := rfl
@[simp] theorem State.setReg_mem : (s.setReg r v).mem = s.mem := rfl
@[simp] theorem State.setReg_bank : (s.setReg r v).bank = s.bank := rfl
@[simp] theorem State.setReg_code : (s.setReg r v).code = s.code := rfl
@[simp] theorem State.setReg_irqs : (s.setReg r v).irqs = s.irqs := rfl
@[simp] theorem State.setReg_ioDraws : (s.setReg r v).ioDraws = s.ioDraws := rfl
@[simp] theorem State.setReg_ioOut : (s.setReg r v).ioOut = s.ioOut := rfl
end SetReg

section SetPc
variable (s : State) (t : CodeAddr)
@[simp] theorem State.setPc_cells : (s.setPc t).cells = { s.cells with pc := t } := rfl
@[simp] theorem State.setPc_cfg : (s.setPc t).cfg = s.cfg := rfl
@[simp] theorem State.setPc_pending : (s.setPc t).pending = s.pending := rfl
@[simp] theorem State.setPc_mem : (s.setPc t).mem = s.mem := rfl
@[simp] theorem State.setPc_bank : (s.setPc t).bank = s.bank := rfl
@[simp] theorem State.setPc_code : (s.setPc t).code = s.code := rfl
@[simp] theorem State.setPc_irqs : (s.setPc t).irqs = s.irqs := rfl
@[simp] theorem State.setPc_ioDraws : (s.setPc t).ioDraws = s.ioDraws := rfl
@[simp] theorem State.setPc_ioOut : (s.setPc t).ioOut = s.ioOut := rfl
end SetPc

section SetSp
variable (s : State) (v : BitVec 16)
@[simp] theorem State.setSp_cells : (s.setSp v).cells = { s.cells with spx := withLow16 s.cells.spx v } := rfl
@[simp] theorem State.setSp_cfg : (s.setSp v).cfg = s.cfg := rfl
@[simp] theorem State.setSp_pending : (s.setSp v).pending = s.pending := rfl
@[simp] theorem State.setSp_mem : (s.setSp v).mem = s.mem := rfl
@[simp] theorem State.setSp_bank : (s.setSp v).bank = s.bank := rfl
@[simp] theorem State.setSp_code : (s.setSp v).code = s.code := rfl
@[simp] theorem State.setSp_irqs : (s.setSp v).irqs = s.irqs := rfl
@[simp] theorem State.setSp_ioDraws : (s.setSp v).ioDraws = s.ioDraws := rfl
@[simp] theorem State.setSp_ioOut : (s.setSp v).ioOut = s.ioOut := rfl
end SetSp

/-- The low half written is the low half read. -/
@[simp] theorem withLow16_low (x : BitVec 32) (v : BitVec 16) : (withLow16 x v).setWidth 16 = v := by
  apply BitVec.eq_of_getLsbD_eq
  intro i hi
  simp only [withLow16, BitVec.getLsbD_setWidth, BitVec.getLsbD_append]
  simp [hi]

/-- A low half written twice is the one written last. -/
@[simp] theorem withLow16_withLow16 (x : BitVec 32) (v w : BitVec 16) : withLow16 (withLow16 x v) w = withLow16 x w := by
  apply BitVec.eq_of_getLsbD_eq
  intro i hi
  simp only [withLow16, BitVec.getLsbD_append, BitVec.getLsbD_extractLsb']
  split
  · rfl
  · congr 1
    have : ¬ 16 + (i - 16) < 16 := by omega
    simp only [this, if_false]
    simp; omega

/-- Writing the low half that is there changes nothing. -/
@[simp] theorem withLow16_self (x : BitVec 32) : withLow16 x (x.setWidth 16) = x := by
  apply BitVec.eq_of_getLsbD_eq
  intro i hi
  simp only [withLow16, BitVec.getLsbD_append, BitVec.getLsbD_extractLsb', BitVec.getLsbD_setWidth]
  split
  · simp [*]
  · rw [show 16 + (i - 16) = i by omega]
    simp; omega

@[simp] theorem Cells.sp_withLow16 (c : Cells) (v : BitVec 16) :
    ({ c with spx := withLow16 c.spx v } : Cells).sp = v := withLow16_low _ _

end Sys2Proof.Machine
end

