-- ==== Sys2Proof/Laws/Memory.lean ====
section
/-! SUPPORT. Laws of the byte store and of the access primitives: read after write, canonical form, what a checked
access can do. -/
namespace Sys2Proof.Machine

/-! ### The byte store -/

@[simp] theorem Memory.read_write_same (m : Memory) (a : Nat) (v : Byte) : (m.write a v).read a = some v := by
  induction m with
  | nil => simp [Memory.write, Memory.read]
  | cons e rest ih =>
    obtain ⟨k, b⟩ := e
    simp only [Memory.write]
    split
    · simp [Memory.read]
    · split
      · simp [Memory.read]
      · have : ¬ k = a := by omega
        simp [Memory.read, this, ih]

theorem Memory.read_write_other (m : Memory) {a a' : Nat} (v : Byte) (h : a' ≠ a) :
    (m.write a v).read a' = m.read a' := by
  induction m with
  | nil => simp [Memory.write, Memory.read, Ne.symm h]
  | cons e rest ih =>
    obtain ⟨k, b⟩ := e
    simp only [Memory.write]
    split
    · simp [Memory.read, Ne.symm h]
    · split
      · subst_vars; simp [Memory.read, Ne.symm h]
      · simp [Memory.read, ih]

theorem Memory.wf_cons {k : Nat} {b : Byte} {m : Memory} (hm : m.wf = true) (hk : ∀ e ∈ m.head?, k < e.1) :
    Memory.wf ((k, b) :: m) = true := by
  cases m with
  | nil => rfl
  | cons e rest => simp [Memory.wf, hm, hk e (by simp)]

theorem Memory.wf_tail {e : Host.Cell} {m : Memory} (h : Memory.wf (e :: m) = true) :
    m.wf = true ∧ ∀ e' ∈ m.head?, e.1 < e'.1 := by
  cases m with
  | nil => simp [Memory.wf]
  | cons e' rest => simpa [Memory.wf, and_comm] using h

theorem Memory.write_head (m : Memory) (a : Nat) (v : Byte) (e : Host.Cell) (h : e ∈ (m.write a v).head?) :
    e.1 = a ∨ e ∈ m.head? := by
  cases m with
  | nil => simp [Memory.write] at h; simp [← h]
  | cons x rest =>
    obtain ⟨k, b⟩ := x
    simp only [Memory.write] at h
    split at h
    · simp at h; simp [← h]
    · split at h <;> simp at h <;> simp [← h]

/-- A write keeps the canonical form. -/
theorem Memory.write_wf (m : Memory) (a : Nat) (v : Byte) (h : m.wf = true) : (m.write a v).wf = true := by
  induction m with
  | nil => rfl
  | cons e rest ih =>
    obtain ⟨k, b⟩ := e
    obtain ⟨hr, hk⟩ := Memory.wf_tail h
    simp only [Memory.write]
    split
    · exact Memory.wf_cons h (by simpa)
    · split
      · subst_vars; exact Memory.wf_cons hr hk
      · refine Memory.wf_cons (ih hr) fun e he => ?_
        rcases Memory.write_head rest a v e he with h1 | h1
        · omega
        · exact hk e h1

/-! ### Places -/

section WritePlace
variable (s : State) (pl : Place) (v : Byte)
@[simp] theorem State.writePlace_cells : (s.writePlace pl v).cells = s.cells := by cases pl <;> rfl
@[simp] theorem State.writePlace_cfg : (s.writePlace pl v).cfg = s.cfg := by cases pl <;> rfl
@[simp] theorem State.writePlace_pending : (s.writePlace pl v).pending = s.pending := by cases pl <;> rfl
@[simp] theorem State.writePlace_code : (s.writePlace pl v).code = s.code := by cases pl <;> rfl
@[simp] theorem State.writePlace_irqs : (s.writePlace pl v).irqs = s.irqs := by cases pl <;> rfl
@[simp] theorem State.writePlace_ioDraws : (s.writePlace pl v).ioDraws = s.ioDraws := by cases pl <;> rfl
end WritePlace

section WritePlaces
variable (s : State) (w : List (Place × Byte))
@[simp] theorem State.writePlaces_nil : s.writePlaces [] = s := rfl
@[simp] theorem State.writePlaces_cons (pl : Place) (v : Byte) :
    s.writePlaces ((pl, v) :: w) = (s.writePlace pl v).writePlaces w := rfl
@[simp] theorem State.writePlaces_cells : (s.writePlaces w).cells = s.cells := by
  induction w generalizing s with
  | nil => rfl
  | cons e rest ih => simp [State.writePlaces, ih]
@[simp] theorem State.writePlaces_cfg : (s.writePlaces w).cfg = s.cfg := by
  induction w generalizing s with
  | nil => rfl
  | cons e rest ih => simp [State.writePlaces, ih]
@[simp] theorem State.writePlaces_pending : (s.writePlaces w).pending = s.pending := by
  induction w generalizing s with
  | nil => rfl
  | cons e rest ih => simp [State.writePlaces, ih]
@[simp] theorem State.writePlaces_code : (s.writePlaces w).code = s.code := by
  induction w generalizing s with
  | nil => rfl
  | cons e rest ih => simp [State.writePlaces, ih]
@[simp] theorem State.writePlaces_irqs : (s.writePlaces w).irqs = s.irqs := by
  induction w generalizing s with
  | nil => rfl
  | cons e rest ih => simp [State.writePlaces, ih]
@[simp] theorem State.writePlaces_ioDraws : (s.writePlaces w).ioDraws = s.ioDraws := by
  induction w generalizing s with
  | nil => rfl
  | cons e rest ih => simp [State.writePlaces, ih]
end WritePlaces

theorem State.writePlace_memWf {s : State} (pl : Place) (v : Byte) (h : s.memWf = true) :
    (s.writePlace pl v).memWf = true := by
  simp only [State.memWf, Bool.and_eq_true] at h ⊢
  cases pl with
  | ram p => exact ⟨Memory.write_wf _ _ _ h.1, h.2⟩
  | bank b o => exact ⟨h.1, Memory.write_wf _ _ _ h.2⟩
  | port p => exact h

theorem State.writePlaces_memWf {s : State} (w : List (Place × Byte)) (h : s.memWf = true) :
    (s.writePlaces w).memWf = true := by
  induction w generalizing s with
  | nil => exact h
  | cons e rest ih => exact ih (State.writePlace_memWf _ _ h)

theorem bankKey_inj {b o b' o' : Nat} (ho : o < 0x80000) (ho' : o' < 0x80000) (h : bankKey b o = bankKey b' o') :
    b = b' ∧ o = o' := by
  simp only [bankKey] at h; omega

/-- A byte written at a place that is no port is the byte there. -/
theorem State.byteAt_writePlace_same (s : State) (pl : Place) (v : Byte) (h : ∀ p, pl ≠ .port p) :
    (s.writePlace pl v).byteAt pl = some v := by
  cases pl with
  | ram p => simp [State.writePlace, State.byteAt]
  | bank b o => simp [State.writePlace, State.byteAt]
  | port p => exact absurd rfl (h p)

/-- A byte written at one place leaves every other place alone. -/
theorem State.byteAt_writePlace_other (s : State) {pl pl' : Place} (v : Byte) (h : pl' ≠ pl) (hw : pl.wf = true)
    (hw' : pl'.wf = true) : (s.writePlace pl v).byteAt pl' = s.byteAt pl' := by
  cases pl with
  | ram p =>
    cases pl' with
    | ram p' =>
      exact Memory.read_write_other _ _ (fun e => h (by rw [e]))
    | bank _ _ => rfl
    | port _ => rfl
  | bank b o =>
    cases pl' with
    | ram _ => rfl
    | bank b' o' =>
      refine Memory.read_write_other _ _ (fun e => h ?_)
      simp only [Place.wf, decide_eq_true_eq] at hw hw'
      obtain ⟨rfl, rfl⟩ := bankKey_inj hw' hw e
      rfl
    | port _ => rfl
  | port p => cases pl' <;> rfl

theorem State.byteAt_writePlaces_other (s : State) {pl : Place} (w : List (Place × Byte)) (hw : pl.wf = true)
    (h : ∀ e ∈ w, e.1 ≠ pl ∧ e.1.wf = true) : (s.writePlaces w).byteAt pl = s.byteAt pl := by
  induction w generalizing s with
  | nil => rfl
  | cons e rest ih =>
    rw [State.writePlaces, ih _ (fun e he => h e (List.mem_cons_of_mem _ he))]
    have := h e (List.mem_cons_self ..)
    exact State.byteAt_writePlace_other _ _ (Ne.symm this.1) this.2 hw

/-! ### One byte access -/

theorem phys_lt {ov : AddrOverflow} {cr0 : BitVec 24} {lin : Linear} {p : Nat} (h : phys ov cr0 lin = .ok p) :
    p < 2 ^ addressWidth cr0 ∧ p = lin.toNat % 2 ^ addressWidth cr0 := by
  unfold phys at h
  split at h
  · cases h; exact ⟨‹_›, (Nat.mod_eq_of_lt ‹_›).symm⟩
  · cases ov with
    | refuse => cases h
    | wrap => cases h; exact ⟨Nat.mod_lt _ (Nat.two_pow_pos _), rfl⟩

theorem addressWidth_bounds (cr0 : BitVec 24) : 16 ≤ addressWidth cr0 ∧ addressWidth cr0 ≤ 24 := by
  unfold addressWidth; split <;> [simp; (split <;> simp)]

theorem regionOf_banked {p : Nat} (h : regionOf p = .banked) : 0x080000 ≤ p ∧ p < 0x100000 := by
  unfold regionOf at h
  repeat (split at h; · cases h)
  split at h
  · omega
  · cases h

/-- Everything a code check that succeeds can be. -/
theorem codeCheck_cases {s : State} {k : Access} {p : Nat} {pl pl' : Place} (h : codeCheck s k p pl = .ok pl') :
    pl' = pl ∧ (k = .write → s.inCode p = false) ∧ (k = .fetch → s.inCode p = true) := by
  unfold codeCheck at h
  cases k with
  | read => cases h; exact ⟨rfl, by simp, by simp⟩
  | write =>
    simp only at h
    split at h
    · cases h
    · cases h; exact ⟨rfl, by simp_all, by simp⟩
  | fetch =>
    simp only at h
    split at h
    · cases h; exact ⟨rfl, by simp, by simp_all⟩
    · cases h

/-- Everything a region check that succeeds can be: a byte of the store or of a bank, within the code rules and with no
write to the character set, or a port that is drawn from. -/
theorem regionCheck_cases {s : State} {cr0 : BitVec 24} {k : Access} {p : Nat} {pl : Place}
    (h : regionCheck s cr0 k p = .ok pl) :
    ((regionOf p).isProtected = true → cr0Pm cr0 = false) ∧
    ((pl = .ram p ∧ regionOf p ≠ .ioPorts ∧ regionOf p ≠ .banked ∧ (regionOf p = .charSet → k ≠ .write) ∧
        (k = .write → s.inCode p = false) ∧ (k = .fetch → s.inCode p = true)) ∨
      (pl = .bank (mbEff cr0 s.cells.mb).toNat (p - 0x080000) ∧ regionOf p = .banked ∧ s.cfg.bankModel = .banked ∧
        (k = .write → s.inCode p = false) ∧ (k = .fetch → s.inCode p = true)) ∨
      (pl = .port p ∧ regionOf p = .ioPorts ∧ s.cfg.ioModel = .draw ∧ k ≠ .fetch)) := by
  unfold regionCheck at h
  split at h
  · cases h
  · rename_i hp
    refine ⟨by simpa using hp, ?_⟩
    cases hr : regionOf p <;> simp only [hr] at h
    · cases k <;> cases hio : s.cfg.ioModel <;> simp only [hio] at h <;> cases h <;> simp
    · obtain ⟨rfl, h1, h2⟩ := codeCheck_cases h; simp_all
    · split at h
      · cases h
      · obtain ⟨rfl, h1, h2⟩ := codeCheck_cases h; simp_all
    · obtain ⟨rfl, h1, h2⟩ := codeCheck_cases h; simp_all
    · cases hb : s.cfg.bankModel <;> simp only [hb] at h
      · cases h
      · obtain ⟨rfl, h1, h2⟩ := codeCheck_cases h; simp_all

/-- Everything a byte check that succeeds can be (20_memory.md R65). -/
theorem checkByte_cases {s : State} {cr0 : BitVec 24} {k : Access} {lin : Linear} {pl : Place}
    (h : checkByte s cr0 k lin = .ok pl) :
    cr0Pg cr0 = false ∧ ∃ p, phys s.cfg.addrOverflow cr0 lin = .ok p ∧ disputed p = false ∧
      regionCheck s cr0 k p = .ok pl := by
  unfold checkByte at h
  split at h
  · cases h
  · rename_i hpg
    split at h
    · cases h
    · rename_i p hp
      split at h
      · cases h
      · exact ⟨by simpa using hpg, p, hp, by simp_all, h⟩

/-- The place of a checked byte has the byte's physical address and exists. -/
theorem checkByte_place {s : State} {cr0 : BitVec 24} {k : Access} {lin : Linear} {pl : Place}
    (h : checkByte s cr0 k lin = .ok pl) : pl.wf = true ∧ pl.addr = lin.toNat % 2 ^ addressWidth cr0 := by
  obtain ⟨-, p, hp, -, hr⟩ := checkByte_cases h
  obtain ⟨-, rfl⟩ := phys_lt hp
  obtain ⟨-, ⟨rfl, -⟩ | ⟨rfl, hb, -⟩ | ⟨rfl, -⟩⟩ := regionCheck_cases hr
  · exact ⟨rfl, rfl⟩
  · have := regionOf_banked hb
    exact ⟨by simp [Place.wf]; omega, by simp [Place.addr]; omega⟩
  · exact ⟨rfl, rfl⟩

/-- A byte check reads nothing of the state but the configuration, MB and the code set. -/
theorem checkByte_congr {s t : State} (hc : t.cfg = s.cfg) (hm : t.cells.mb = s.cells.mb) (hk : t.code = s.code)
    (cr0 : BitVec 24) (k : Access) (lin : Linear) : checkByte t cr0 k lin = checkByte s cr0 k lin := by
  have hi : ∀ p, t.inCode p = s.inCode p := fun p => by simp [State.inCode, hk]
  simp [checkByte, regionCheck, codeCheck, hi, hc, hm]

/-- Everything a read of a checked byte can do. -/
theorem State.readPlace_cases {s s' : State} {pl : Place} {b : Byte} (h : s.readPlace pl = .ok (b, s')) :
    (s' = s ∧ s.byteAt pl = some b) ∨
      ∃ p, pl = .port p ∧ b = Config.ioByte s.ioDraws ∧ s' = { s with ioDraws := s.ioDraws + 1 } := by
  unfold State.readPlace at h
  split at h
  · cases h; exact .inr ⟨_, rfl, rfl, rfl⟩
  · split at h
    · cases h; exact .inl ⟨rfl, ‹_›⟩
    · cases h

/-! ### The access primitives -/

/-- Everything a read of bytes can do: it gives as many bytes as asked for and changes at most the port counter. -/
theorem readBytes_cases {cr0 : BitVec 24} {k : Access} {n : Nat} {lin : Linear} {s s' : State} {bs : List Byte}
    (h : readBytes cr0 k n lin s = .ok (bs, s')) :
    bs.length = n ∧ s' = { s with ioDraws := s'.ioDraws } := by
  induction n generalizing lin s bs with
  | zero => cases h; exact ⟨rfl, rfl⟩
  | succ n ih =>
    simp only [readBytes, Run.bind_eq_ok, Prod.exists] at h
    obtain ⟨pl, -, b, s1, h1, bs', s2, h2, h3⟩ := h
    cases h3
    obtain ⟨hl, hs⟩ := ih h2
    refine ⟨by simp [hl], ?_⟩
    rcases State.readPlace_cases h1 with ⟨rfl, -⟩ | ⟨p, -, -, rfl⟩
    · exact hs
    · rw [hs]

/-- Everything a memory read can do (R70). -/
theorem memRead_cases {cr0 : BitVec 24} {lin : Linear} {n : Nat} {s s' : State} {v : Value}
    (h : memRead cr0 lin n s = .ok (v, s')) :
    blockCheck cr0 lin n = .ok () ∧ s' = { s with ioDraws := s'.ioDraws } ∧
      ∃ bs, readBytes cr0 .read n lin s = .ok (bs, s') ∧ bs.length = n ∧
        v = BitVec.ofNat 64 (s.cfg.byteOrder.natOfBytes bs) := by
  simp only [memRead, Run.bind_eq_ok, Prod.exists] at h
  obtain ⟨_, h0, bs, s1, h1, h2⟩ := h
  cases h2
  obtain ⟨hl, hs⟩ := readBytes_cases h1
  exact ⟨h0, hs, bs, h1, hl, rfl⟩

/-- The places of checked bytes: one a byte, each the check's own. -/
theorem checkBytes_cases {s : State} {cr0 : BitVec 24} {k : Access} {n : Nat} {lin : Linear} {pls : List Place}
    (h : checkBytes s cr0 k n lin = .ok pls) :
    pls.length = n ∧ ∀ (i : Nat) (hi : i < pls.length), checkByte s cr0 k (lin + BitVec.ofNat 32 i) = .ok pls[i] := by
  induction n generalizing lin pls with
  | zero => cases h; exact ⟨rfl, by simp⟩
  | succ n ih =>
    simp only [checkBytes, Run.bind_eq_ok] at h
    obtain ⟨pl, h1, pls', h2, h3⟩ := h
    cases h3
    obtain ⟨hl, hp⟩ := ih h2
    refine ⟨by simp [hl], fun i hi => ?_⟩
    cases i with
    | zero => simpa using h1
    | succ i =>
      have := hp i (by simpa using hi)
      rw [List.getElem_cons_succ, ← this]
      congr 1
      rw [BitVec.add_assoc]; congr 1
      apply BitVec.eq_of_toNat_eq; simp [Nat.add_comm]

/-- Everything a memory write can do (R71): all bytes checked, then all stored. -/
theorem memWrite_cases {cr0 : BitVec 24} {lin : Linear} {n : Nat} {v : Value} {s s' : State}
    (h : memWrite cr0 lin n v s = .ok s') :
    blockCheck cr0 lin n = .ok () ∧ ∃ pls, checkBytes s cr0 .write n lin = .ok pls ∧ pls.length = n ∧
      s' = s.writePlaces (pls.zip (s.cfg.byteOrder.bytesOfNat n v.toNat)) := by
  simp only [memWrite, Run.bind_eq_ok] at h
  obtain ⟨_, h0, pls, h1, h2⟩ := h
  cases h2
  exact ⟨h0, pls, h1, (checkBytes_cases h1).1, rfl⟩

/-- A memory write changes the stores and the output events only. -/
theorem memWrite_frame {cr0 : BitVec 24} {lin : Linear} {n : Nat} {v : Value} {s s' : State}
    (h : memWrite cr0 lin n v s = .ok s') :
    s'.cells = s.cells ∧ s'.cfg = s.cfg ∧ s'.pending = s.pending ∧ s'.code = s.code ∧ s'.irqs = s.irqs ∧
      s'.ioDraws = s.ioDraws := by
  obtain ⟨-, pls, -, -, rfl⟩ := memWrite_cases h
  simp

/-- A memory write keeps the canonical form. -/
theorem memWrite_memWf {cr0 : BitVec 24} {lin : Linear} {n : Nat} {v : Value} {s s' : State}
    (h : memWrite cr0 lin n v s = .ok s') (hw : s.memWf = true) : s'.memWf = true := by
  obtain ⟨-, pls, -, -, rfl⟩ := memWrite_cases h
  exact State.writePlaces_memWf _ hw

/-- A memory write leaves alone every byte that is none of the n it addresses. -/
theorem memWrite_other {cr0 : BitVec 24} {lin : Linear} {n : Nat} {v : Value} {s s' : State}
    (h : memWrite cr0 lin n v s = .ok s') {pl : Place} (hw : pl.wf = true)
    (hn : ∀ i, i < n → checkByte s cr0 .write (lin + BitVec.ofNat 32 i) ≠ .ok pl) : s'.byteAt pl = s.byteAt pl := by
  obtain ⟨-, pls, h1, hl, rfl⟩ := memWrite_cases h
  refine State.byteAt_writePlaces_other _ _ hw fun e he => ?_
  obtain ⟨-, hp⟩ := checkBytes_cases h1
  have hm : e.1 ∈ pls := (List.of_mem_zip (b := e.2) he).1
  obtain ⟨i, hi, hie⟩ := List.getElem_of_mem hm
  have := hp i hi
  rw [hie] at this
  exact ⟨fun e' => hn i (by omega) (by rw [this, e']), (checkByte_place this).1⟩

end Sys2Proof.Machine
end

