-- ==== Sys2Proof/Laws/Ops.lean ====
section
/-! SUPPORT. What the stack operations and the interrupt operations can do, said once for each. -/
namespace Sys2Proof.Machine

/-- Everything a push can do (R120). -/
theorem push_cases {cr0 : BitVec 24} {n : Nat} {v : Value} {s t : State} (h : push cr0 n v s = .ok t) :
    slotFits n (pushSlot s.cfg.stackDir s.cfg.stackEmpty n s.cells.sp.toNat) = true ∧
      ∃ s1, memWrite cr0 (stackAddr s (pushSlot s.cfg.stackDir s.cfg.stackEmpty n s.cells.sp.toNat).1) n v s = .ok s1 ∧
        t = s1.setSp (BitVec.ofInt 16 (pushSlot s.cfg.stackDir s.cfg.stackEmpty n s.cells.sp.toNat).2) := by
  unfold push at h
  simp only at h
  split at h
  · rename_i hf
    simp only [Run.bind_eq_ok] at h
    obtain ⟨s1, h1, h2⟩ := h
    cases h2
    exact ⟨hf, s1, h1, rfl⟩
  · cases h

/-- Everything a pop can do (R121). -/
theorem pop_cases {cr0 : BitVec 24} {n : Nat} {v : Value} {s t : State} (h : pop cr0 n s = .ok (v, t)) :
    slotFits n (popSlot s.cfg.stackDir s.cfg.stackEmpty n s.cells.sp.toNat) = true ∧
      ∃ s1, memRead cr0 (stackAddr s (popSlot s.cfg.stackDir s.cfg.stackEmpty n s.cells.sp.toNat).1) n s
          = .ok (v, s1) ∧
        t = s1.setSp (BitVec.ofInt 16 (popSlot s.cfg.stackDir s.cfg.stackEmpty n s.cells.sp.toNat).2) := by
  unfold pop at h
  simp only at h
  split at h
  · rename_i hf
    simp only [Run.bind_eq_ok, Prod.exists] at h
    obtain ⟨v', s1, h1, h2⟩ := h
    cases h2
    exact ⟨hf, s1, h1, rfl⟩
  · cases h

/-- Everything a release can do (R122). -/
theorem release_cases {n : Nat} {s t : State} (h : release n s = .ok t) :
    inStack (releaseSp s.cfg.stackDir n s.cells.sp.toNat) = true ∧
      t = s.setSp (BitVec.ofInt 16 (releaseSp s.cfg.stackDir n s.cells.sp.toNat)) := by
  unfold release at h
  simp only at h
  split at h
  · cases h; exact ⟨‹_›, rfl⟩
  · cases h

theorem nameReg_cases {cr0 : BitVec 24} {r r' : Reg} (h : nameReg cr0 r = .ok r') : r' = r ∧ r.enabled cr0 = true := by
  unfold nameReg at h
  split at h
  · cases h; exact ⟨rfl, ‹_›⟩
  · cases h

theorem readNamed_cases {s : State} {cr0 : BitVec 24} {r : Reg} {v : Value} (h : s.readNamed cr0 r = .ok v) :
    v = s.cells.read r ∧ r.enabled cr0 = true := by
  unfold State.readNamed at h
  split at h
  · cases h; exact ⟨rfl, ‹_›⟩
  · cases h

theorem readAll_cases {cr0 : BitVec 24} {s : State} {rs : List Reg} {vs : List Value}
    (h : readAll cr0 s rs = .ok vs) : vs = rs.map s.cells.read ∧ ∀ r ∈ rs, r.enabled cr0 = true := by
  induction rs generalizing vs with
  | nil => cases h; simp
  | cons r rs ih =>
    simp only [readAll, Run.bind_eq_ok] at h
    obtain ⟨v, h1, vs', h2, h3⟩ := h
    cases h3
    obtain ⟨rfl, he⟩ := readNamed_cases h1
    obtain ⟨rfl, hes⟩ := ih h2
    exact ⟨rfl, by simpa [he] using hes⟩

/-- The interrupt source's choice changes the slot and the choices to come only. -/
theorem State.arrive_frame (s : State) :
    s.arrive = { s with pending := s.arrive.pending, irqs := s.irqs.tail } := by
  cases s
  unfold State.arrive
  split
  · simp_all
  · split <;> simp_all

/-- A request lands in an empty slot and no other (60_exceptions.md R140). -/
theorem State.arrive_pending (s : State) :
    s.arrive.pending = match s.pending with
      | some n => some n
      | none => s.irqs.head?.join := by
  unfold State.arrive
  split
  · simp_all; split <;> simp_all
  · split <;> simp_all

/-- Everything taking an interrupt can do (R143). -/
theorem takeInterrupt_cases {n : Fin 8192} {s t : State} (h : takeInterrupt n s = .ok t) :
    ∃ seg s1 off s2 s3, memRead s.cells.cr0 (idtEntry s.cfg n) 2 s = .ok (seg, s1) ∧
      memRead s.cells.cr0 (idtEntry s.cfg n + 2) 2 s1 = .ok (off, s2) ∧
      (linear (seg.setWidth 16) (off.setWidth 16)).extractLsb' 24 8 = 0 ∧
      saveOnEntry s.cells.cr0 n { s2 with pending := none } = .ok s3 ∧
      t = s3.setPc ((linear (seg.setWidth 16) (off.setWidth 16)).setWidth 24) := by
  simp only [takeInterrupt, Run.bind_eq_ok, Prod.exists] at h
  obtain ⟨seg, s1, h1, off, s2, h2, h3⟩ := h
  split at h3
  · cases h3
  · rename_i hz
    simp only [Run.bind_eq_ok] at h3
    obtain ⟨s3, h4, h5⟩ := h3
    cases h5
    exact ⟨seg, s1, off, s2, s3, h1, h2, by simpa using hz, h4, rfl⟩

/-- Everything an interrupt entry's save can do (R144). -/
theorem saveOnEntry_cases {cr0 : BitVec 24} {n : Fin 8192} {s t : State} (h : saveOnEntry cr0 n s = .ok t) :
    ∃ entry ret, s.cfg.intEntry = .save entry ret ∧ entryActions cr0 entry s = .ok t := by
  unfold saveOnEntry at h
  split at h
  · cases h
  · exact ⟨_, _, ‹_›, h⟩

/-- Computing a value of interrupt entry or return changes the state only by drawing from ports. -/
theorem evalEntry_frame {cr0 : BitVec 24} {e : EntryExpr} {v : Value} {s t : State}
    (h : evalEntry cr0 e s = .ok (v, t)) : t = { s with ioDraws := t.ioDraws } := by
  induction e generalizing s t v with
  | const => cases h; rfl
  | reg => cases h; rfl
  | mem addr n ih =>
    simp only [evalEntry, Run.bind_eq_ok, Prod.exists] at h
    obtain ⟨_, s1, h1, h2⟩ := h
    rw [(memRead_cases h2).2.1, ih h1]
  | not _ ih =>
    simp only [evalEntry, Run.bind_eq_ok, Prod.exists] at h
    obtain ⟨_, s1, h1, h2⟩ := h
    cases h2; exact ih h1
  | shr _ _ ih =>
    simp only [evalEntry, Run.bind_eq_ok, Prod.exists] at h
    obtain ⟨_, s1, h1, h2⟩ := h
    cases h2; exact ih h1
  | and _ _ iha ihb | add _ _ iha ihb | eq _ _ iha ihb =>
    simp only [evalEntry, Run.bind_eq_ok, Prod.exists] at h
    obtain ⟨_, s1, h1, _, s2, h2, h3⟩ := h
    cases h3; rw [ihb h2, iha h1]
  | ite _ _ _ ihc iha ihb =>
    simp only [evalEntry, Run.bind_eq_ok, Prod.exists] at h
    obtain ⟨_, s1, h1, h2⟩ := h
    split at h2
    · rw [ihb h2, ihc h1]
    · rw [iha h2, ihc h1]

/-- Setting a register in interrupt entry or return either is refused or writes it. -/
theorem setEntryReg_cases {r : Reg} {v : Value} {s t : State} (h : setEntryReg r v s = .ok t) :
    (r = .PC → v.toNat < 2 ^ 24) ∧ t = s.setReg r v := by
  unfold setEntryReg at h
  split at h
  · cases h
  · cases h
    exact ⟨fun hr => by simp_all, rfl⟩

/-- A relation that every register write, push, pop, store and port draw keeps, and that is transitive, holds between the
states before and after any actions of interrupt entry or return. -/
theorem entryActions_induct {R : State → State → Prop} (refl : ∀ s, R s s)
    (trans : ∀ {s t u}, R s t → R t u → R s u) (draw : ∀ s k, R s { s with ioDraws := k })
    (setReg : ∀ s r v, R s (s.setReg r v)) (push : ∀ {cr0 n v s t}, push cr0 n v s = .ok t → R s t)
    (pop : ∀ {cr0 n v s t}, pop cr0 n s = .ok (v, t) → R s t)
    (write : ∀ {cr0 lin n v s t}, memWrite cr0 lin n v s = .ok t → R s t) {cr0 : BitVec 24}
    {acts : List EntryAction} {s t : State} (h : entryActions cr0 acts s = .ok t) : R s t := by
  have eval : ∀ {e v s t}, evalEntry cr0 e s = .ok (v, t) → R s t := fun h => by rw [evalEntry_frame h]; exact draw _ _
  have one : ∀ a {s t}, entryAction cr0 a s = .ok t → R s t := by
    intro a
    induction a with
    | push n e =>
      intro s t h
      simp only [entryAction, Run.bind_eq_ok, Prod.exists] at h
      obtain ⟨_, s1, h1, h2⟩ := h
      exact trans (eval h1) (push h2)
    | pop n r =>
      intro s t h
      simp only [entryAction, Run.bind_eq_ok, Prod.exists] at h
      obtain ⟨_, s1, h1, h2⟩ := h
      rw [(setEntryReg_cases h2).2]; exact trans (pop h1) (setReg _ _ _)
    | store addr n e =>
      intro s t h
      simp only [entryAction, Run.bind_eq_ok, Prod.exists] at h
      obtain ⟨_, s1, h1, _, s2, h2, h3⟩ := h
      exact trans (trans (eval h1) (eval h2)) (write h3)
    | set r e =>
      intro s t h
      simp only [entryAction, Run.bind_eq_ok, Prod.exists] at h
      obtain ⟨_, s1, h1, h2⟩ := h
      rw [(setEntryReg_cases h2).2]; exact trans (eval h1) (setReg _ _ _)
    | when c a ih =>
      intro s t h
      simp only [entryAction, Run.bind_eq_ok, Prod.exists] at h
      obtain ⟨_, s1, h1, h2⟩ := h
      split at h2
      · cases h2; exact eval h1
      · exact trans (eval h1) (ih h2)
  induction acts generalizing s with
  | nil => cases h; exact refl _
  | cons a rest ih =>
    simp only [entryActions, Run.bind_eq_ok] at h
    obtain ⟨s1, h1, h2⟩ := h
    exact trans (one a h1) (ih h2)

/-- Everything the return from an interrupt can do (R150, log 12). -/
theorem returnFromInterrupt_cases {s t : State} (h : returnFromInterrupt s = .ok t) :
    (s.cfg.intEntry = .refuse ∧ t = s) ∨
      ∃ entry ret, s.cfg.intEntry = .save entry ret ∧ entryActions s.cells.cr0 ret.acts s = .ok t := by
  unfold returnFromInterrupt at h
  split at h
  · cases h; exact .inl ⟨‹_›, rfl⟩
  · exact .inr ⟨_, _, ‹_›, h⟩

theorem modeCheck_cases {s : State} (h : modeCheck s = .ok ()) : s.cells.fV8 = false ∧ cr0Pg s.cells.cr0 = false := by
  unfold modeCheck at h
  split at h
  · cases h
  · split at h
    · cases h
    · simp_all

/-- What every launch state has, whatever `LAUNCH` assigns (10_state.md R51; 70_reset_and_hazards.md R162): canonical
memory, no request, the pc at `RESET_PC`. -/
theorem State.launch_facts (cfg : Cfg) :
    (State.launch cfg).memWf = true ∧ (State.launch cfg).pending = none ∧ (State.launch cfg).cells.pc = cfg.resetPc := by
  have key : ∀ {α : Type} (f : α → Nat) (g : α → Byte) (l : List α) (m : Memory), m.wf = true →
      (l.foldl (fun m a => m.write (f a) (g a)) m).wf = true := by
    intro α f g l
    induction l with
    | nil => exact fun _ h => h
    | cons a rest ih => exact fun m h => ih _ (Memory.write_wf _ _ _ h)
  refine ⟨?_, rfl, rfl⟩
  simp only [State.launch, State.memWf, Bool.and_eq_true]
  exact ⟨key _ _ _ _ rfl, key (fun a : Nat × Nat × Byte => bankKey a.1 a.2.1) _ _ _ rfl⟩

end Sys2Proof.Machine
end

