-- ==== Sys2Proof/Laws/Step.lean ====
section
/-! SUPPORT. What a meaning and a step can do, said once: the inversion lemmas of exec's five meanings and of step. -/
namespace Sys2Proof.Machine

/-- Everything a MOV between operands can do (R114). -/
theorem moveOperands_cases {next : CodeAddr} {d sr : Operand} {s t : State} (h : moveOperands next d sr s = .ok t) :
    (d.isPc = false ∧ sr.isPc = false) ∧ floatIntClash d sr = false ∧
      ∃ w v s1 s2, moveWidth s.cfg.immExtend d sr = .ok w ∧ sr.value s w = .ok (v, s1) ∧
        d.store s1 w (loadedValue s.cfg.fLoad d sr v) = .ok s2 ∧ t = s2.setPc next := by
  unfold moveOperands at h
  split at h
  · cases h
  · split at h
    · cases h
    · simp only [Run.bind_eq_ok, Prod.exists] at h
      obtain ⟨w, h1, v, s1, h2, s2, h3, h4⟩ := h
      cases h4
      exact ⟨by simpa using ‹¬(d.isPc || sr.isPc) = true›, by simp_all, w, v, s1, s2, h1, h2, h3, rfl⟩

/-- Only a memory value for F is truncated (R102). -/
@[simp] theorem loadedValue_imm (fl : FLoad) (d : Operand) (w : Nat) (v x : Value) (b : Bool) :
    loadedValue fl d (.imm w v b) x = x := by
  unfold loadedValue; split <;> simp_all

@[simp] theorem loadedValue_reg (fl : FLoad) (d : Operand) (r : Reg) (x : Value) : loadedValue fl d (.reg r) x = x := by
  unfold loadedValue; split <;> simp_all

@[simp] theorem loadedValue_toMem (fl : FLoad) (lin : Linear) (sr : Operand) (x : Value) :
    loadedValue fl (.mem lin) sr x = x := by
  unfold loadedValue; split <;> simp_all

/-- Storing a loaded value does to a register what storing the value does, where it is stored at all: F takes the low 20
bits either way (R102, R114). -/
theorem store_loadedValue {s t : State} {w : Nat} {v : Value} {fl : FLoad} {d sr : Operand}
    (h : d.store s w (loadedValue fl d sr v) = .ok t) :
    (∀ r, d = .reg r → t = s.setReg r v) ∧ (∀ lin, d = .mem lin → memWrite s.cells.cr0 lin (w / 8) v s = .ok t) := by
  refine ⟨fun r hd => ?_, fun lin hd => ?_⟩
  · subst hd
    simp only [Operand.store] at h
    split at h
    · cases h
    · cases h
      cases fl <;> cases r <;> cases sr <;> first | rfl | simp [loadedValue, State.setReg, Cells.write]
  · subst hd
    cases fl <;> exact h

/-- Everything MOV can do (R114). -/
theorem execMov_cases {dst src : Arg} {s t : State} (h : exec (.mov dst src) s = .next t) :
    dst.mode.isImm = false ∧ ∃ d sr, operand s (pcNext s (.mov dst src)) dst = .ok d ∧
      operand s (pcNext s (.mov dst src)) src = .ok sr ∧
      moveOperands (pcNext s (.mov dst src)) d sr s = .ok t := by
  have h : movRun dst src s = .ok t := outcome_eq_next.mp h
  unfold movRun at h
  split at h
  · cases h
  · simp only [Run.bind_eq_ok] at h
    obtain ⟨d, h1, sr, h2, h3⟩ := h
    exact ⟨by simp_all, d, sr, h1, h2, h3⟩

theorem returnTo_cases {cfg : Cfg} {ra : Value} {s t : State} (h : returnTo cfg ra s = .ok t) :
    (cfg.retaddrBytes = .four → ra.extractLsb' 24 8 = 0) ∧ t = s.setPc (ra.setWidth 24) := by
  unfold returnTo at h
  split at h
  · cases h
  · rename_i hc
    cases h
    refine ⟨fun h4 => ?_, rfl⟩
    by_contra hne
    exact hc ⟨h4, hne⟩

/-- Everything RET can do (R116). -/
theorem execRet_cases {off : RetArg} {s t : State} (h : exec (.ret off) s = .next t) :
    ∃ ra s1 s2, t = s2.setPc (ra.setWidth 24) ∧ (s.cfg.retaddrBytes = .four → ra.extractLsb' 24 8 = 0) ∧
      ((s.cfg.retOrder = .releaseThenPop ∧ release (retOffset off) s = .ok s1 ∧
          pop s.cells.cr0 (retAddrCount s.cfg.retaddrBytes) s1 = .ok (ra, s2)) ∨
        (s.cfg.retOrder = .popThenRelease ∧ pop s.cells.cr0 (retAddrCount s.cfg.retaddrBytes) s = .ok (ra, s1) ∧
          release (retOffset off) s1 = .ok s2)) := by
  have h : retRun off s = .ok t := outcome_eq_next.mp h
  unfold retRun at h
  simp only at h
  cases ho : s.cfg.retOrder <;> simp only [ho, Run.bind_eq_ok, Prod.exists] at h
  · obtain ⟨s1, h1, ra, s2, h2, h3⟩ := h
    obtain ⟨h4, rfl⟩ := returnTo_cases h3
    exact ⟨ra, s1, s2, rfl, h4, .inl ⟨rfl, h1, h2⟩⟩
  · obtain ⟨ra, s1, h1, s2, h2, h3⟩ := h
    obtain ⟨h4, rfl⟩ := returnTo_cases h3
    exact ⟨ra, s1, s2, rfl, h4, .inr ⟨rfl, h1, h2⟩⟩

/-- Everything CALL can do (R123). -/
theorem execCall_cases {tg : CallTarget} {s t : State} (h : exec (.call tg) s = .next t) :
    (callTarget s (pcNext s (.call tg)) tg).extractLsb' 24 8 = 0 ∧
      ∃ s1, push s.cells.cr0 (retAddrCount s.cfg.retaddrBytes) ((pcNext s (.call tg)).setWidth 64) s = .ok s1 ∧
        t = s1.setPc ((callTarget s (pcNext s (.call tg)) tg).setWidth 24) := by
  have h : callRun tg s = .ok t := outcome_eq_next.mp h
  unfold callRun callTo at h
  simp only at h
  split at h
  · cases h
  · rename_i hz
    simp only [Run.bind_eq_ok] at h
    obtain ⟨s1, h1, h2⟩ := h
    cases h2
    exact ⟨by simpa using hz, s1, h1, rfl⟩

/-- Everything PUSHR can do (R126). -/
theorem execPushr_cases {s t : State} (h : exec .pushr s = .next t) :
    ∃ rs s1, s.cfg.pushrList = some rs ∧ (∀ r ∈ rs, r.enabled s.cells.cr0 = true) ∧
      pushAll s.cells.cr0 (rs.zip (rs.map s.cells.read)) s = .ok s1 ∧ t = s1.setPc (pcNext s .pushr) := by
  have h : pushrRun s = .ok t := outcome_eq_next.mp h
  unfold pushrRun at h
  split at h
  · cases h
  · rename_i rs hl
    simp only [Run.bind_eq_ok] at h
    obtain ⟨vs, h1, s1, h2, h3⟩ := h
    cases h3
    obtain ⟨rfl, he⟩ := readAll_cases h1
    exact ⟨rs, s1, hl, he, h2, rfl⟩

/-- Everything POPR can do (R127). -/
theorem execPopr_cases {s t : State} (h : exec .popr s = .next t) :
    ∃ rs s1, s.cfg.pushrList = some rs ∧ popAll s.cells.cr0 rs.reverse s = .ok s1 ∧
      t = s1.setPc (pcNext s .popr) := by
  have h : poprRun s = .ok t := outcome_eq_next.mp h
  unfold poprRun at h
  split at h
  · cases h
  · rename_i rs hl
    simp only [Run.bind_eq_ok] at h
    obtain ⟨s1, h1, h2⟩ := h
    cases h2
    exact ⟨rs, s1, hl, h1, rfl⟩

/-- Everything a step can do: the interrupt source's choice, then a request taken, a halted core idle, a handler's return,
or the fetched instruction executed. -/
theorem step_cases {s t : State} (h : step s = .next t) :
    (∃ n, s.arrive.turn = .interrupt n ∧ modeCheck s.arrive = .ok () ∧ takeInterrupt n s.arrive = .ok t) ∨
    (s.arrive.turn = .idle ∧ t = s.arrive) ∨
    (s.arrive.turn = .interruptReturn ∧ modeCheck s.arrive = .ok () ∧ returnFromInterrupt s.arrive = .ok t) ∨
    (∃ i, s.arrive.turn = .instruction ∧ fetchInstr s.arrive = .ok i ∧ exec i s.arrive = .next t) := by
  unfold step at h
  simp only at h
  split at h
  · rename_i n hn
    have h := outcome_eq_next.mp h
    simp only [interruptStep, Run.bind_eq_ok] at h
    obtain ⟨_, h1, h2⟩ := h
    exact .inl ⟨n, hn, h1, h2⟩
  · cases h; exact .inr (.inl ⟨‹_›, rfl⟩)
  · have h := outcome_eq_next.mp h
    simp only [interruptReturnStep, Run.bind_eq_ok] at h
    obtain ⟨_, h1, h2⟩ := h
    exact .inr (.inr (.inl ⟨‹_›, h1, h2⟩))
  · split at h
    · exact absurd (outcome_eq_next.mp h) (by simp)
    · exact .inr (.inr (.inr ⟨_, ‹_›, ‹_›, h⟩))

end Sys2Proof.Machine
end

