-- ==== Sys2Proof/Laws/Access.lean ====
section
/-! SUPPORT. Memory accesses and stack operations in the vocabulary of the statements: what a readable or storable span
of bytes gives the access primitives. -/
namespace Sys2Proof.Claims
open Sys2Proof.Machine

/-! ### Bytes of a value -/

theorem pow_256 (n : Nat) : 256 ^ n = 2 ^ (8 * n) := by rw [Nat.pow_mul]

theorem bytesOfNatLE_getElem? (n v : Nat) {i : Nat} (h : i < n) :
    (bytesOfNatLE n v)[i]? = some (BitVec.ofNat 8 (v / 256 ^ i)) := by
  induction n generalizing v i with
  | zero => omega
  | succ n ih =>
    cases i with
    | zero => simp [bytesOfNatLE]
    | succ i =>
      simp only [bytesOfNatLE, List.getElem?_cons_succ]
      rw [ih _ (by omega), Nat.div_div_eq_div_mul, Nat.pow_succ, Nat.mul_comm]

/-- The i-th byte of a value of n bytes, in either byte order. -/
theorem bytesOfNat_getElem? (o : ByteOrder) (n : Nat) (v : Value) {i : Nat} (h : i < n) :
    (o.bytesOfNat n v.toNat)[i]? = some (storedByte o n v i) := by
  have key : ∀ j, BitVec.ofNat 8 (v.toNat / 256 ^ j) = v.extractLsb' (8 * j) 8 := by
    intro j
    apply BitVec.eq_of_toNat_eq
    simp [BitVec.extractLsb'_toNat, Nat.shiftRight_eq_div_pow, Nat.pow_mul]
  cases o with
  | little =>
    simp only [ByteOrder.bytesOfNat, ByteOrder.arrange, storedByte]
    rw [bytesOfNatLE_getElem? _ _ h, key]
  | big =>
    simp only [ByteOrder.bytesOfNat, ByteOrder.arrange, storedByte]
    rw [List.getElem?_reverse (by simpa using h), bytesOfNatLE_length, bytesOfNatLE_getElem? _ _ (by omega), key]

/-- Bytes that carry a value stand for it. -/
theorem natOfBytes_of_carries {o : ByteOrder} {v : Value} {bs : List Byte} (h : Carries o v bs) :
    o.natOfBytes bs = v.toNat := by
  have hb : bs = o.bytesOfNat bs.length v.toNat := by
    apply List.ext_getElem?
    intro i
    by_cases hi : i < bs.length
    · rw [h.2 i hi, bytesOfNat_getElem? _ _ _ hi]
    · rw [List.getElem?_eq_none (by omega), List.getElem?_eq_none (by simp; omega)]
  rw [hb, ByteOrder.natOfBytes_bytesOfNat, pow_256]
  exact Nat.mod_eq_of_lt h.1

/-! ### Readable and storable spans -/

theorem linear_succ (lin : Linear) (i : Nat) : lin + BitVec.ofNat 32 (i + 1) = lin + 1 + BitVec.ofNat 32 i := by
  apply BitVec.eq_of_toNat_eq; simp [BitVec.toNat_add]; omega

theorem blockCheck_of_inBlock {cr0 : BitVec 24} {lin : Linear} {n : Nat} (h1 : cr0Pg cr0 = false)
    (h2 : InBlock lin n) : blockCheck cr0 lin n = .ok () := by
  have : ¬ 0xFFFF < lin.toNat % 0x10000 + n - 1 := by unfold InBlock at h2; omega
  simp [blockCheck, h1, this]

theorem inBlock_of_blockCheck {cr0 : BitVec 24} {lin : Linear} {n : Nat} (h : blockCheck cr0 lin n = .ok ()) :
    cr0Pg cr0 = false ∧ InBlock lin n := by
  unfold blockCheck at h
  split at h
  · cases h
  · split at h
    · cases h
    · exact ⟨by simp_all, by unfold InBlock; omega⟩

/-- A byte that stands at an address is what reading its place gives, with no change of state. -/
theorem byteFor_eq_some {s : State} {cr0 : BitVec 24} {k : Access} {lin : Linear} {b : Byte}
    (h : byteFor s cr0 k lin = some b) : ∃ pl, checkByte s cr0 k lin = .ok pl ∧ s.readPlace pl = .ok (b, s) := by
  unfold byteFor at h
  split at h
  · rename_i pl hp
    refine ⟨pl, hp, ?_⟩
    cases pl <;> simp_all [State.byteAt, State.readPlace]
  · cases h

/-- Bytes that stand at consecutive addresses are what `readBytes` gives. -/
theorem readBytes_of_byteFor {s : State} {cr0 : BitVec 24} {k : Access} (bs : List Byte) (lin : Linear)
    (h : ∀ i, i < bs.length → byteFor s cr0 k (lin + BitVec.ofNat 32 i) = bs[i]?) :
    readBytes cr0 k bs.length lin s = .ok (bs, s) := by
  induction bs generalizing lin with
  | nil => rfl
  | cons b bs ih =>
    obtain ⟨pl, h1, h2⟩ := byteFor_eq_some (by simpa using h 0 (by simp))
    have := ih (lin + 1) (fun i hi => by
      have := h (i + 1) (by simpa using hi)
      rw [linear_succ] at this; simpa using this)
    have h1 : checkByte s cr0 k lin = .ok pl := by simpa using h1
    simp only [List.length_cons, readBytes, h1, Run.ok_bind, h2, this]

/-- A byte that stands at an address passes. -/
theorem passes_of_byteFor {s : State} {cr0 : BitVec 24} {k : Access} {lin : Linear}
    (h : (byteFor s cr0 k lin).isSome = true) : passes s cr0 k lin = true := by
  unfold byteFor at h
  unfold passes
  split at h
  · rename_i pl hp
    rw [hp]
    cases pl <;> first | rfl | exact h
  · cases h

/-- A byte access that passes is read, with no change of state but a draw from a port. -/
theorem readPlace_of_passes {s : State} {cr0 : BitVec 24} {k : Access} {lin : Linear}
    (h : passes s cr0 k lin = true) :
    ∃ pl b d, checkByte s cr0 k lin = .ok pl ∧ s.readPlace pl = .ok (b, { s with ioDraws := d }) := by
  unfold passes at h
  split at h
  · exact ⟨_, _, _, ‹_›, rfl⟩
  · rename_i pl hnp hp
    obtain ⟨b, hb⟩ := Option.isSome_iff_exists.mp h
    refine ⟨pl, b, s.ioDraws, hp, ?_⟩
    cases pl with
    | port p => exact absurd rfl (hnp p)
    | ram _ | bank _ _ => simp only [State.readPlace, hb]
  · cases h

/-- What stops a byte access does not depend on the draws before it. -/
theorem stop_of_draws {s : State} {cr0 : BitVec 24} {k : Access} {lin : Linear} {e : Stop} (d : Nat)
    (h : (checkByte s cr0 k lin >>= fun pl => s.readPlace pl) = .error e) :
    (checkByte { s with ioDraws := d } cr0 k lin >>= fun pl => State.readPlace { s with ioDraws := d } pl)
      = .error e := by
  rw [checkByte_congr (s := s) (t := { s with ioDraws := d }) rfl rfl rfl]
  cases hc : checkByte s cr0 k lin with
  | error e' => simpa [hc] using h
  | ok pl =>
    simp only [hc, Run.ok_bind] at h ⊢
    cases pl with
    | port _ => cases h
    | ram p =>
      simp only [State.readPlace, State.byteAt] at h ⊢
      split at h
      · cases h
      · simpa [‹s.mem.read p = none›] using h
    | bank b o =>
      simp only [State.readPlace, State.byteAt] at h ⊢
      split at h
      · cases h
      · simpa [‹s.bank.read (bankKey b o) = none›] using h

/-- The first byte that stops a read of consecutive bytes, at its check or for want of a value, is the read's stop. -/
theorem readBytes_of_stop {s : State} {cr0 : BitVec 24} {k : Access} {e : Stop} {n : Nat} (i : Nat) (lin : Linear)
    (hi : i < n) (h : ∀ j, j < i → passes s cr0 k (lin + BitVec.ofNat 32 j) = true)
    (he : (checkByte s cr0 k (lin + BitVec.ofNat 32 i) >>= fun pl => s.readPlace pl) = .error e) :
    readBytes cr0 k n lin s = .error e := by
  induction i generalizing lin n s with
  | zero =>
    obtain ⟨n, rfl⟩ : ∃ m, n = m + 1 := ⟨n - 1, by omega⟩
    have he : (checkByte s cr0 k lin >>= fun pl => s.readPlace pl) = .error e := by simpa using he
    cases hc : checkByte s cr0 k lin with
    | error e' => simp_all [readBytes]
    | ok pl => simp only [hc, Run.ok_bind] at he; simp [readBytes, hc, he]
  | succ i ih =>
    obtain ⟨n, rfl⟩ : ∃ m, n = m + 1 := ⟨n - 1, by omega⟩
    obtain ⟨pl, b, d, h1, h2⟩ := readPlace_of_passes (by simpa using h 0 (by omega))
    have hp : ∀ l, passes { s with ioDraws := d } cr0 k l = passes s cr0 k l := by
      intro l
      unfold passes
      rw [checkByte_congr (s := s) (t := { s with ioDraws := d }) rfl rfl rfl]
      rfl
    have := ih (n := n) (s := { s with ioDraws := d }) (lin + 1) (by omega)
      (fun j hj => by rw [hp, ← linear_succ]; exact h (j + 1) (by omega))
      (by rw [← linear_succ]; exact stop_of_draws d he)
    simp only [readBytes, h1, Run.ok_bind, h2, this, Run.error_bind]

/-- The first byte whose check fails is the stop of the checks of a write. -/
theorem checkBytes_of_stop {s : State} {cr0 : BitVec 24} {k : Access} {e : Stop} {n : Nat} (i : Nat) (lin : Linear)
    (hi : i < n) (h : ∀ j, j < i → ∃ pl, checkByte s cr0 k (lin + BitVec.ofNat 32 j) = .ok pl)
    (he : checkByte s cr0 k (lin + BitVec.ofNat 32 i) = .error e) : checkBytes s cr0 k n lin = .error e := by
  induction i generalizing lin n with
  | zero =>
    obtain ⟨n, rfl⟩ : ∃ m, n = m + 1 := ⟨n - 1, by omega⟩
    have he : checkByte s cr0 k lin = .error e := by simpa using he
    simp only [checkBytes, he, Run.error_bind]
  | succ i ih =>
    obtain ⟨n, rfl⟩ : ∃ m, n = m + 1 := ⟨n - 1, by omega⟩
    obtain ⟨pl, h0⟩ := h 0 (by omega)
    have h0 : checkByte s cr0 k lin = .ok pl := by simpa using h0
    have := ih (n := n) (lin + 1) (by omega)
      (fun j hj => by rw [← linear_succ]; exact h (j + 1) (by omega)) (by rw [← linear_succ]; exact he)
    simp only [checkBytes, h0, Run.ok_bind, this, Run.error_bind]

/-- Reading a place without a value that is no port is the fault ReadOfUnwritten (10_state.md R52). -/
theorem readPlace_of_unwritten {s : State} {pl : Place} (hp : ∀ p, pl ≠ .port p) (h : s.byteAt pl = none) :
    s.readPlace pl = .error (.fault (.readOfUnwritten pl.addr)) := by
  cases pl with
  | port p => exact absurd rfl (hp p)
  | ram _ | bank _ _ => simp [State.readPlace, h]

/-- What stands at an address depends on the configuration, MB, the code set and the two stores only. -/
theorem byteFor_congr {s t : State} (h1 : t.cfg = s.cfg) (h2 : t.cells.mb = s.cells.mb) (h3 : t.code = s.code)
    (h4 : t.mem = s.mem) (h5 : t.bank = s.bank) (cr0 : BitVec 24) (k : Access) (lin : Linear) :
    byteFor t cr0 k lin = byteFor s cr0 k lin := by
  have : ∀ pl, t.byteAt pl = s.byteAt pl := by intro pl; cases pl <;> simp [State.byteAt, h4, h5]
  simp only [byteFor, checkByte_congr h1 h2 h3, this]

theorem checkBytes_of_storable {s : State} {cr0 : BitVec 24} (n : Nat) (lin : Linear)
    (h : ∀ i, i < n → storable s cr0 (lin + BitVec.ofNat 32 i) = true) :
    ∃ pls, checkBytes s cr0 .write n lin = .ok pls := by
  induction n generalizing lin with
  | zero => exact ⟨[], rfl⟩
  | succ n ih =>
    have h0 := h 0 (by omega)
    simp only [storable] at h0
    split at h0
    · cases h0
    · rename_i pl _ hp
      obtain ⟨pls, hs⟩ := ih (lin + 1) (fun i hi => by rw [← linear_succ]; exact h _ (by omega))
      have hp : checkByte s cr0 .write lin = .ok pl := by simpa using hp
      exact ⟨pl :: pls, by simp only [checkBytes, hp, Run.ok_bind, hs]⟩
    · cases h0

/-- A storable span can be written. -/
theorem memWrite_of_storable {s : State} {cr0 : BitVec 24} {lin : Linear} {n : Nat} (h : Storable s cr0 lin n)
    (v : Value) : ∃ t, memWrite cr0 lin n v s = .ok t := by
  obtain ⟨pls, hp⟩ := checkBytes_of_storable n lin h.2.2
  exact ⟨_, by simp [memWrite, blockCheck_of_inBlock h.1 h.2.1, hp]; rfl⟩

/-- Two addresses of one place agree modulo 64 KB: a place has one physical address, of at least 16 bits. -/
theorem checkByte_mod_block {s : State} {cr0 : BitVec 24} {k k' : Access} {lin lin' : Linear} {pl : Place}
    (h : checkByte s cr0 k lin = .ok pl) (h' : checkByte s cr0 k' lin' = .ok pl) :
    lin.toNat % 65536 = lin'.toNat % 65536 := by
  have e := (checkByte_place h).2.symm.trans (checkByte_place h').2
  have hdvd : 65536 ∣ 2 ^ addressWidth cr0 := by
    have : (65536 : Nat) = 2 ^ 16 := by norm_num
    rw [this]; exact Nat.pow_dvd_pow 2 (addressWidth_bounds cr0).1
  exact Nat.ModEq.of_dvd hdvd e

/-- The places of the bytes of one 64 KB block are distinct. -/
theorem checkBytes_nodup {s : State} {cr0 : BitVec 24} {k : Access} {n : Nat} {lin : Linear} {pls : List Place}
    (hb : InBlock lin n) (h : checkBytes s cr0 k n lin = .ok pls) : pls.Nodup := by
  obtain ⟨hl, hp⟩ := checkBytes_cases h
  rw [List.nodup_iff_injective_getElem]
  intro ⟨i, hi⟩ ⟨j, hj⟩ hij
  simp only at hij
  have h2 := hp j hj
  rw [← hij] at h2
  have h3 := checkByte_mod_block (hp i hi) h2
  unfold InBlock at hb
  simp only [BitVec.toNat_add, BitVec.toNat_ofNat] at h3
  simp only [Fin.mk.injEq]
  omega

/-- Each of several distinct places that are no ports holds the byte written to it. -/
theorem byteAt_writePlaces {s : State} (w : List (Place × Byte)) (hd : (w.map (·.1)).Nodup)
    (hwf : ∀ e ∈ w, e.1.wf = true) (hp : ∀ e ∈ w, ∀ p, e.1 ≠ .port p) {pl : Place} {b : Byte} (h : (pl, b) ∈ w) :
    (s.writePlaces w).byteAt pl = some b := by
  induction w generalizing s with
  | nil => cases h
  | cons e rest ih =>
    obtain ⟨pl', b'⟩ := e
    simp only [List.map_cons, List.nodup_cons] at hd
    rcases List.mem_cons.mp h with h | h
    · cases h
      rw [State.writePlaces_cons, State.byteAt_writePlaces_other _ _ (hwf (pl, b) (by simp))]
      · exact State.byteAt_writePlace_same _ _ _ (hp (pl, b) (by simp))
      · intro e he
        refine ⟨fun hc => hd.1 ?_, hwf _ (by simp [he])⟩
        have hc : e.1 = pl := hc
        rw [← hc]; exact List.mem_map_of_mem he
    · exact ih hd.2 (fun e he => hwf e (by simp [he])) (fun e he => hp e (by simp [he])) h

theorem writePlaces_ioOut (w : List (Place × Byte)) (s : State) (h : ∀ e ∈ w, ∀ p, e.1 ≠ .port p) :
    (s.writePlaces w).ioOut = s.ioOut := by
  induction w generalizing s with
  | nil => rfl
  | cons e rest ih =>
    rw [State.writePlaces, ih _ (fun e he => h e (by simp [he]))]
    have := h e (by simp)
    obtain ⟨pl, b⟩ := e
    cases pl <;> simp_all [State.writePlace]

/-- A write of a storable span stores the value's bytes and changes nothing but bytes of memory. -/
theorem memWrite_holds {s t : State} {cr0 : BitVec 24} {lin : Linear} {n : Nat} {v : Value}
    (h : memWrite cr0 lin n v s = .ok t) (hnp : ∀ i, i < n → storable s cr0 (lin + BitVec.ofNat 32 i) = true) :
    HoldsAt s t cr0 lin n v ∧ RestSame s t := by
  obtain ⟨hbc, pls, h1, hl, rfl⟩ := memWrite_cases h
  have hb := (inBlock_of_blockCheck hbc).2
  obtain ⟨-, hp⟩ := checkBytes_cases h1
  have hmem : ∀ e ∈ pls.zip (s.cfg.byteOrder.bytesOfNat n v.toNat), e.1.wf = true ∧ ∀ p, e.1 ≠ .port p := by
    intro e he
    obtain ⟨i, hi, hie⟩ := List.getElem_of_mem (List.of_mem_zip (b := e.2) he).1
    have h2 := hp i hi
    rw [hie] at h2
    refine ⟨(checkByte_place h2).1, fun p hc => ?_⟩
    have := hnp i (by omega)
    simp [storable, h2, hc] at this
  refine ⟨fun i hi pl hpl => ?_, ?_⟩
  · refine byteAt_writePlaces _ ?_ (fun e he => (hmem e he).1) (fun e he => (hmem e he).2) ?_
    · rw [List.map_fst_zip (by simp [hl])]; exact checkBytes_nodup hb h1
    · have h3 := hp i (by omega)
      rw [hpl] at h3
      have h4 : pls[i]'(by omega) = pl := by injection h3 with h3; exact h3.symm
      rw [List.mem_iff_getElem?]
      refine ⟨i, ?_⟩
      rw [List.getElem?_zip_eq_some]
      exact ⟨by rw [List.getElem?_eq_getElem (by omega), h4], bytesOfNat_getElem? _ _ _ hi⟩
  · exact ⟨by simp, by simp, by simp, by simp, by simp, writePlaces_ioOut _ _ (fun e he => (hmem e he).2)⟩

/-- A byte that may be stored to may be read, at the same place. -/
theorem checkByte_read_of_write {s : State} {cr0 : BitVec 24} {lin : Linear} {pl : Place}
    (h : checkByte s cr0 .write lin = .ok pl) : checkByte s cr0 .read lin = .ok pl := by
  obtain ⟨hpg, p, hp, hd, hr⟩ := checkByte_cases h
  have : regionCheck s cr0 .read p = .ok pl := by
    obtain ⟨hpm, h1⟩ := regionCheck_cases hr
    unfold regionCheck at hr ⊢
    by_cases hc : ((regionOf p).isProtected && cr0Pm cr0) = true
    · simp [hc] at hr
    · simp only [hc] at hr ⊢
      cases hreg : regionOf p <;> simp_all [codeCheck]
  simp [checkByte, hpg, hp, hd, this]

/-- With `IO_MODEL = refuse`, what a write wrote to was storable. -/
theorem storable_of_memWrite {s t : State} {cr0 : BitVec 24} {lin : Linear} {n : Nat} {v : Value}
    (hio : s.cfg.ioModel = .refuse) (h : memWrite cr0 lin n v s = .ok t) : Storable s cr0 lin n := by
  obtain ⟨hbc, pls, h1, hl, rfl⟩ := memWrite_cases h
  obtain ⟨-, hp⟩ := checkBytes_cases h1
  obtain ⟨h2, h3⟩ := inBlock_of_blockCheck hbc
  refine ⟨h2, h3, fun i hi => ?_⟩
  have h4 := hp i (by omega)
  have h5 : ∀ p, pls[i]'(by omega) ≠ .port p := by
    intro p hc
    rw [hc] at h4
    obtain ⟨-, q, -, -, hr⟩ := checkByte_cases h4
    obtain ⟨-, h6⟩ := regionCheck_cases hr
    simp [hio] at h6
  simp only [storable, h4]

/-! ### The stack -/

/-- A segment and an offset as one number (20_memory.md R54). -/
theorem linear_eq (seg off : BitVec 16) : linear seg off = BitVec.ofNat 32 (seg.toNat * 0x10000 + off.toNat) := by
  apply BitVec.eq_of_toNat_eq
  have h1 := seg.isLt
  have h2 := off.isLt
  simp only [linear, BitVec.toNat_append, BitVec.toNat_ofNat]
  rw [Nat.shiftLeft_eq, Nat.mul_comm, ← Nat.two_pow_add_eq_or_of_lt h2]
  omega

/-- A pop's slot after a push of the same size is the push's. -/
theorem popSlot_pushSlot (dir : StackDir) (empty : Bool) (n : Nat) (x : Int) :
    popSlot dir empty n (pushSlot dir empty n x).2 = ((pushSlot dir empty n x).1, x) := by
  cases dir <;> cases empty <;> simp [pushSlot, popSlot]

theorem ofInt_toNat {x : Int} (h0 : 0 ≤ x) (h1 : x ≤ 0xFFFF) : ((BitVec.ofInt 16 x).toNat : Int) = x := by
  simp [BitVec.toNat_ofInt]; omega

/-- A push onto a storable slot completes, and what it does. -/
theorem push_of_storable {s : State} {cr0 : BitVec 24} {n : Nat} {v : Value}
    (hf : slotFits n (pushSlotOf s n) = true) (hst : Storable s cr0 (stackAddr s (pushSlotOf s n).1) n) :
    ∃ t, push cr0 n v s = .ok t ∧
      t.cells = { s.cells with spx := withLow16 s.cells.spx (BitVec.ofInt 16 (pushSlotOf s n).2) } ∧
      HoldsAt s t cr0 (stackAddr s (pushSlotOf s n).1) n v ∧
      OnlyBytesAt s t cr0 (stackAddr s (pushSlotOf s n).1) n ∧ RestSame s t := by
  obtain ⟨u, hu⟩ := memWrite_of_storable hst v
  obtain ⟨a1, a2⟩ := memWrite_holds hu hst.2.2
  refine ⟨u.setSp (BitVec.ofInt 16 (pushSlotOf s n).2), ?_, ?_, ?_, ?_, a2⟩
  · simp only [push]; rw [if_pos hf, hu]; rfl
  · simp [(memWrite_frame hu).1]
  · intro i hi pl hpl
    rw [← a1 i hi pl hpl]; cases pl <;> rfl
  · intro pl hw hne
    rw [← memWrite_other hu hw hne]; cases pl <;> rfl

/-- A pop changes SP and the port counter only. -/
theorem pop_frame {cr0 : BitVec 24} {n : Nat} {v : Value} {s t : State} (h : pop cr0 n s = .ok (v, t)) :
    ∃ w d, t = { s with ioDraws := d, cells := { s.cells with spx := withLow16 s.cells.spx w } } := by
  obtain ⟨-, s1, h1, rfl⟩ := pop_cases h
  obtain ⟨-, h2, -⟩ := memRead_cases h1
  exact ⟨_, s1.ioDraws, by rw [h2]; rfl⟩

/-! ### 24-bit targets -/

theorem high8_eq_zero {w : Nat} {x : BitVec w} (h : x.toNat < 2 ^ 24) : x.extractLsb' 24 8 = 0 := by
  apply BitVec.eq_of_toNat_eq
  rw [BitVec.extractLsb'_toNat, Nat.shiftRight_eq_div_pow, Nat.div_eq_of_lt h]; rfl

theorem high8_ne_zero {w : Nat} {x : BitVec w} (h : 2 ^ 24 ≤ x.toNat) (h' : x.toNat < 2 ^ 32) :
    x.extractLsb' 24 8 ≠ 0 := by
  intro hc
  have := congrArg BitVec.toNat hc
  rw [BitVec.extractLsb'_toNat, Nat.shiftRight_eq_div_pow] at this
  have h0 : (0 : BitVec 8).toNat = 0 := rfl
  omega

end Sys2Proof.Claims
end

