-- ==== Sys2Proof/Laws/PerInstr.lean ====
section
/-! SUPPORT. Statements made instruction by instruction. -/

/-- The encoding of an instruction has the length `len = 3 + plen(A) + plen(B)` (spec/30_encoding.md R106). -/
def Sys2Proof.Laws.EncodeLength.Statement (i : Sys2Proof.Instr) : Prop :=
  ∀ cfg : Sys2Proof.Cfg, (Sys2Proof.encode cfg i).length = i.len cfg

namespace Sys2Proof.Laws.EncodeLength

theorem mov (dst src : Arg) : Statement (.mov dst src) := by
  intro cfg
  simp [encode, Instr.len, Instr.modes, Instr.payload]
  omega

theorem ret (offset : RetArg) : Statement (.ret offset) := by
  intro cfg
  simp [encode, Instr.len, Instr.modes, Instr.payload, Mode.plen]
  omega

theorem call (target : CallTarget) : Statement (.call target) := by
  intro cfg
  simp [encode, Instr.len, Instr.modes, Instr.payload, Mode.plen]
  omega

theorem pushr : Statement .pushr := fun _ => rfl

theorem popr : Statement .popr := fun _ => rfl

end Sys2Proof.Laws.EncodeLength
end

