-- ==== Sys2Proof/Laws/Registers.lean ====
section
/-! SUPPORT. Register views bit by bit: a name's value depends on its cell bits only, and a write to a name leaves every
other cell bit alone (spec/10_state.md R13). -/
namespace Sys2Proof.Machine

/-- Bit `lo + i` of the storage cell that `cell` names. -/
def Cells.bit (c : Cells) (cell : Reg) (lo i : Nat) : Bool := (c.read cell).getLsbD (lo + i)

/-- A name that R13 lists as a storage cell. -/
def isStorageCell (q : Reg) : Bool := q.cellBits == [⟨q, 0, q.width⟩]

/-- The bits behind every name are bits of storage cells. -/
theorem cellBits_isStorageCell (q : Reg) : ∀ x ∈ q.cellBits, isStorageCell x.cell = true := by cases q <;> decide

/-- A name's value depends on its cell bits only. -/
theorem Cells.read_congr {c d : Cells} {q : Reg}
    (h : ∀ x ∈ q.cellBits, ∀ i, i < x.width → d.bit x.cell x.lo i = c.bit x.cell x.lo i) : d.read q = c.read q := by
  apply BitVec.eq_of_getLsbD_eq
  intro i hi
  cases q <;>
    simp only [Reg.cellBits, List.mem_cons, List.not_mem_nil, or_false, forall_eq_or_imp, forall_eq, Cells.bit,
      Cells.read, Reg.width, BitVec.getLsbD_setWidth, BitVec.getLsbD_append, BitVec.getLsbD_extractLsb'] at h ⊢ <;>
    grind

/-- A write to a name leaves every bit of every cell alone that is not behind the name. -/
theorem Cells.bit_write {c : Cells} {r cell : Reg} {v : Value} {lo i : Nat} (hcell : isStorageCell cell = true)
    (h : ∀ y ∈ r.cellBits, y.cell = cell → ¬ (y.lo ≤ lo + i ∧ lo + i < y.lo + y.width)) :
    (c.write r v).bit cell lo i = c.bit cell lo i := by
  cases cell <;> first | (exact absurd hcell (by decide)) | skip
  all_goals
    clear hcell
    cases r <;> first
    | with_reducible rfl
    | (simp only [Cells.write, Cells.bit, Cells.read]; done)
    | (simp only [Reg.cellBits, List.mem_cons, List.not_mem_nil, or_false, forall_eq_or_imp, forall_eq, Reg.width,
        forall_true_left, reduceCtorEq, false_implies] at h
       simp only [Cells.write, Cells.bit, Cells.read, withLow16, withHigh16, withLow8, withSecond8,
        BitVec.getLsbD_setWidth, BitVec.getLsbD_append, BitVec.getLsbD_extractLsb']
       grind)

/-- A register's value fits its width. -/
theorem Cells.read_lt (c : Cells) (r : Reg) : (c.read r).toNat < 2 ^ r.width := by
  cases r <;> simp [Cells.read, Reg.width, BitVec.toNat_setWidth] <;> omega

/-- The pc is read by its own name only. -/
theorem Cells.read_setPc (c : Cells) (p : CodeAddr) {q : Reg} (h : q ≠ .PC) :
    ({ c with pc := p } : Cells).read q = c.read q := by
  cases q <;> first | rfl | exact absurd rfl h

/-- SPX is read by its two names only. -/
theorem Cells.read_setSpx (c : Cells) (x : BitVec 32) {q : Reg} (h1 : q ≠ .SP) (h2 : q ≠ .SPX) :
    ({ c with spx := x } : Cells).read q = c.read q := by
  cases q <;> first | rfl | simp_all

/-- No name but F shares a bit with F. -/
theorem Reg.overlaps_f {r : Reg} (h : r ≠ .F) : r.overlaps .F = false := by
  revert h; cases r <;> decide

/-- Widths in bytes: at most 8 bytes, and the move width is that many. -/
theorem Reg.moveWidth_bounds (r : Reg) : r.moveWidth = 8 * r.bytes ∧ r.bytes ≤ 8 ∧ r.moveWidth / 8 = r.bytes := by
  cases r <;> decide

end Sys2Proof.Machine
end

