-- ==== Sys2Proof/Tests/Slice0.lean ====
section
/-! SUPPORT. The model's own tests: well-formedness, decoding and single steps with expected results from
spec/95_test_vectors.md (V, P, S numbers), and for every obligation with hypotheses a state that meets them. -/
namespace Sys2Proof.Tests
open Sys2Proof.Machine Sys2Proof.Claims

/-! ### Helpers -/

/-- The next state of an outcome. -/
def after : Host.Outcome State Fault Refusal → Option State
  | .next s => some s
  | .fault _ | .refused _ => none

/-- The fault of an outcome. -/
def faultOf : Host.Outcome State Fault Refusal → Option Fault
  | .fault f => some f
  | .next _ | .refused _ => none

/-- The refusal of an outcome. -/
def refusalOf : Host.Outcome State Fault Refusal → Option Refusal
  | .refused r => some r
  | .next _ | .fault _ => none

/-- What a projection gives of the state after an outcome. -/
def get {α : Type} (o : Host.Outcome State Fault Refusal) (p : State → α) : Option α := (after o).map p

/-- The big-endian reference configuration. -/
def bigCfg : Cfg := { Cfg.reference with byteOrder := .big }

/-- The reference configuration with R102's truncation of a load of F (log 14). -/
def truncatingCfg : Cfg := { Cfg.reference with fLoad := .truncate }

/-- The registers of the MOV vectors (95_test_vectors.md 2.7), with those of the operand vectors (2.6). -/
def movCells : Cells :=
  { Cells.reset 0x100000 with
    ax := 0x0000ABCD, bx := 0x1000, hl := 0x00802000, ds := 0x0080, es := 0x0081, bpx := 0x0220, r1 := 0x0020,
    cr0 := 0x008214 }

/-- The state of the MOV vectors: `34 12` at 0x80_1000, code in the 256 bytes from 0x10_0000 on. -/
def movState : State :=
  { State.reset with
    cells := movCells, mem := [(0x801000, 0x34), (0x801001, 0x12)], code := [⟨0x100000, 0x1000FF⟩] }

/-- `34 12 F3` at 0x80_1000: a 24-bit value with bits 23 to 20 set. -/
def wideFlags : State := { movState with mem := [(0x801000, 0x34), (0x801001, 0x12), (0x801002, 0xF3)] }

/-- The state of the CALL vectors (2.9). -/
def callState : State := { State.reset with cells := { Cells.reset 0x100000 with cr0 := 0x10, spx := 0x200 } }

/-- The state of the RET vectors (2.10): 0x0000_1234 at 0x0204 and 0x0000_0777 at 0x0208. -/
def retState : State :=
  { State.reset with
    cells := { Cells.reset 0x100000 with cr0 := 0x10, spx := 0x20C }
    mem := [(0x204, 0x34), (0x205, 0x12), (0x206, 0), (0x207, 0), (0x208, 0x77), (0x209, 0x07), (0x20A, 0),
      (0x20B, 0)] }

/-- The state of the PUSHR and POPR vectors (2.11). -/
def pushrState : State :=
  { State.reset with cells := { Cells.reset 0x1000 with spx := 0x210, bx := 0x1111, cx := 0x2222 } }

/-- The state after V201, with B and C cleared for V202. -/
def poprState : State :=
  { State.reset with
    cells := { Cells.reset 0x1000 with spx := 0x214 }
    mem := [(0x210, 0x11), (0x211, 0x11), (0x212, 0x22), (0x213, 0x22)] }

/-- The same with a third item on top. -/
def poprWide : State :=
  { poprState with
    cells := { poprState.cells with spx := 0x216 }, mem := poprState.mem ++ [(0x214, 0x33), (0x215, 0x33)] }

/-- The state of the interrupt vectors (2.12): entry 3 as V211 has it, little endian, F.ie = 1, request 3 pending. -/
def intState : State :=
  { State.reset with
    cells := { Cells.reset 0x1000 with cr0 := 0x10, f := 0x40 }
    pending := some 3
    mem := [(0x10800C, 0x10), (0x10800D, 0x00), (0x10800E, 0x00), (0x10800F, 0x20)] }

/-- The interrupt state with the example of a configured save, its return point at 0xFF_FFFF, SP = 0x210. -/
def savingState : State :=
  { intState with
    cfg := { Cfg.reference with
      intEntry := .save (exampleEntry Cfg.reference 0xFFFFFF) (exampleReturn Cfg.reference 0xFFFFFF) }
    cells := { intState.cells with spx := 0x210 } }

/-- A state with another configuration. -/
def withCfg (s : State) (c : Cfg) : State := { s with cfg := c }

/-- The states a round trip of the configured save passes: the handler's first, and the one its RET leads to. -/
def handlerState : State := (after (step savingState)).getD savingState

def returningState : State := (after (exec (.ret .none) handlerState)).getD savingState

/-- A configuration with a launch of its own. -/
def launchCfg : Cfg :=
  { Cfg.reference with
    launch := ⟨[(.SP, 0x210), (.CR1, 3)], [(0x1001, 0xFF), (0x1000, 0x94)], [], [⟨0x1000, 0x1001⟩]⟩ }

/-- A state with another CR0. -/
def withCr0 (s : State) (x : BitVec 24) : State := { s with cells := { s.cells with cr0 := x } }

/-! ### Well-formedness refuses each ill-formed term -/

theorem test_wf_accepts_mov : (Instr.mov .regA (.immWord 0x1000)).wf Cfg.reference = true := by decide

theorem test_wf_refuses_immediate_destination :
    (Instr.mov (.immByte 5) .regA).wf Cfg.reference = false := by decide

theorem test_wf_refuses_register_without_identifier :
    (Instr.mov (.reg (.named .A)) .regA).wf { Cfg.reference with regnum := [] } = false := by decide

theorem test_wf_refuses_assigned_identifier_as_unassigned :
    (Instr.mov (.reg (.unassigned 0x60)) .regA).wf Cfg.reference = false := by decide

theorem test_wf_refuses_identifier_too_wide :
    (Instr.mov (.reg (.unassigned 0x100)) .regA).wf Cfg.reference = false ∧
    (Instr.mov (.reg (.named .A)) .regA).wf { Cfg.reference with regnum := [(0x100, .A)] } = false := by decide

theorem test_wf_refuses_offset_too_wide :
    (Instr.mov .regA (.segImm (.named .ES) 0x100)).wf { Cfg.reference with segimmBytes := 1 } = false := by decide

theorem test_wf_refuses_number_too_wide :
    (Instr.mov .regA (.bpRel 0x0080)).wf { Cfg.reference with bprelBytes := 1 } = false := by decide

theorem test_wf_refuses_equal_opcodes :
    Cfg.opcWf { Cfg.reference with opc := { Opcodes.tcfg with ret := 0x91 } } = false := by decide

theorem test_wf_refuses_repeated_register_numbers :
    Cfg.regnumWf { Cfg.reference with regnum := [(1, .A), (1, .B)] } = false ∧
    Cfg.regnumWf { Cfg.reference with regnum := [(1, .A), (2, .A)] } = false := by decide

theorem test_reference_configuration_is_admitted : cfgWf Cfg.reference = true := by decide

theorem test_pushr_list_conditions :
    pushrListWf [.B, .C] = true ∧ pushrListWf [.A, .AX] = false ∧ pushrListWf [.SP] = false ∧
    pushrListWf [.B, .B] = false ∧ pushrListWf [.PC] = false := by decide

/-! ### Decoding words written from the spec's encodings (2.5), TCFG's bytes -/

theorem test_decode_mov_register_forms :
    decode Cfg.reference [0x91, 0x1B, 0x13] = .ok (.mov .regA .dsB, []) ∧
    decode Cfg.reference [0x91, 0x08, 0x01, 0x60, 0x80, 0x00]
      = .ok (.mov (.reg (.named .DS)) (.immWord 0x0080), []) ∧
    decode Cfg.reference [0x91, 0x08, 0x08, 0x73, 0x71] = .ok (.mov (.reg (.named .BPX)) (.reg (.named .SPX)), []) ∧
    decode Cfg.reference [0x91, 0xF0, 0xF1] = .ok (.mov .regAF .regBF, []) ∧
    decode Cfg.reference [0x91, 0x1D, 0x03, 0x00, 0x10, 0x80, 0x00]
      = .ok (.mov .regHL (.immDword 0x00801000), []) := by decide

theorem test_decode_mov_big_endian :
    decode bigCfg [0x91, 0x08, 0x01, 0x60, 0x00, 0x80] = .ok (.mov (.reg (.named .DS)) (.immWord 0x0080), []) ∧
    decode bigCfg [0x91, 0x1B, 0x1F, 0xFF, 0xF4] = .ok (.mov .regA (.bpRel 0xFFF4), []) ∧
    decode bigCfg [0x91, 0x1B, 0x0D, 0x80, 0x10, 0x00] = .ok (.mov .regA (.long 0x801000), []) ∧
    decode bigCfg [0x91, 0x1B, 0x11, 0x61, 0x00, 0x10] = .ok (.mov .regA (.segImm (.named .ES) 0x0010), []) ∧
    decode bigCfg [0x91, 0x08, 0x06, 0xB1, 1, 2, 3, 4, 5, 6, 7, 8]
      = .ok (.mov (.reg (.named .EAB)) (.immQword 0x0102030405060708), []) := by decide

theorem test_decode_mov_memory_forms :
    decode Cfg.reference [0x91, 0x1B, 0x1F, 0xF4, 0xFF] = .ok (.mov .regA (.bpRel 0xFFF4), []) ∧
    decode Cfg.reference [0x91, 0x1E, 0x1B] = .ok (.mov .addrHL .regA, []) ∧
    decode Cfg.reference [0x91, 0x1B, 0x0E, 0x00, 0x10, 0x80, 0x00] = .ok (.mov .regA (.far 0x00801000), []) ∧
    decode Cfg.reference [0x91, 0x1B, 0x0B, 0x40] = .ok (.mov .regA (.near 0x40), []) ∧
    decode Cfg.reference [0x91, 0x1B, 0x10, 0x61, 0xC0] = .ok (.mov .regA (.segReg (.named .ES) (.named .R1)), []) ∧
    decode Cfg.reference [0x91, 0x1B, 0x12, 0xC0] = .ok (.mov .regA (.dsReg (.named .R1)), []) ∧
    decode Cfg.reference [0x91, 0x10, 0x01, 0x62, 0x70, 0x0A, 0x00]
      = .ok (.mov (.segReg (.named .SS) (.named .SP)) (.immWord 0x000A), []) := by decide

theorem test_decode_ret :
    decode Cfg.reference [0x92, 0xFF, 0xFF] = .ok (.ret .none, []) ∧
    decode Cfg.reference [0x92, 0x00, 0xFF, 0x04] = .ok (.ret (.byte 4), []) ∧
    decode bigCfg [0x92, 0x01, 0xFF, 0x01, 0x04] = .ok (.ret (.word 0x0104), []) := by decide

theorem test_decode_call :
    decode bigCfg [0x93, 0x0D, 0xFF, 0x10, 0x00, 0x40] = .ok (.call (.long 0x100040), []) ∧
    decode Cfg.reference [0x93, 0x0E, 0xFF, 0x40, 0x00, 0x10, 0x00] = .ok (.call (.far 0x00100040), []) ∧
    decode Cfg.reference [0x93, 0x0F, 0xFF, 0x10] = .ok (.call (.rel 0x10), []) := by decide

theorem test_decode_pushr_popr :
    decode Cfg.reference [0x94, 0xFF, 0xFF] = .ok (.pushr, []) ∧
    decode Cfg.reference [0x95, 0xFF, 0xFF] = .ok (.popr, []) := by decide

/-- V106: the longest header. -/
theorem test_longest_payload : headerPayloadLen Cfg.reference 0x06 0x06 = 16 := by decide

/-- V107 to V110, and 0xFF as argument1 before a reserved B byte (log 24). -/
theorem test_decode_reserved_modes :
    decode Cfg.reference [0x94, 0x04, 0xFF] = .error (.rejected (.reservedArgMode 0x04)) ∧
    decode Cfg.reference [0x91, 0x1B, 0x0A] = .error (.rejected (.reservedArgMode 0x0A)) ∧
    decode Cfg.reference [0x91, 0xFF, 0x1B] = .error (.rejected (.reservedArgMode 0xFF)) ∧
    decode Cfg.reference [0x91, 0x23, 0xFF] = .error (.rejected (.reservedArgMode 0x23)) ∧
    decode Cfg.reference [0x91, 0xFE, 0xFF] = .error (.rejected (.reservedArgMode 0xFE)) ∧
    decode Cfg.reference [0x91, 0xFF, 0x04] = .error (.rejected (.reservedArgMode 0xFF)) := by decide

/-- V111 to V115. -/
theorem test_decode_forms_rejected :
    decode Cfg.reference [0x00, 0x1B, 0x13] = .error (.rejected (.unknownOpcode 0x00)) ∧
    decode Cfg.reference [0x00, 0x05, 0xFF] = .error (.rejected (.reservedArgMode 0x05)) ∧
    decode Cfg.reference [0x94, 0x1B, 0xFF] = .error (.rejected (.operandForm .pushr .regA .none)) ∧
    decode Cfg.reference [0x93, 0x0C, 0xFF, 0, 0] = .error (.rejected (.operandForm .call .addr .none)) ∧
    decode Cfg.reference [0x91, 0x00, 0x1B, 5] = .error (.rejected .writeToImmediate) ∧
    decode Cfg.reference [0x91, 0x0E, 0x03, 0, 0] = .error .truncated := by decide

/-- V116: an identifier without a register is a fault of the step that decodes the argument. -/
theorem test_unknown_register_faults :
    faultOf (step (loadAtPc movState [0x91, 0x08, 0x01, 0x00, 0x34, 0x12])) = some (.unknownRegister 0) := by decide

/-- R88's codes are pairwise different, and each is found again. -/
theorem test_mode_codes : (Mode.all.map Mode.code).Nodup ∧ Mode.all.length = 31 ∧
    (∀ m ∈ Mode.all, Mode.ofCode m.code = some m) := by decide

/-! ### The interface for words of the opcode table -/

theorem test_decode_table_word :
    decodeTableWord 24 0x911B13 = some (.mov .regA .dsB) ∧ decodeTableWord 24 0x9201FF = some (.ret (.word 0)) ∧
    decodeTableWord 24 0x930EFF = some (.call (.far 0)) ∧ decodeTableWord 24 0x94FFFF = some .pushr ∧
    decodeTableWord 24 0x95FFFF = some .popr ∧ decodeTableWord 24 0x00FFFF = none := by decide

theorem test_fetch_word_runs_from_reset :
    get (step (State.reset.withFetchWord 24 0x911B21)) (·.cells.pc) = some 0x001003 ∧
    get (step (State.reset.withFetchWord 24 0x930DFF)) (·.cells.pc) = some 0x000000 ∧
    get (step (State.reset.withFetchWord 24 0x94FFFF)) (·.cells.sp) = some 0x0214 := by decide

/-- The reset state lists no program: its first fetch lies outside the code set. -/
theorem test_reset_has_no_program : refusalOf (step State.reset) = some (.fetchOutsideCode 0x1000) := by decide

/-! ### Operand addresses (2.6) -/

theorem test_operand_addresses :
    operand movState 0x100004 (.near 0x40) = .ok (.mem 0x00800040) ∧
    operand movState 0x100004 (.regAddr (.named .B)) = .ok (.mem 0x00801000) ∧
    operand movState 0x100004 (.regAddr (.named .HL)) = .ok (.mem 0x00802000) ∧
    operand movState 0x100004 (.regAddr (.named .AL)) = .error (.fault (.badAddressRegister .AL)) ∧
    operand movState 0x100004 (.segReg (.named .ES) (.named .R1)) = .ok (.mem 0x00810020) ∧
    operand movState 0x100004 (.segReg (.named .HL) (.named .B)) = .error (.fault (.badAddressRegister .HL)) ∧
    operand movState 0x100004 (.dsReg (.named .R1)) = .ok (.mem 0x00800020) ∧
    operand movState 0x100004 (.bpRel 0xFFF4) = .ok (.mem 0x00000214) ∧
    operand movState 0x100004 (.rel 0x80) = .ok (.mem 0x000FFF84) := by decide

/-- V132: the sum with BP wraps at 16 bits. -/
theorem test_bp_relative_wraps :
    operand { movState with cells := { movCells with bpx := 4 } } 0x100004 (.bpRel 0xFFF4) = .ok (.mem 0x0000FFF8) := by
  decide

/-! ### Single steps -/

/-- V137, run by a step from memory. -/
theorem test_mov_from_memory :
    get (step (loadAtPc movState [0x91, 0x1B, 0x13])) (fun t => (t.cells.ax, t.cells.pc, t.cells.f))
      = some (0x00001234, 0x100003, 0) ∧
    get (step (loadAtPc (withCfg movState bigCfg) [0x91, 0x1B, 0x13])) (·.cells.ax) = some 0x00003412 := by decide

/-- V148 and V152. -/
theorem test_mov_store_and_overlap :
    get (exec (.mov .addrHL .regA) movState) (fun t => (t.mem.read 0x802000, t.mem.read 0x802001))
      = some (some 0xCD, some 0xAB) ∧
    get (exec (.mov (.reg (.named .ABX)) .regAX) { movState with cells := { movCells with ax := 0x12345678 } })
      (fun t => (t.cells.ax, t.cells.bx)) = some (0x12341234, 0x5678) := by decide

/-- V158, and R114's refusal of a memory value for F against R102's truncation (log 14). -/
theorem test_mov_to_flags :
    refusalOf (exec (.mov (.reg (.named .F)) (.immTbyte 0x100000)) movState) = some .widthMismatch ∧
    refusalOf (exec (.mov (.reg (.named .F)) (.far 0x801000)) wideFlags) = some .widthMismatch ∧
    get (exec (.mov (.reg (.named .F)) (.far 0x801000)) (withCfg wideFlags truncatingCfg)) (·.cells.f)
      = some 0x31234 := by decide

/-- V192 and V195. -/
theorem test_ret_orders :
    get (exec (.ret (.byte 4)) retState) (fun t => (t.cells.sp, t.cells.pc)) = some (0x204, 0x001234) ∧
    get (exec (.ret (.byte 4)) (withCfg retState { Cfg.reference with retOrder := .popThenRelease }))
      (fun t => (t.cells.sp, t.cells.pc)) = some (0x204, 0x000777) := by decide

/-- V197 and V198. -/
theorem test_ret_stops :
    refusalOf (exec (.ret .none) { retState with mem := [(0x208, 0), (0x209, 0), (0x20A, 0), (0x20B, 1)] })
      = some .returnAddressTooWide ∧
    refusalOf (exec (.ret (.byte 4)) { retState with cells := { retState.cells with spx := 6 } }) = some .stackWrap := by
  decide

/-- V182. -/
theorem test_call_pushes :
    get (exec (.call (.long 0x100040)) callState) (fun t => (t.mem, t.cells.spx, t.cells.pc))
      = some ([(0x200, 0x06), (0x201, 0x00), (0x202, 0x10), (0x203, 0x00)], 0x204, 0x100040) := by decide

/-- V183 in big endian, and V188 with `REL_BASE = start`. -/
theorem test_call_parameters :
    get (exec (.call (.long 0x100040)) (withCfg callState { bigCfg with retaddrBytes := .three }))
      (fun t => (t.mem, t.cells.spx)) = some ([(0x200, 0x10), (0x201, 0x00), (0x202, 0x06)], 0x203) ∧
    get (exec (.call (.rel 0xFC)) (withCfg callState { Cfg.reference with relBase := .start })) (·.cells.pc)
      = some 0x0FFFFC := by decide

/-- V201 and V207. -/
theorem test_pushr :
    get (exec .pushr pushrState) (fun t => (t.mem, t.cells.spx, t.cells.pc))
      = some ([(0x210, 0x11), (0x211, 0x11), (0x212, 0x22), (0x213, 0x22)], 0x214, 0x1003) ∧
    refusalOf (exec .pushr { pushrState with cells := { pushrState.cells with spx := 0xFFFC } }) = some .stackWrap := by
  decide

/-- V206: F is pushed as three bytes. -/
theorem test_pushr_flags :
    get (exec .pushr { pushrState with
        cfg := { bigCfg with pushrList := some [.B, .F] }, cells := { pushrState.cells with f := 5 } })
      (fun t => (t.mem, t.cells.spx))
      = some ([(0x210, 0x11), (0x211, 0x11), (0x212, 0), (0x213, 0), (0x214, 5)], 0x215) := by decide

/-- V202. -/
theorem test_popr :
    get (exec .popr poprState) (fun t => (t.cells.bx, t.cells.cx, t.cells.spx, t.cells.pc))
      = some (0x1111, 0x2222, 0x210, 0x1003) := by decide

/-- V212 to V215, and V218. -/
theorem test_interrupts :
    refusalOf (step intState) = some (.interruptEntryUnmodelled 3) ∧
    get (step (withCfg intState { Cfg.reference with intEntry := .save [] ⟨0xFFFFFF, []⟩ })) (fun t => (t.pending, t.cells.pc))
      = some (none, 0x102000) ∧
    refusalOf (step { intState with cells := { intState.cells with f := 0xC0 } }) = some (.interruptEntryUnmodelled 3) ∧
    get (step (loadAtPc { intState with cells := { intState.cells with f := 0 } } [0x91, 0x1B, 0x21]))
      (fun t => (t.pending, t.cells.pc)) = some (some 3, 0x1003) := by decide

/-- V214 and V219. -/
theorem test_interrupt_lookup_stops :
    refusalOf (step { intState with mem := [(0x10800C, 0), (0x10800D, 1), (0x10800E, 0), (0x10800F, 0x20)] })
      = some .interruptTargetTooWide ∧
    faultOf (step { intState with mem := [] }) = some (.readOfUnwritten 0x10800C) := by decide

/-- R144's example: F = 0x40 and the pc 0x1000 pushed, then the return point; the handler's RET, at V211's address
0x10_2000, leads there, and the return restores pc, F and SP (R150, log 12). -/
theorem test_interrupt_round_trip :
    get (step savingState) (fun t => (t.cells.pc, t.cells.f, t.cells.spx, t.mem.read 0x210, t.mem.read 0x214))
      = some (0x102000, 0, 0x21B, some 0x40, some 0x10) ∧
    get (exec (.ret .none) handlerState) (fun t => (t.cells.pc, t.cells.spx)) = some (0xFFFFFF, 0x217) ∧
    get (step returningState) (fun t => (t.cells.pc, t.cells.f, t.cells.spx)) = some (0x1000, 0x40, 0x210) := by decide

/-- Entry and return read and write a register whatever CR0 enables, and a pc above 24 bits is refused (log 12). -/
theorem test_entry_registers :
    (match evalEntry 0 (.reg .AX) movState with | .ok (v, _) => some v | .error _ => none) = some 0x0000ABCD ∧
    refusalOf (outcome (setEntryReg .PC 0x1000000 movState)) = some .returnAddressTooWide ∧
    get (outcome (setEntryReg .AX 0x12345678 (withCr0 movState 0))) (·.cells.ax) = some 0x12345678 := by decide

/-- V216, V217, and R140: a request wakes a halted core at the step after the one it lands in, so the state before it is
not final (R160). -/
theorem test_halt :
    (State.final { callState with cells := { callState.cells with f := 0x80 } }) = true ∧
    (State.final { callState with cells := { callState.cells with f := 0xC0 } }) = true ∧
    (State.final { callState with cells := { callState.cells with f := 0xC0 }, irqs := [none, some 7] }) = false ∧
    get (step { callState with cells := { callState.cells with f := 0x80 }, irqs := [some 7] }) (·.pending)
      = some (some 7) := by decide

/-- R51, R162: the reference launch is the reset state; a launch gives a register, CR1's read-only bit and a byte their
values, the rest as reset has them, the pc at `RESET_PC`. -/
theorem test_launch :
    State.launch Cfg.reference = State.reset ∧
    (State.launch launchCfg).cells = { Cells.reset 0x001000 with spx := 0x210, cr1 := 3 } ∧
    (State.launch launchCfg).mem = [(0x1000, 0x94), (0x1001, 0xFF)] ∧
    (State.launch launchCfg).code = [⟨0x1000, 0x1001⟩] := ⟨rfl, rfl, rfl, rfl⟩

/-- V210: entries 0 and 8191 of the interrupt table. -/
theorem test_interrupt_table_ends :
    idtEntry Cfg.reference 0 = 0x108000 ∧ idtEntry Cfg.reference 8191 = 0x10FFFC := by decide

/-! ### Witnesses: states that meet the hypotheses of each obligation -/

theorem witness_address_width :
    (0x10 : BitVec 24).getLsbD 4 = true ∧ (0x11 : BitVec 24).getLsbD 4 = true ∧
    ((0x01 : BitVec 24).getLsbD 4 = false ∧ (0x01 : BitVec 24).getLsbD 0 = true) ∧
    ((0x00 : BitVec 24).getLsbD 4 = false ∧ (0x00 : BitVec 24).getLsbD 0 = false) := by decide

theorem witness_physical_address :
    (0xFFFF : Linear).toNat < 2 ^ addressWidth 0 ∧ 2 ^ addressWidth 0 ≤ (0x10000 : Linear).toNat ∧
    (0xFFFFF : Linear).toNat < 2 ^ addressWidth 1 ∧ 2 ^ addressWidth 1 ≤ (0x100000 : Linear).toNat ∧
    (0xFFFFFF : Linear).toNat < 2 ^ addressWidth 0x10 ∧ 2 ^ addressWidth 0x10 ≤ (0x1000000 : Linear).toNat := by decide

/-- Both ends of both disputed ranges. -/
theorem witness_disputed_ranges :
    cr0Pg 0x10 = false ∧ ∀ p ∈ [0x010000, 0x0101FF, 0x038000, 0x0381FF],
      phys .refuse 0x10 (BitVec.ofNat 32 p) = .ok p ∧
      (0x010000 ≤ p ∧ p ≤ 0x0101FF ∨ 0x038000 ≤ p ∧ p ≤ 0x0381FF) := by decide

/-- Both ends of the plain regions, and an address in and one out of the code set. -/
theorem witness_plain_regions :
    cr0Pg 0x10 = false ∧ movState.inCode 0x100000 = true ∧ movState.inCode 0x100100 = false ∧
    ∀ p ∈ [0x000200, 0x00FFFF, 0x010200, 0x037FFF, 0x040000, 0x07FFFF, 0x100000, 0xFFFFFF],
      phys movState.cfg.addrOverflow 0x10 (BitVec.ofNat 32 p) = .ok p ∧
      (0x000200 ≤ p ∧ p ≤ 0x00FFFF ∨ 0x010200 ≤ p ∧ p ≤ 0x037FFF ∨ 0x040000 ≤ p ∧ p ≤ 0x07FFFF ∨
        0x100000 ≤ p ∧ p ≤ 0xFFFFFF) := by decide

/-- Protected mode at the ports' and the character set's ends; its clear bit at the character set's ends. -/
theorem witness_protected_regions :
    cr0Pg 0x8010 = false ∧ (0x8010 : BitVec 24).getLsbD 15 = true ∧ cr0Pg 0x10 = false ∧
    (0x10 : BitVec 24).getLsbD 15 = false ∧
    (∀ p ∈ [0, 0x0001FF, 0x038200, 0x03FFFF], phys .refuse 0x8010 (BitVec.ofNat 32 p) = .ok p ∧
      (p ≤ 0x0001FF ∨ 0x038200 ≤ p ∧ p ≤ 0x03FFFF)) ∧
    (∀ p ∈ [0x038200, 0x03FFFF], phys .refuse 0x10 (BitVec.ofNat 32 p) = .ok p ∧ 0x038200 ≤ p ∧ p ≤ 0x03FFFF) := by
  decide

/-- The window's ends, under AW = 24 and AW = 20. -/
theorem witness_banked_window :
    (cr0Pg 0x10 = false ∧ ∀ p ∈ [0x080000, 0x0FFFFF],
      phys .refuse 0x10 (BitVec.ofNat 32 p) = .ok p ∧ 0x080000 ≤ p ∧ p ≤ 0x0FFFFF) ∧
    (cr0Pg 0x01 = false ∧ ∀ p ∈ [0x080000, 0x0FFFFF],
      phys .refuse 0x01 (BitVec.ofNat 32 p) = .ok p ∧ 0x080000 ≤ p ∧ p ≤ 0x0FFFFF) := by decide

/-- Both bank models, and an address of the window in and one out of the code set. -/
theorem witness_bank_models :
    movState.cfg.bankModel = .refuse ∧ Cfg.bankModel { Cfg.reference with bankModel := .banked } = .banked ∧
    movState.inCode 0x080000 = false ∧
    State.inCode { movState with code := [⟨0x080000, 0x080000⟩] } 0x080000 = true := ⟨rfl, rfl, rfl, rfl⟩

theorem witness_io_ports :
    cr0Pg 0 = false ∧ cr0Pm 0 = false ∧ (0 : Linear).toNat ≤ 0x1FF ∧ (0x1FF : Linear).toNat ≤ 0x1FF ∧
    Cfg.reference.ioModel = .refuse ∧ Cfg.ioModel { Cfg.reference with ioModel := .draw } = .draw := by decide

theorem witness_paging : (0x80000 : BitVec 24).getLsbD 19 = true := by decide

theorem witness_segment_wrap : cr0Pg 0x10 = false ∧ ¬ InBlock 0x0010FFFF 2 ∧ InBlock 0x0010FFFF 1 := by decide

theorem witness_mem_read :
    Readable movState 0x8214 .read 0x00801000 [0x34, 0x12] ∧
    Carries movState.cfg.byteOrder 0x1234 [0x34, 0x12] ∧ Carries bigCfg.byteOrder 0x3412 [0x34, 0x12] ∧
    Readable (withCfg movState bigCfg) 0x8214 .read 0x00801000 [0x34, 0x12] := by decide

/-- The first unwritten byte of a read as its first byte, as its third, and after a port under `draw`. -/
theorem witness_read_of_unwritten :
    InBlock 0x00802000 1 ∧ checkByte movState 0x8214 .read (0x00802000 + BitVec.ofNat 32 0) = .ok (.ram 0x802000) ∧
    movState.byteAt (.ram 0x802000) = none ∧ InBlock 0x00801000 4 ∧
    (∀ j, j < 2 → passes movState 0x8214 .read (0x00801000 + BitVec.ofNat 32 j) = true) ∧
    checkByte movState 0x8214 .read (0x00801000 + BitVec.ofNat 32 2) = .ok (.ram 0x801002) ∧
    movState.byteAt (.ram 0x801002) = none ∧ InBlock 0x1FF 2 ∧
    passes (withCfg movState { Cfg.reference with ioModel := .draw }) 0x10 .read (0x1FF + BitVec.ofNat 32 0) = true ∧
    checkByte (withCfg movState { Cfg.reference with ioModel := .draw }) 0x10 .read (0x1FF + BitVec.ofNat 32 1)
      = .ok (.ram 0x200) := by decide

/-- V164's first byte, whose check stops a read; V78's and one after a byte outside the code set, which stop a write. -/
theorem witness_check_stops :
    InBlock 0x00038200 2 ∧
    checkByte movState 0x8214 .read (0x00038200 + BitVec.ofNat 32 0) = .error (.fault (.protectedAccess 0x038200 .read)) ∧
    InBlock 0x1FF 2 ∧
    checkByte movState 0x8010 .write (0x1FF + BitVec.ofNat 32 0) = .error (.fault (.protectedAccess 0x1FF .write)) ∧
    InBlock 0xFFFE 2 ∧
    checkByte { movState with code := [⟨0xFFFF, 0xFFFF⟩] } 0x10 .write (0xFFFE + BitVec.ofNat 32 0) = .ok (.ram 0xFFFE) ∧
    checkByte { movState with code := [⟨0xFFFF, 0xFFFF⟩] } 0x10 .write (0xFFFE + BitVec.ofNat 32 1)
      = .error (.refuse (.writeToCode 0xFFFF)) := by decide

theorem witness_mem_write : Storable movState 0x8214 0x00802000 8 := by decide

/-- Whether a run answers. -/
def answers {α : Type} : Run α → Bool
  | .ok _ => true
  | .error _ => false

/-- The state a run answers, for a witness that names it. -/
def stateOf (s : State) : Run State → State
  | .ok t => t
  | .error _ => s

/-- The state after an outcome, for a witness that names it. -/
def stateAfter (s : State) (o : Host.Outcome State Fault Refusal) : State := (after o).getD s

theorem witness_read_after_write :
    movState.cfg.ioModel = .refuse ∧ (0x1234 : Value).toNat < 2 ^ (8 * 2) ∧
    memWrite 0x8214 0x00802000 2 0x1234 movState = .ok (stateOf movState (memWrite 0x8214 0x00802000 2 0x1234 movState)) := by
  decide

/-- Two values of CR0 that differ in bit 8 alone (95_test_vectors.md V29). -/
theorem witness_named_cr0_bits :
    ∀ b ∈ [0, 2, 4, 9, 15, 19], (0x8214 : BitVec 24).getLsbD b = (0x8314 : BitVec 24).getLsbD b := by decide

theorem witness_register_reads_back : Reg.A ≠ .CR1 ∧ Reg.F ≠ .CR1 := by decide

theorem witness_disjoint_registers :
    Reg.AH.overlaps .AL = false ∧ Reg.ABX.overlaps .CX = false ∧ Reg.EABF.overlaps .CF = false ∧
    Reg.AH.overlaps .ABX = true ∧ Reg.AX.cellBits = [⟨.AX, 0, Reg.AX.width⟩] ∧
    (∀ b ∈ [8, 16, 31], ∀ x ∈ Reg.AL.cellBits, x.cell = .AX → ¬ (x.lo ≤ b ∧ b < x.lo + x.width)) ∧
    Reg.ABX ∈ [Reg.BL, .BH, .B, .ABX] := by decide

/-- Each of the three enabling bits, each place that names the register. -/
theorem witness_disabled_register :
    (0 : BitVec 24).getLsbD 15 = false ∧ (0 : BitVec 24).getLsbD 2 = false ∧ (0 : BitVec 24).getLsbD 9 = false ∧
    pushrState.cells.cr0 = 0 ∧ Names 0 .AX (.reg (.named .AX)) ∧ Names 0 .EAB (.regAddr (.named .EAB)) ∧
    Names 0 .AX .regAX ∧ Reg.DS.enabled 0 = true ∧ Reg.DS.width = 16 ∧ (Arg.regA).mode.isImm = false ∧
    operand pushrState (pcNext pushrState (.mov .regA (.reg (.named .AX)))) .regA = .ok (.reg .A) ∧
    (withCfg pushrState { Cfg.reference with pushrList := some [.B, .AX] }).cfg.pushrList = some ([.B] ++ .AX :: []) ∧
    (∀ q ∈ [Reg.B], q.enabled 0 = true) :=
  ⟨rfl, rfl, rfl, rfl, .inl rfl, .inr (.inl rfl), .inr (.inr (.inr (.inr (.inr (.inr (.inl ⟨rfl, rfl⟩)))))), rfl, rfl, rfl,
    rfl, rfl, by decide⟩

/-- POPR with AX as the last of its list, its turn the first, and as the first, its turn after C's. -/
theorem witness_disabled_popped :
    PopsTo 0 [] poprState poprState ∧ [(0x11 : Byte), 0x11, 0x22, 0x22].length = Reg.AX.bytes ∧
    slotFits Reg.AX.bytes (popSlotOf poprState Reg.AX.bytes) = true ∧
    Readable poprState 0 .read (stackAddr poprState (popSlotOf poprState Reg.AX.bytes).1) [0x11, 0x11, 0x22, 0x22] ∧
    PopsTo 0 [.C] poprWide ((poprWide.setSp 0x214).setReg .C 0x3333) ∧
    slotFits Reg.AX.bytes (popSlotOf ((poprWide.setSp 0x214).setReg .C 0x3333) Reg.AX.bytes) = true ∧
    Readable ((poprWide.setSp 0x214).setReg .C 0x3333) 0 .read
      (stackAddr ((poprWide.setSp 0x214).setReg .C 0x3333)
        (popSlotOf ((poprWide.setSp 0x214).setReg .C 0x3333) Reg.AX.bytes).1) [0x11, 0x11, 0x22, 0x22] := by
  refine ⟨rfl, rfl, rfl, by decide, ⟨[0x33, 0x33], 0x3333, rfl, rfl, ?_, ?_, rfl, rfl⟩, rfl, by decide⟩ <;> decide

theorem witness_decode_of_encode :
    Cfg.reference.opcWf = true ∧
    (Instr.mov (.segImm (.named .ES) 0x0010) (.immQword 0x0102030405060708)).wf Cfg.reference = true ∧
    (Instr.mov .regA (.bpRel 0xFFF4)).wf Cfg.reference = true ∧ (Instr.ret (.word 0xFFFF)).wf Cfg.reference = true ∧
    (Instr.call (.rel 0x80)).wf Cfg.reference = true ∧ Instr.pushr.wf Cfg.reference = true ∧
    Instr.popr.wf Cfg.reference = true := by decide

theorem witness_encode_of_decode :
    cfgWf Cfg.reference = true ∧
    decode Cfg.reference [0x91, 0x1B, 0x11, 0x61, 0x10, 0x00, 0x77]
      = .ok (.mov .regA (.segImm (.named .ES) 0x0010), [0x77]) := by decide

/-- The ends of every range of reserved codes, a meaningful A byte, and 0xFF as A with defined and reserved B bytes. -/
theorem witness_reserved_modes :
    (∀ c ∈ ([0x04, 0x05, 0x0A, 0x14, 0x19, 0x23, 0xEF, 0xF4, 0xFE] : List Byte),
      c = 0x04 ∨ c = 0x05 ∨ c = 0x0A ∨ 0x14 ≤ c ∧ c ≤ 0x19 ∨ 0x23 ≤ c ∧ c ≤ 0xEF ∨ 0xF4 ≤ c ∧ c ≤ 0xFE) ∧
    Mode.ofCode 0x1B = some .regA ∧ (0x1B : Byte) ≠ 0xFF ∧
    (∀ b ∈ ([0x00, 0x04, 0x1B, 0xFE] : List Byte), b ≠ 0xFF) := by decide

theorem witness_operand_forms :
    Cfg.reference.opcWf = true ∧ (∀ m ∈ [Mnemonic.mov, .ret, .call, .pushr, .popr], (0x00 : Byte) ≠ Cfg.reference.opcode m) ∧
    Mode.immByte.isImm = true ∧ Mode.regA.isImm = false ∧
    Mode.immByte.plen Cfg.reference + Mode.regA.plen Cfg.reference ≤ [(0 : Byte)].length ∧
    ¬ ((Mode.regA = .none ∨ Mode.regA = .immByte ∨ Mode.regA = .immWord) ∧ Mode.none = .none) ∧
    ¬ ((Mode.addr = .long ∨ Mode.addr = .far ∨ Mode.addr = .rel) ∧ Mode.none = .none) ∧
    ¬ (Mode.regA = .none ∧ Mode.none = .none) := by decide

theorem witness_length :
    decode Cfg.reference (0x91 :: 0x1B :: 0x01 :: [0x34, 0x12, 0xAA]) = .ok (.mov .regA (.immWord 0x1234), [0xAA]) := by
  decide

theorem witness_relative_bases :
    Cfg.reference.relBase = .next ∧ Cfg.relBase { Cfg.reference with relBase := .start } = .start := by decide

/-- A register of each width the clauses tell apart, enabled, and a disabled one. -/
theorem witness_register_held_addresses :
    Reg.HL.enabled 0 = true ∧ Reg.HL.width = 32 ∧ Reg.R1.enabled 0 = true ∧ Reg.R1.width = 16 ∧
    Reg.AL.enabled 0 = true ∧ Reg.AL.width = 8 ∧ Reg.AX.enabled 0x8000 = true ∧ Reg.AX.width = 32 ∧
    Reg.AX.enabled 0 = false := by decide

theorem witness_dedicated_registers :
    movState.cells.cr0.getLsbD 15 = true ∧ pushrState.cells.cr0.getLsbD 15 = false := by decide

theorem witness_mov_register_from_register :
    operand movState (pcNext movState (.mov .regA .regB)) .regA = .ok (.reg .A) ∧
    operand movState (pcNext movState (.mov .regA .regB)) .regB = .ok (.reg .B) ∧
    Reg.A ≠ .PC ∧ Reg.B ≠ .PC ∧ Reg.A.width = Reg.B.width ∧ Reg.A.isFloat = Reg.B.isFloat ∧
    operand movState (pcNext movState (.mov .regAF .regBF)) .regAF = .ok (.reg .AF) ∧
    operand movState (pcNext movState (.mov .regAF .regBF)) .regBF = .ok (.reg .BF) ∧
    Reg.AF.width = Reg.BF.width ∧ Reg.AF.isFloat = Reg.BF.isFloat := by decide

/-- An immediate of the register's width, one extended by zeros, one by its sign, and one for F. -/
theorem witness_mov_register_from_immediate :
    operand movState 0x100005 (.immWord 0xFFFF) = .ok (.imm 16 0xFFFF Reg.A.isFloat) ∧
    ImmGives .refuse 16 Reg.A.moveWidth 0xFFFF 0xFFFF ∧
    operand movState 0x100004 (.immByte 0x80) = .ok (.imm 8 0x80 Reg.A.isFloat) ∧
    ImmGives .zero 8 Reg.A.moveWidth 0x80 0x80 ∧ ImmGives .sign 8 Reg.A.moveWidth 0x80 0xFF80 ∧
    operand movState 0x100007 (.immTbyte 0x0FFFFF) = .ok (.imm 24 0x0FFFFF Reg.F.isFloat) ∧
    ImmGives .refuse 24 Reg.F.moveWidth 0x0FFFFF 0x0FFFFF ∧ (0x0FFFFF : Value).toNat < 2 ^ 20 := by decide

/-- A from memory, and F from a value with bits 23 to 20 set and one without. -/
theorem witness_mov_register_from_memory :
    operand movState (pcNext movState (.mov .regA .dsB)) .regA = .ok (.reg .A) ∧
    operand movState (pcNext movState (.mov .regA .dsB)) .dsB = .ok (.mem 0x00801000) ∧ Reg.A ≠ .PC ∧
    8 * [(0x34 : Byte), 0x12].length = Reg.A.moveWidth ∧
    Readable movState movState.cells.cr0 .read 0x00801000 [0x34, 0x12] ∧
    Carries movState.cfg.byteOrder 0x1234 [0x34, 0x12] ∧
    8 * [(0x34 : Byte), 0x12, 0xF3].length = Reg.F.moveWidth ∧
    Readable wideFlags wideFlags.cells.cr0 .read 0x00801000 [0x34, 0x12, 0xF3] ∧
    Carries wideFlags.cfg.byteOrder 0xF31234 [0x34, 0x12, 0xF3] ∧ truncatingCfg.fLoad = .truncate ∧
    (0x0FFFFF : Value).toNat < 2 ^ 20 := by decide

/-- From A, and from F as three bytes. -/
theorem witness_mov_memory_from_register :
    operand movState (pcNext movState (.mov .addrHL .regA)) .addrHL = .ok (.mem 0x00802000) ∧
    operand movState (pcNext movState (.mov .addrHL .regA)) .regA = .ok (.reg .A) ∧ Reg.A ≠ .PC ∧
    Storable movState movState.cells.cr0 0x00802000 Reg.A.bytes ∧
    operand movState (pcNext movState (.mov .addrHL (.reg (.named .F)))) (.reg (.named .F)) = .ok (.reg .F) ∧
    Storable movState movState.cells.cr0 0x00802000 Reg.F.bytes := by decide

theorem witness_mov_memory_from_immediate :
    operand movState (pcNext movState (.mov .addrHL (.immByte 0x7F))) .addrHL = .ok (.mem 0x00802000) ∧
    operand movState (pcNext movState (.mov .addrHL (.immByte 0x7F))) (.immByte 0x7F) = .ok (.imm 8 0x7F false) ∧
    Storable movState movState.cells.cr0 0x00802000 (8 / 8) := by decide

/-- One pair of operands for each refusal of MOV. -/
theorem witness_mov_stops :
    (Arg.immByte 5).mode.isImm = true ∧ (Arg.regA).mode.isImm = false ∧
    operand movState 0x100004 (.reg (.named .PC)) = .ok (.reg .PC) ∧
    operand movState 0x100003 .regAF = .ok (.reg .AF) ∧ (Operand.reg .AF).isFloat = true ∧
    operand movState 0x100003 .regHL = .ok (.reg .HL) ∧ (Operand.reg .HL).isInteger = true ∧
    Reg.A.isFloat = Reg.AL.isFloat ∧ Reg.A.width ≠ Reg.AL.width ∧
    Reg.A.moveWidth < 32 ∧ (8 < Reg.A.moveWidth ∧ movState.cfg.immExtend = .refuse) ∧
    operand movState 0x100003 .addrHL = .ok (.mem 0x00802000) ∧
    operand movState 0x100003 .dsB = .ok (.mem 0x00801000) := by decide

/-- A value for F just too large: as an immediate of 24 bits, as an extended one, and in memory. -/
theorem witness_mov_flags_stops :
    operand movState 0x100007 (.reg (.named .F)) = .ok (.reg .F) ∧
    operand movState 0x100007 (.immTbyte 0x100000) = .ok (.imm 24 0x100000 false) ∧
    ImmGives .refuse 24 24 0x100000 0x100000 ∧ 2 ^ 20 ≤ (0x100000 : Value).toNat ∧
    ImmGives .sign 8 24 0x80 0xFFFF80 ∧ 2 ^ 20 ≤ (0xFFFF80 : Value).toNat ∧
    wideFlags.cfg.fLoad = .refuse ∧
    Readable wideFlags wideFlags.cells.cr0 .read 0x00801000 [0x34, 0x12, 0xF3] ∧
    Carries wideFlags.cfg.byteOrder 0xF31234 [0x34, 0x12, 0xF3] ∧ 2 ^ 20 ≤ (0xF31234 : Value).toNat := by decide

/-- A completed MOV to a register and one to memory. -/
theorem witness_mov_frame :
    exec (.mov .regA .dsB) movState = .next (stateAfter movState (exec (.mov .regA .dsB) movState)) ∧
    operand movState (pcNext movState (.mov .regA .dsB)) .regA = .ok (.reg .A) ∧
    exec (.mov .addrHL .regA) movState = .next (stateAfter movState (exec (.mov .addrHL .regA) movState)) ∧
    operand movState (pcNext movState (.mov .addrHL .regA)) .addrHL = .ok (.mem 0x00802000) ∧
    operand movState (pcNext movState (.mov .addrHL .regA)) .regA = .ok (.reg .A) ∧
    moveWidth movState.cfg.immExtend (.mem 0x00802000) (.reg .A) = .ok 16 :=
  ⟨rfl, rfl, rfl, rfl, rfl, rfl⟩

/-- V173, V175 and V180 at their boundaries: the pairs that wrap, and the neighbours that do not (V172, V176). -/
theorem witness_stack_wrap :
    pushSlot .up true 2 0xFFFE = (0xFFFE, 0x10000) ∧ slotFits 2 (pushSlot .up true 2 0xFFFD) = true ∧
    popSlot .up true 2 1 = (-1, -1) ∧ slotFits 2 (popSlot .up true 2 2) = true ∧
    releaseSp .up 4 2 = -2 ∧ inStack (releaseSp .up 4 4) = true ∧ 0xFFFF < releaseSp .down 4 0xFFFC := by decide

theorem witness_pop_after_push :
    (0xBEEF : Value).toNat < 2 ^ (8 * 2) ∧ callState.cfg.ioModel = .refuse ∧
    push 0x10 2 0xBEEF callState = .ok (stateOf callState (push 0x10 2 0xBEEF callState)) := by decide

/-- The three targets, `RETADDR_BYTES` 4 and 3. -/
theorem witness_call :
    4 = retAddrCount callState.cfg.retaddrBytes ∧
    (callTarget callState (pcNext callState (.call (.far 0xFFFFFF))) (.far 0xFFFFFF)).toNat < 2 ^ 24 ∧
    slotFits 4 (pushSlotOf callState 4) = true ∧
    Storable callState callState.cells.cr0 (stackAddr callState (pushSlotOf callState 4).1) 4 ∧
    3 = retAddrCount .three ∧ slotFits 3 (pushSlotOf callState 3) = true ∧
    Storable callState callState.cells.cr0 (stackAddr callState (pushSlotOf callState 3).1) 3 := by decide

theorem witness_call_target_too_wide : 2 ^ 24 ≤ (0x01000000 : BitVec 32).toNat := by decide

/-- RET byte 4 (V192), and a return address above 24 bits (V197). -/
theorem witness_ret_releases_then_pops :
    retState.cfg.retOrder = .releaseThenPop ∧ 4 = retAddrCount retState.cfg.retaddrBytes ∧
    (0x208 : Int) = releaseSp retState.cfg.stackDir (retOffset (.byte 4)) retState.cells.sp.toNat ∧
    inStack 0x208 = true ∧ slotFits 4 (popSlot retState.cfg.stackDir retState.cfg.stackEmpty 4 0x208) = true ∧
    Readable retState retState.cells.cr0 .read
      (stackAddr retState (popSlot retState.cfg.stackDir retState.cfg.stackEmpty 4 0x208).1) [0x34, 0x12, 0, 0] ∧
    Carries retState.cfg.byteOrder 0x1234 [0x34, 0x12, 0, 0] ∧ (0x1234 : Value).toNat < 2 ^ 24 ∧
    Carries retState.cfg.byteOrder 0x01000000 [0, 0, 0, 1] ∧ 2 ^ 24 ≤ (0x01000000 : Value).toNat := by decide

/-- RET byte 4 (V195). -/
theorem witness_ret_pops_then_releases :
    Cfg.retOrder { Cfg.reference with retOrder := .popThenRelease } = .popThenRelease ∧
    slotFits 4 (popSlotOf retState 4) = true ∧
    (0x204 : Int) = releaseSp retState.cfg.stackDir (retOffset (.byte 4)) (popSlotOf retState 4).2 ∧
    inStack 0x204 = true ∧
    Readable (withCfg retState { Cfg.reference with retOrder := .popThenRelease }) retState.cells.cr0 .read
      (stackAddr retState (popSlotOf retState 4).1) [0x77, 0x07, 0, 0] ∧
    Carries retState.cfg.byteOrder 0x777 [0x77, 0x07, 0, 0] := by decide

theorem witness_ret_frame : exec (.ret .none) retState = .next (stateAfter retState (exec (.ret .none) retState)) := rfl

theorem witness_ret_undoes_call :
    callState.cfg.ioModel = .refuse ∧
    exec (.call (.long 0x100040)) callState = .next (stateAfter callState (exec (.call (.long 0x100040)) callState)) :=
  ⟨rfl, rfl⟩

theorem witness_pushr_item_0 :
    slotFits 2 (itemSlot pushrState [.B, .C] 0 2) = true ∧
    Storable pushrState 0 (stackAddr pushrState (itemSlot pushrState [.B, .C] 0 2).1) 2 := by decide

theorem witness_pushr_item_1 :
    slotFits 2 (itemSlot pushrState [.B, .C] 1 2) = true ∧
    Storable pushrState 0 (stackAddr pushrState (itemSlot pushrState [.B, .C] 1 2).1) 2 := by decide

theorem witness_pushr_stores :
    pushrState.cfg.pushrList = some [.B, .C] ∧ (∀ r ∈ [Reg.B, .C], r.enabled pushrState.cells.cr0 = true) ∧
    (∀ j r, [Reg.B, .C][j]? = some r → slotFits r.bytes (itemSlot pushrState [.B, .C] j r.bytes) = true ∧
      Storable pushrState pushrState.cells.cr0 (stackAddr pushrState (itemSlot pushrState [.B, .C] j r.bytes).1)
        r.bytes) := by
  refine ⟨rfl, by decide, fun j r h => ?_⟩
  match j, h with
  | 0, h => cases h; exact witness_pushr_item_0
  | 1, h => cases h; exact witness_pushr_item_1

/-- V202: C from 0x0212, then B from 0x0210. -/
theorem witness_popr_pops :
    poprState.cfg.pushrList = some [.B, .C] ∧ ∃ t, PopsTo poprState.cells.cr0 [Reg.B, .C].reverse poprState t := by
  refine ⟨rfl, _, [0x22, 0x22], 0x2222, rfl, rfl, ?_, ?_, rfl, [0x11, 0x11], 0x1111, rfl, rfl, ?_, ?_, rfl, rfl⟩ <;> decide

theorem witness_popr_frame :
    poprState.cfg.pushrList = some [.B, .C] ∧
    exec .popr poprState = .next (stateAfter poprState (exec .popr poprState)) ∧
    (∀ r ∈ [Reg.B, .C], r.overlaps .A = false) ∧ Reg.A ≠ .PC ∧ Reg.A ≠ .SP ∧ Reg.A ≠ .SPX := ⟨rfl, rfl, by decide⟩

theorem witness_pushr_lists :
    Cfg.pushrList { Cfg.reference with pushrList := none } = none ∧
    Cfg.pushrList { Cfg.reference with pushrList := some [] } = some [] := ⟨rfl, rfl⟩

/-- The state PUSHR leaves, taken as the one POPR starts in. -/
def pushedState : State := stateAfter pushrState (exec .pushr pushrState)

theorem witness_popr_restores :
    pushrState.cfg.pushrList = some [.B, .C] ∧ pushrListWf [.B, .C] = true ∧ pushrState.cfg.ioModel = .refuse ∧
    exec .pushr pushrState = .next pushedState ∧ pushedState.cfg = pushrState.cfg ∧
    pushedState.code = pushrState.code ∧ pushedState.cells.ss = pushrState.cells.ss ∧
    pushedState.cells.cr0 = pushrState.cells.cr0 ∧ pushedState.cells.mb = pushrState.cells.mb ∧
    pushedState.cells.cr1Bios = pushrState.cells.cr1Bios ∧
    (∀ off pl, pushedOffset pushrState.cfg.stackDir pushrState.cfg.stackEmpty pushrState.cells.sp.toNat
        pushedState.cells.sp.toNat off →
      checkByte pushrState pushrState.cells.cr0 .write (linear pushrState.cells.ss (BitVec.ofNat 16 off)) = .ok pl →
      pushedState.byteAt pl = pushedState.byteAt pl) :=
  ⟨rfl, by decide, rfl, rfl, rfl, rfl, rfl, rfl, rfl, rfl, fun _ _ _ _ => rfl⟩

/-- A MOV to F that changes it (V157), and a POPR whose list holds F. -/
theorem witness_flags_change :
    exec (.mov (.reg (.named .F)) (.immTbyte 0xC0)) movState
      = .next (stateAfter movState (exec (.mov (.reg (.named .F)) (.immTbyte 0xC0)) movState)) ∧
    (stateAfter movState (exec (.mov (.reg (.named .F)) (.immTbyte 0xC0)) movState)).cells.f ≠ movState.cells.f ∧
    (stateAfter poprState (exec .popr
      { poprState with cfg := { Cfg.reference with pushrList := some [.F] } })).cells.f ≠ poprState.cells.f :=
  ⟨rfl, by decide, by decide⟩

theorem witness_step_runs_instruction :
    RunsInstruction (loadAtPc movState [0x91, 0x1B, 0x13]).arrive ∧
    Readable (loadAtPc movState [0x91, 0x1B, 0x13]).arrive movState.cells.cr0 .fetch
      (BitVec.ofNat 32 movState.cells.pc.toNat) [0x91, 0x1B, 0x13] ∧
    decode movState.cfg [0x91, 0x1B, 0x13] = .ok (.mov .regA .dsB, []) ∧
    Readable (loadAtPc movState [0x00, 0x1B, 0x01, 0x34, 0x12]).arrive movState.cells.cr0 .fetch
      (BitVec.ofNat 32 movState.cells.pc.toNat) [0x00, 0x1B, 0x01, 0x34, 0x12] ∧
    neededBytes movState.cfg [0x00, 0x1B, 0x01, 0x34, 0x12] = 5 ∧
    decode movState.cfg [0x00, 0x1B, 0x01, 0x34, 0x12] = .error (.rejected (.unknownOpcode 0)) := by decide

/-- An instruction at the last byte of memory (PcWrap), one at the end of a block (SegmentWrap), one whose payload is out
of the code set, and one whose payload is in it and unwritten. -/
theorem witness_step_stops :
    RunsInstruction (State.arrive { movState with cells := { movCells with pc := 0xFFFFFE } }) ∧
    Readable movState movState.cells.cr0 .fetch 0xFFFFFE [] ∧ 2 ^ 24 < 0xFFFFFE + neededBytes movState.cfg [] ∧
    0x80FFFE + neededBytes movState.cfg [] ≤ 2 ^ 24 ∧ ¬ InBlock 0x80FFFE (neededBytes movState.cfg []) ∧
    Readable (loadAtPc movState [0x91, 0x1B, 0x01]).arrive movState.cells.cr0 .fetch 0x100000 [0x91, 0x1B, 0x01] ∧
    [(0x91 : Byte), 0x1B, 0x01].length < neededBytes movState.cfg [0x91, 0x1B, 0x01] ∧
    checkByte { loadAtPc movState [0x91, 0x1B, 0x01] with code := [⟨0x100000, 0x100002⟩] } movState.cells.cr0 .fetch
      0x100003 = .error (.refuse (.fetchOutsideCode 0x100003)) ∧
    checkByte (loadAtPc movState [0x91, 0x1B, 0x01]) movState.cells.cr0 .fetch 0x100003 = .ok (.ram 0x100003) ∧
    (loadAtPc movState [0x91, 0x1B, 0x01]).byteAt (.ram 0x100003) = none := by decide

/-- A full slot, an empty slot with and without choices to come, and a masked request through a step. -/
theorem witness_request_lands :
    intState.pending = some 3 ∧ callState.pending = none ∧ callState.irqs = [] ∧
    State.irqs { callState with irqs := [some 7] } = some 7 :: [] ∧
    Cells.fIe { intState.cells with f := 0x80 } = false ∧
    (after (step { intState with cells := { intState.cells with f := 0x80 } })).isSome = true := by decide

/-- V211's entry under both byte orders, a segment word at each side of 0x00FF, a configured save. -/
theorem witness_interrupt_taken :
    intState.arrive = intState ∧ intState.cells.fIe = true ∧ intState.cells.fV8 = false ∧
    cr0Pg intState.cells.cr0 = false ∧
    Readable intState intState.cells.cr0 .read
      (BitVec.ofNat 32 (intState.cfg.idtBase.toNat + 4 * (3 : Fin 8192).val)) [0x10, 0x00] ∧
    Readable intState intState.cells.cr0 .read
      (BitVec.ofNat 32 (intState.cfg.idtBase.toNat + 4 * (3 : Fin 8192).val + 2)) [0x00, 0x20] ∧
    Carries .little 0x0010 [0x10, 0x00] ∧ Carries .little 0x2000 [0x00, 0x20] ∧ Carries .little 0x00FF [0xFF, 0x00] ∧
    Carries .little 0x0100 [0x00, 0x01] ∧ (0x00FF : Value).toNat ≤ 0xFF ∧ 0xFF < (0x0100 : Value).toNat ∧
    Cfg.reference.intEntry = .refuse ∧ Cfg.intEntry { Cfg.reference with intEntry := .save [] ⟨0, []⟩ } = .save [] ⟨0, []⟩ ∧
    entryActions intState.cells.cr0 [] { intState with pending := none } = .ok { intState with pending := none } := by
  decide

/-- The entry, a handler state like the one it leaves, and a step at the return point. -/
theorem witness_entry_saves :
    savingState.cfg.ioModel = .refuse ∧
    entryActions 0x10 (exampleEntry savingState.cfg 0xFFFFFF) savingState
      = .ok (stateOf savingState (entryActions 0x10 (exampleEntry savingState.cfg 0xFFFFFF) savingState)) ∧
    handlerState.mem
      = (stateOf savingState (entryActions 0x10 (exampleEntry savingState.cfg 0xFFFFFF) savingState)).mem ∧
    handlerState.cells.cr0 = 0x10 ∧ handlerState.cells.sp = 0x21B ∧
    returningState.arrive.takeable = none ∧ returningState.cells.fHalt = false ∧ returningState.cells.fV8 = false ∧
    cr0Pg returningState.cells.cr0 = false ∧ returningState.cells.pc = 0xFFFFFF :=
  ⟨rfl, rfl, rfl, rfl, rfl, rfl, rfl, rfl, rfl, rfl⟩

theorem witness_halted :
    Cells.fHalt { callState.cells with f := 0xC0 } = true ∧
    (State.arrive { callState with cells := { callState.cells with f := 0xC0 } }).takeable = none := by decide

theorem witness_unmodelled_modes :
    (State.arrive { callState with cells := { callState.cells with f := 0x400 } }).turn ≠ .idle ∧
    Cells.fV8 { callState.cells with f := 0x400 } = true ∧
    (withCr0 callState 0x80010).arrive.turn ≠ .idle ∧ (withCr0 callState 0x80010).cells.fV8 = false ∧
    cr0Pg (withCr0 callState 0x80010).cells.cr0 = true := by decide

/-- The state before a step of `mov A, [DS:B]`, and the state after it. -/
def stepped : State :=
  stateAfter movState (step (loadAtPc movState [0x91, 0x1B, 0x13]))

theorem witness_step_keeps :
    (loadAtPc movState [0x91, 0x1B, 0x13]).memWf = true ∧
    step (loadAtPc movState [0x91, 0x1B, 0x13]) = .next stepped := ⟨rfl, rfl⟩

/-- A run of one step with bytes in the code set and in the character set to keep. -/
theorem witness_reaches :
    Reaches (loadAtPc movState [0x91, 0x1B, 0x13]) stepped ∧ (Place.ram 0x100000).wf = true ∧
    (loadAtPc movState [0x91, 0x1B, 0x13]).inCode (Place.ram 0x100000).addr = true ∧ 0x038000 ≤ 0x03FFFF :=
  ⟨.step .refl rfl, rfl, rfl, by decide⟩

end Sys2Proof.Tests
end

section
/-! Addresses and the checks of one byte access (20_memory.md R54, R57, R58, R63, R66): an equation per branch of each
function, and the obligations that follow from them. -/
namespace Sys2Proof.Machine

/-! ### Linear and physical addresses -/

theorem linear_toNat (seg off : BitVec 16) : (linear seg off).toNat = seg.toNat * 0x10000 + off.toNat := by
  have hseg := seg.isLt
  have hoff := off.isLt
  rw [Claims.linear_eq, BitVec.toNat_ofNat]
  omega

section AddressWidth
variable {cr0 : BitVec 24}

theorem addressWidth_of_xm (hxm : cr0Xm cr0 = true) : addressWidth cr0 = 24 := by
  simp [addressWidth, hxm]

theorem addressWidth_of_a20 (hxm : cr0Xm cr0 = false) (ha20 : cr0A20 cr0 = true) : addressWidth cr0 = 20 := by
  simp [addressWidth, hxm, ha20]

theorem addressWidth_of_neither (hxm : cr0Xm cr0 = false) (ha20 : cr0A20 cr0 = false) : addressWidth cr0 = 16 := by
  simp [addressWidth, hxm, ha20]
end AddressWidth

section Phys
variable {cr0 : BitVec 24} {lin : Linear}

theorem phys_of_lt (ov : AddrOverflow) (h : lin.toNat < 2 ^ addressWidth cr0) : phys ov cr0 lin = .ok lin.toNat :=
  if_pos h

theorem phys_refuse_of_le (h : 2 ^ addressWidth cr0 ≤ lin.toNat) :
    phys .refuse cr0 lin = .error (.refuse (.addressBeyondWidth lin)) :=
  if_neg h.not_gt

theorem phys_wrap_of_le (h : 2 ^ addressWidth cr0 ≤ lin.toNat) :
    phys .wrap cr0 lin = .ok (lin.toNat % 2 ^ addressWidth cr0) :=
  if_neg h.not_gt
end Phys

/-! ### The checks of an access -/

theorem disputed_eq_true {p : Nat} :
    disputed p = true ↔ 0x010000 ≤ p ∧ p ≤ 0x0101FF ∨ 0x038000 ≤ p ∧ p ≤ 0x0381FF := by
  simp [disputed]

/-- Paging stands first among the checks of a byte (R65 step 1, R66). -/
theorem checkByte_of_paging (s : State) {cr0 : BitVec 24} (k : Access) (lin : Linear) (hpg : cr0Pg cr0 = true) :
    checkByte s cr0 k lin = .error (.refuse .pagingUnmodelled) :=
  if_pos hpg

/-- Without paging a byte's physical address decides its check: the disputed ranges, then the region (R65). -/
theorem checkByte_of_phys {s : State} {cr0 : BitVec 24} {lin : Linear} {p : Nat} (k : Access)
    (hpg : cr0Pg cr0 = false) (hp : phys s.cfg.addrOverflow cr0 lin = .ok p) :
    checkByte s cr0 k lin =
      if disputed p then .error (.refuse (.disputedRegion p)) else regionCheck s cr0 k p := by
  simp [checkByte, hpg, hp]

/-- Paging stands first among the checks of a whole access too (log 10). -/
theorem blockCheck_of_paging {cr0 : BitVec 24} (lin : Linear) (n : Nat) (hpg : cr0Pg cr0 = true) :
    blockCheck cr0 lin n = .error (.refuse .pagingUnmodelled) :=
  if_pos hpg

theorem memRead_of_blockCheck_error {cr0 : BitVec 24} {lin : Linear} {n : Nat} {e : Stop} (s : State)
    (h : blockCheck cr0 lin n = .error e) : memRead cr0 lin n s = .error e := by
  rw [memRead, h, Run.error_bind]

theorem memWrite_of_blockCheck_error {cr0 : BitVec 24} {lin : Linear} {n : Nat} {e : Stop} (v : Value) (s : State)
    (h : blockCheck cr0 lin n = .error e) : memWrite cr0 lin n v s = .error e := by
  rw [memWrite, h, Run.error_bind]

end Sys2Proof.Machine

namespace Sys2Proof.Claims
open Sys2Proof.Machine

/-- Settles O1: the address is the concatenation, whose value is the sum since the offset is below 0x10000. -/
theorem linearAddressIsSegmentThenOffset : Obligations.LinearAddressIsSegmentThenOffset :=
  ⟨linear_toNat, by decide⟩

/-- Settles O2: one equation of the width per case of the two bits. -/
theorem addressWidthFromCr0 : Obligations.AddressWidthFromCr0 := fun _ =>
  ⟨addressWidth_of_xm, addressWidth_of_a20, addressWidth_of_neither⟩

/-- Settles O3: below the width both settings agree; above it each has its own equation. -/
theorem physicalAddressWithinWidth : Obligations.PhysicalAddressWithinWidth := fun _ _ =>
  ⟨fun hlt ov => phys_of_lt ov hlt, fun hle => ⟨phys_refuse_of_le hle, phys_wrap_of_le hle⟩⟩

/-- Settles O4: without paging the disputed ranges come before the region, whatever the access. -/
theorem disputedRangesRefused : Obligations.DisputedRangesRefused := by
  intro s cr0 k lin p hpg hp hrange
  rw [checkByte_of_phys k hpg hp, if_pos (disputed_eq_true.mpr hrange)]

/-- Settles O9: paging is the first check of a byte, and of a whole access before its bytes. -/
theorem pagingRefusesEveryAccess : Obligations.PagingRefusesEveryAccess := by
  intro s cr0 hpg
  have hblock := fun lin n => blockCheck_of_paging lin n hpg
  exact ⟨fun k lin => checkByte_of_paging s k lin hpg,
    fun lin n => memRead_of_blockCheck_error s (hblock lin n),
    fun lin n v => memWrite_of_blockCheck_error v s (hblock lin n)⟩

end Sys2Proof.Claims
end

section
/-! The pc-relative address of mode 0x0F (30_encoding.md R97), one equation per setting of `REL_BASE`. -/
namespace Sys2Proof.Machine

/-- Adding a sign-extended offset adds its signed value, modulo 2^24: both summands are the images of integers. -/
theorem add_signExtend_toNat (base : CodeAddr) (o : BitVec 8) :
    (base + o.signExtend 24).toNat = (((base.toNat : Int) + o.toInt) % 0x1000000).toNat := by
  have hsum : base + o.signExtend 24 = BitVec.ofInt 24 ((base.toNat : Int) + o.toInt) := by
    rw [BitVec.ofInt_add, BitVec.ofInt_natCast, BitVec.ofNat_toNat, BitVec.setWidth_eq, BitVec.signExtend]
  rw [hsum, BitVec.toNat_ofInt]
  rfl

/-- A 24-bit base plus a signed offset, as a linear address. -/
theorem add_signExtend_setWidth (base : CodeAddr) (o : BitVec 8) :
    (base + o.signExtend 24).setWidth 32
      = BitVec.ofNat 32 (((base.toNat : Int) + o.toInt) % 0x1000000).toNat := by
  rw [← add_signExtend_toNat, BitVec.ofNat_toNat]

section RelativeTarget
variable {s : State}

theorem relativeTarget_of_next (next : CodeAddr) (o : BitVec 8) (h : s.cfg.relBase = .next) :
    relativeTarget s next o = BitVec.ofNat 32 (((next.toNat : Int) + o.toInt) % 0x1000000).toNat := by
  simp only [relativeTarget, h, add_signExtend_setWidth]

theorem relativeTarget_of_start (next : CodeAddr) (o : BitVec 8) (h : s.cfg.relBase = .start) :
    relativeTarget s next o = BitVec.ofNat 32 (((s.cells.pc.toNat : Int) + o.toInt) % 0x1000000).toNat := by
  simp only [relativeTarget, h, add_signExtend_setWidth]
end RelativeTarget

theorem operand_rel (s : State) (next : CodeAddr) (o : BitVec 8) :
    operand s next (.rel o) = .ok (.mem (relativeTarget s next o)) := rfl

end Sys2Proof.Machine

namespace Sys2Proof.Claims
open Sys2Proof.Machine

/-- Settles O26: the operand is memory at the relative target, which has one equation per base. -/
theorem relativeAddressIsSigned : Obligations.RelativeAddressIsSigned := by
  intro s next o
  constructor
  · intro hnext
    rw [operand_rel, relativeTarget_of_next next o hnext]
  · intro hstart
    rw [operand_rel, relativeTarget_of_start next o hstart]

end Sys2Proof.Claims
end

section
/-! What writes F (10_state.md R49; 41_special_instructions.md R125): a write to the register F, so that every primitive
but the store to a register and the pops of POPR keeps it. -/
namespace Sys2Proof.Machine

/-! ### The primitives -/

/-- F shares its cell with no other register. -/
theorem Cells.write_f_of_ne (c : Cells) {r : Reg} (v : Value) (hr : r ≠ .F) : (c.write r v).f = c.f := by
  cases r with
  | F => exact absurd rfl hr
  | _ => rfl

theorem push_f {cr0 : BitVec 24} {n : Nat} {v : Value} {s t : State} (h : push cr0 n v s = .ok t) :
    t.cells.f = s.cells.f := by
  obtain ⟨-, s1, hwrite, rfl⟩ := push_cases h
  simp [(memWrite_frame hwrite).1]

theorem pop_f {cr0 : BitVec 24} {n : Nat} {v : Value} {s t : State} (h : pop cr0 n s = .ok (v, t)) :
    t.cells.f = s.cells.f := by
  obtain ⟨_, _, rfl⟩ := Claims.pop_frame h
  rfl

theorem release_f {n : Nat} {s t : State} (h : release n s = .ok t) : t.cells.f = s.cells.f := by
  obtain ⟨-, rfl⟩ := release_cases h
  rfl

theorem pushAll_f {cr0 : BitVec 24} {items : List (Reg × Value)} {s t : State}
    (h : pushAll cr0 items s = .ok t) : t.cells.f = s.cells.f := by
  induction items generalizing s with
  | nil => cases h; rfl
  | cons item rest ih =>
    simp only [pushAll, Run.bind_eq_ok] at h
    obtain ⟨s1, hpush, hrest⟩ := h
    rw [ih hrest, push_f hpush]

/-- Pops into registers other than F keep it. -/
theorem popAll_f_of_notMem {cr0 : BitVec 24} {rs : List Reg} {s t : State} (h : popAll cr0 rs s = .ok t)
    (hF : Reg.F ∉ rs) : t.cells.f = s.cells.f := by
  induction rs generalizing s with
  | nil => cases h; rfl
  | cons r rest ih =>
    simp only [popAll, Run.bind_eq_ok, Prod.exists] at h
    obtain ⟨v, s1, hpop, r', hname, hrest⟩ := h
    obtain ⟨rfl, -⟩ := nameReg_cases hname
    obtain ⟨hr, hFrest⟩ := List.ne_and_not_mem_of_not_mem_cons hF
    rw [ih hrest hFrest, State.setReg_cells, Cells.write_f_of_ne _ _ hr.symm, pop_f hpop]

/-! ### The operands of MOV -/

/-- Reading an operand changes no register: at most it draws from a port. -/
theorem Operand.value_cells {d : Operand} {w : Nat} {v : Value} {s t : State} (h : d.value s w = .ok (v, t)) :
    t.cells = s.cells := by
  cases d with
  | imm wi x fl => cases h; rfl
  | reg r => cases h; rfl
  | mem lin => rw [(memRead_cases h).2.1]

/-- A store to memory or to a register other than F keeps it. -/
theorem Operand.store_f_of_ne {d : Operand} {w : Nat} {v : Value} {s t : State} (h : d.store s w v = .ok t)
    (hd : d ≠ .reg .F) : t.cells.f = s.cells.f := by
  cases d with
  | imm wi x fl => cases h
  | reg r =>
    have hr : r ≠ .F := fun hF => hd (congrArg _ hF)
    rw [Operand.store, if_neg fun hwide => hr hwide.1] at h
    cases h
    exact Cells.write_f_of_ne _ _ hr
  | mem lin => rw [(memWrite_frame h).1]

theorem moveOperands_f_of_ne {next : CodeAddr} {d sr : Operand} {s t : State}
    (h : moveOperands next d sr s = .ok t) (hd : d ≠ .reg .F) : t.cells.f = s.cells.f := by
  obtain ⟨-, -, w, v, s1, s2, -, hvalue, hstore, rfl⟩ := moveOperands_cases h
  calc (s2.setPc next).cells.f = s2.cells.f := rfl
    _ = s1.cells.f := Operand.store_f_of_ne hstore hd
    _ = s.cells.f := by rw [Operand.value_cells hvalue]

/-! ### The instructions -/

/-- RET pops and releases in either order; neither touches F. -/
theorem execRet_f {off : RetArg} {s t : State} (h : exec (.ret off) s = .next t) : t.cells.f = s.cells.f := by
  obtain ⟨ra, s1, s2, rfl, -, ⟨-, hrelease, hpop⟩ | ⟨-, hpop, hrelease⟩⟩ := execRet_cases h
  · exact (pop_f hpop).trans (release_f hrelease)
  · exact (release_f hrelease).trans (pop_f hpop)

theorem execCall_f {target : CallTarget} {s t : State} (h : exec (.call target) s = .next t) :
    t.cells.f = s.cells.f := by
  obtain ⟨-, s1, hpush, rfl⟩ := execCall_cases h
  simpa using push_f hpush

theorem execPushr_f {s t : State} (h : exec .pushr s = .next t) : t.cells.f = s.cells.f := by
  obtain ⟨rs, s1, -, -, hpush, rfl⟩ := execPushr_cases h
  simpa using pushAll_f hpush

end Sys2Proof.Machine

namespace Sys2Proof.Claims
open Sys2Proof.Machine

/-- Settles O49: CALL, PUSHR and RET keep F; a MOV whose destination is another operand, and a POPR without F in its
list, would keep it too. -/
theorem flagsChangeOnlyByMovOrPopr : Obligations.FlagsChangeOnlyByMovOrPopr := by
  intro i s t h hne
  cases i with
  | mov dst src =>
    obtain ⟨-, d, sr, hdst, -, hmove⟩ := execMov_cases h
    have hd : d = .reg .F := by_contra fun hother => hne (moveOperands_f_of_ne hmove hother)
    exact .inl ⟨dst, src, rfl, hd ▸ hdst⟩
  | ret off => exact absurd (execRet_f h) hne
  | call target => exact absurd (execCall_f h) hne
  | pushr => exact absurd (execPushr_f h) hne
  | popr =>
    obtain ⟨rs, s1, hlist, hpop, rfl⟩ := execPopr_cases h
    have hF : Reg.F ∈ rs := by
      by_contra hnot
      exact hne (by simpa using popAll_f_of_notMem hpop (mt List.mem_reverse.mp hnot))
    exact .inr ⟨rfl, rs, hlist, hF⟩

end Sys2Proof.Claims
end

section
/-! Encoding and decoding are inverse (30_encoding.md R85 to R107): first a register reference and a number, then an
argument, then the operand forms, then the whole instruction. -/
namespace Sys2Proof

/-! ### Numbers in a payload -/

theorem Cfg.valueIn_bytesOfNat (cfg : Cfg) {w n : Nat} {v : BitVec w} (hv : v.toNat < 256 ^ n) :
    cfg.valueIn w (cfg.byteOrder.bytesOfNat n v.toNat) = v := by
  simp [Cfg.valueIn, Nat.mod_eq_of_lt hv]

/-- A value of n bytes is read back from its n bytes. -/
theorem Cfg.valueIn_bytesOfNat_of_width (cfg : Cfg) {w : Nat} (n : Nat) (v : BitVec w) (hw : w = 8 * n) :
    cfg.valueIn w (cfg.byteOrder.bytesOfNat n v.toNat) = v :=
  cfg.valueIn_bytesOfNat (by rw [Claims.pow_256, ← hw]; exact v.isLt)

/-- Bytes no wider than the value they are read as are the bytes of that value. -/
theorem Cfg.bytesOfNat_valueIn (cfg : Cfg) {w n : Nat} {p : List Byte} (hp : p.length = n) (hw : 8 * n ≤ w) :
    cfg.byteOrder.bytesOfNat n (cfg.valueIn w p).toNat = p := by
  subst hp
  have hlt : cfg.byteOrder.natOfBytes p < 2 ^ w :=
    (ByteOrder.natOfBytes_lt _ p).trans_le
      (by rw [Claims.pow_256]; exact Nat.pow_le_pow_right (by decide) hw)
  rw [Cfg.valueIn, BitVec.toNat_ofNat, Nat.mod_eq_of_lt hlt, ByteOrder.bytesOfNat_natOfBytes]

/-- The number of mode 0x1F is read back as the bytes say it, where `BPREL_BYTES` is at most 2 (R104, log 16). -/
theorem signExtend_signExtendBytes {n v : Nat} (hn : n ≤ 2) (hv : v < 256 ^ n) :
    ((signExtendBytes n v).signExtend (8 * n)).toNat = v := by
  have hnarrow : (signExtendBytes n v).signExtend (8 * n) = BitVec.ofNat (8 * n) v := by
    apply BitVec.eq_of_getLsbD_eq
    intro i hi
    have hi16 : i < 16 := by omega
    simp only [signExtendBytes, BitVec.getLsbD_signExtend, hi, hi16, decide_true, Bool.true_and, if_true]
  rw [hnarrow, BitVec.toNat_ofNat, Nat.mod_eq_of_lt (by rwa [← Claims.pow_256])]

/-! ### Register references -/

/-- Where `REGNUM` gives no register twice, the identifier of a register an identifier names is that identifier. -/
theorem Cfg.idOf_of_regOf {cfg : Cfg} {id : Nat} {r : Reg} (hwf : cfg.regnumWf = true) (h : cfg.regOf id = some r) :
    cfg.idOf r = some id := by
  obtain ⟨-, hregs⟩ : (cfg.regnum.map (·.1)).Nodup ∧ (cfg.regnum.map (·.2)).Nodup := by
    simpa [Cfg.regnumWf] using hwf
  simp only [Cfg.regOf, Option.map_eq_some_iff] at h
  obtain ⟨e, hfind, rfl⟩ := h
  have hid : e.1 = id := by simpa using List.find?_some hfind
  have hmem : e ∈ cfg.regnum := List.mem_of_find?_eq_some hfind
  obtain ⟨e', hfind'⟩ : ∃ e', cfg.regnum.find? (fun x => x.2 == e.2) = some e' :=
    Option.isSome_iff_exists.mp (by simpa using ⟨_, hmem⟩)
  have hsame : e' = e :=
    List.inj_on_of_nodup_map hregs (List.mem_of_find?_eq_some hfind') hmem (by simpa using List.find?_some hfind')
  simp [Cfg.idOf, hfind', hsame, hid]

theorem Cfg.refIn_append_of_length (cfg : Cfg) {p : List Byte} (q : List Byte) (h : p.length = cfg.regidBytes) :
    cfg.refIn (p ++ q) = cfg.refOf (cfg.byteOrder.natOfBytes p) := by
  rw [Cfg.refIn, ← h, List.take_left]

/-- A well-formed reference stands in a payload as its identifier, and is what that identifier stands for (R95). -/
theorem RegRef.refOf_id {cfg : Cfg} {r : RegRef} (h : r.wf cfg = true) :
    r.id cfg < 256 ^ cfg.regidBytes ∧ cfg.refOf (r.id cfg) = r := by
  cases r with
  | unassigned id =>
    obtain ⟨hfits, hnone⟩ : id < 256 ^ cfg.regidBytes ∧ cfg.regOf id = none := by
      simpa [RegRef.wf, Cfg.idFits] using h
    exact ⟨hfits, by simp [RegRef.id, Cfg.refOf, hnone]⟩
  | named r =>
    cases hid : cfg.idOf r with
    | none => simp [RegRef.wf, hid] at h
    | some id =>
      obtain ⟨hfits, hreg⟩ : id < 256 ^ cfg.regidBytes ∧ cfg.regOf id = some r := by
        simpa [RegRef.wf, hid, Cfg.idFits] using h
      simp [RegRef.id, Cfg.refOf, hid, hreg, hfits]

theorem RegRef.refIn_encode_append {cfg : Cfg} {r : RegRef} (q : List Byte) (h : r.wf cfg = true) :
    cfg.refIn (r.encode cfg ++ q) = r := by
  obtain ⟨hfits, href⟩ := RegRef.refOf_id h
  rw [Cfg.refIn_append_of_length _ _ (by simp), RegRef.encode, ByteOrder.natOfBytes_bytesOfNat,
    Nat.mod_eq_of_lt hfits, href]

theorem RegRef.refIn_encode {cfg : Cfg} {r : RegRef} (h : r.wf cfg = true) : cfg.refIn (r.encode cfg) = r := by
  simpa using RegRef.refIn_encode_append [] h

theorem RegRef.id_refOf {cfg : Cfg} (id : Nat) (hwf : cfg.regnumWf = true) : (cfg.refOf id).id cfg = id := by
  cases hr : cfg.regOf id with
  | none => simp [Cfg.refOf, hr, RegRef.id]
  | some r => simp [Cfg.refOf, hr, RegRef.id, Cfg.idOf_of_regOf hwf hr]

/-- A reference read from a payload is encoded as the payload's first `REGID_BYTES` bytes. -/
theorem RegRef.encode_refIn {cfg : Cfg} {p : List Byte} (hwf : cfg.regnumWf = true) (hp : cfg.regidBytes ≤ p.length) :
    (cfg.refIn p).encode cfg = p.take cfg.regidBytes := by
  have hlen : (p.take cfg.regidBytes).length = cfg.regidBytes := by simpa using hp
  have hbytes := ByteOrder.bytesOfNat_natOfBytes cfg.byteOrder (p.take cfg.regidBytes)
  rw [hlen] at hbytes
  rw [RegRef.encode, Cfg.refIn, RegRef.id_refOf _ hwf, hbytes]

/-! ### Arguments -/

/-- A well-formed argument is read back from its payload. -/
theorem decodeArg_payload {cfg : Cfg} {a : Arg} (h : a.wf cfg = true) :
    decodeArg cfg a.mode (a.payload cfg) = some a := by
  cases a with
  | segReg rs ro =>
    obtain ⟨hrs, hro⟩ : rs.wf cfg = true ∧ ro.wf cfg = true := by simpa [Arg.wf] using h
    have hdrop : (rs.encode cfg ++ ro.encode cfg).drop cfg.regidBytes = ro.encode cfg :=
      List.drop_left' (by simp)
    simp [Arg.mode, Arg.payload, decodeArg, hdrop, RegRef.refIn_encode hro, RegRef.refIn_encode_append _ hrs]
  | segImm rs off =>
    obtain ⟨hrs, hoff⟩ : rs.wf cfg = true ∧ off.toNat < 256 ^ cfg.segimmBytes := by simpa [Arg.wf] using h
    have hdrop : (rs.encode cfg ++ cfg.byteOrder.bytesOfNat cfg.segimmBytes off.toNat).drop cfg.regidBytes
        = cfg.byteOrder.bytesOfNat cfg.segimmBytes off.toNat := List.drop_left' (by simp)
    simp [Arg.mode, Arg.payload, decodeArg, hdrop, RegRef.refIn_encode_append _ hrs,
      Cfg.valueIn_bytesOfNat _ hoff]
  | bpRel n =>
    have hn : (n.signExtend (8 * cfg.bprelBytes)).signExtend 16 = n := by simpa [Arg.wf] using h
    have hlt := (n.signExtend (8 * cfg.bprelBytes)).isLt
    simp only [Arg.mode, Arg.payload, decodeArg, signExtendBytes, ByteOrder.natOfBytes_bytesOfNat, Claims.pow_256]
    rw [Nat.mod_eq_of_lt hlt, BitVec.ofNat_toNat, BitVec.setWidth_eq, hn]
  | reg r | regAddr r | dsReg r =>
    simp [Arg.mode, Arg.payload, decodeArg, RegRef.refIn_encode (r := r) (by simpa [Arg.wf] using h)]
  | immByte v | immWord v | immTbyte v | immDword v | immQword v | immFloat v | near v | addr v | long v | far v
  | rel v => simp [Arg.mode, Arg.payload, decodeArg, Cfg.valueIn_bytesOfNat_of_width]
  | dsB | regAL | regA | regAX | regHL | addrHL | regBL | regB | regBX | regAF | regBF | regCF | regDF => rfl

/-- The mode of a decoded argument is the mode it was decoded by, which is not None. -/
theorem mode_of_decodeArg {cfg : Cfg} {m : Mode} {p : List Byte} {a : Arg} (h : decodeArg cfg m p = some a) :
    a.mode = m := by
  cases m <;> cases h <;> rfl

/-- A decoded argument has the payload it was decoded from. -/
theorem payload_of_decodeArg {cfg : Cfg} {m : Mode} {p : List Byte} {a : Arg} (hreg : cfg.regnumWf = true)
    (hseg : cfg.segimmBytes ≤ 2) (hbp : cfg.bprelBytes ≤ 2) (hp : p.length = m.plen cfg)
    (h : decodeArg cfg m p = some a) : a.payload cfg = p := by
  have hid : cfg.regidBytes ≤ p.length → (cfg.refIn p).encode cfg = p.take cfg.regidBytes := RegRef.encode_refIn hreg
  cases m with
  | segReg =>
    cases h
    simp only [Mode.plen] at hp
    simp only [Arg.payload]
    rw [hid (by omega), RegRef.encode_refIn hreg (by simp; omega), List.take_of_length_le (l := p.drop _)]
    · exact List.take_append_drop _ _
    · simp; omega
  | segImm =>
    cases h
    simp only [Mode.plen] at hp
    have hoff : (p.drop cfg.regidBytes).length = cfg.segimmBytes := by simp; omega
    rw [Arg.payload, hid (by omega), Cfg.bytesOfNat_valueIn cfg hoff (by omega), List.take_append_drop]
  | bpRel =>
    cases h
    simp only [Mode.plen] at hp
    have hlt := ByteOrder.natOfBytes_lt cfg.byteOrder p
    rw [hp] at hlt
    rw [Arg.payload, signExtend_signExtendBytes hbp hlt, ← hp, ByteOrder.bytesOfNat_natOfBytes]
  | reg | regAddr | dsReg =>
    cases h
    simp only [Mode.plen] at hp
    rw [Arg.payload, hid hp.ge, ← hp, List.take_length]
  | none => cases h
  | immByte | immWord | immTbyte | immDword | immQword | immFloat | near | addr | long | far | rel =>
    cases h
    exact Cfg.bytesOfNat_valueIn cfg hp (by decide)
  | dsB | regAL | regA | regAX | regHL | addrHL | regBL | regB | regBX | regAF | regBF | regCF | regDF =>
    cases h
    exact (List.eq_nil_of_length_eq_zero hp).symm

/-! ### The header -/

/-- Mode None stands as argument1 only with no argument2 (R90). -/
def legalModes (ma mb : Mode) : Prop := ma = .none → mb = .none

theorem headerModes_code {ma mb : Mode} (h : legalModes ma mb) : headerModes ma.code mb.code = .ok (ma, mb) := by
  have hcond : ¬ (ma = .none ∧ mb.code ≠ Mode.none.code) := fun ⟨hma, hcode⟩ => hcode (by rw [h hma])
  simp [headerModes, hcond]

/-- Everything two mode bytes that are admitted can be. -/
theorem headerModes_cases {a b : Byte} {ma mb : Mode} (h : headerModes a b = .ok (ma, mb)) :
    a = ma.code ∧ b = mb.code ∧ legalModes ma mb := by
  unfold headerModes at h
  split at h
  · cases h
  · rename_i ma' ha
    split at h
    · cases h
    · rename_i hcond
      split at h
      · cases h
      · rename_i mb' hb
        cases h
        refine ⟨(Mode.code_of_ofCode ha).symm, (Mode.code_of_ofCode hb).symm, fun hma => ?_⟩
        by_contra hne
        refine hcond ⟨hma, fun hcode => hne ?_⟩
        simpa [hcode] using hb.symm

theorem Cfg.mnemonicOf_opcode {cfg : Cfg} (h : cfg.opcWf = true) (m : Mnemonic) :
    cfg.mnemonicOf (cfg.opcode m) = some m := by
  have hnodup : [cfg.opc.mov, cfg.opc.ret, cfg.opc.call, cfg.opc.pushr, cfg.opc.popr].Nodup := by
    simpa only [Cfg.opcWf, decide_eq_true_eq] using h
  simp only [List.nodup_cons, List.mem_cons, List.not_mem_nil, or_false, not_or] at hnodup
  obtain ⟨⟨h1, h2, h3, h4⟩, ⟨h5, h6, h7⟩, ⟨h8, h9⟩, h10, -⟩ := hnodup
  cases m <;> simp [Cfg.mnemonicOf, Cfg.opcode, Ne.symm, *]

theorem Cfg.opcode_of_mnemonicOf {cfg : Cfg} {x : Byte} {m : Mnemonic} (h : cfg.mnemonicOf x = some m) :
    x = cfg.opcode m := by
  unfold Cfg.mnemonicOf at h
  split_ifs at h <;> cases h <;> assumption

/-! ### From a header and payload to an instruction, and back -/

section Decode
variable {cfg : Cfg} {x : Byte} {ma mb : Mode} {p : List Byte}

theorem decode_of_decodePayload_ok {i : Instr} (hlegal : legalModes ma mb)
    (hlen : ma.plen cfg + mb.plen cfg ≤ p.length) (h : decodePayload cfg x ma mb p = .ok i) :
    decode cfg (x :: ma.code :: mb.code :: p) = .ok (i, p.drop (ma.plen cfg + mb.plen cfg)) := by
  simp [decode, headerModes_code hlegal, hlen.not_gt, h]

theorem decode_of_decodePayload_error {r : DecodeReject} (hlegal : legalModes ma mb)
    (hlen : ma.plen cfg + mb.plen cfg ≤ p.length) (h : decodePayload cfg x ma mb p = .error r) :
    decode cfg (x :: ma.code :: mb.code :: p) = .error (.rejected r) := by
  simp [decode, headerModes_code hlegal, hlen.not_gt, h]

theorem decode_of_headerModes_error {a b : Byte} {r : DecodeReject} (h : headerModes a b = .error r) :
    decode cfg (x :: a :: b :: p) = .error (.rejected r) := by
  simp [decode, h]

/-- Everything a decoding that succeeds can be: a legal header, its payload whole, and a form that is admitted. -/
theorem decode_cases {bytes rest : List Byte} {i : Instr} (h : decode cfg bytes = .ok (i, rest)) :
    ∃ x ma mb p, bytes = x :: ma.code :: mb.code :: p ∧ legalModes ma mb ∧
      ma.plen cfg + mb.plen cfg ≤ p.length ∧ decodePayload cfg x ma mb p = .ok i ∧
      rest = p.drop (ma.plen cfg + mb.plen cfg) := by
  unfold decode at h
  split at h
  · rename_i x a b p
    split at h
    · cases h
    · rename_i ma mb hmodes
      split at h
      · cases h
      · rename_i hlen
        split at h
        · cases h
        · rename_i i' hform
          cases h
          obtain ⟨rfl, rfl, hlegal⟩ := headerModes_cases hmodes
          exact ⟨x, ma, mb, p, rfl, hlegal, not_lt.mp hlen, hform, rfl⟩
  · cases h

end Decode

/-- Payloads that stand one after the other are cut apart at their lengths (R91). -/
theorem decodePayload_append {cfg : Cfg} {x : Byte} {ma mb : Mode} {pa pb : List Byte} (rest : List Byte)
    (ha : pa.length = ma.plen cfg) (hb : pb.length = mb.plen cfg) :
    decodePayload cfg x ma mb (pa ++ (pb ++ rest)) = decodeForm cfg x ma mb pa pb := by
  rw [decodePayload, ← ha, ← hb, List.take_left, List.drop_left, List.take_left]

/-- The payloads of argument1 and argument2 (R91). -/
def Instr.payloads (cfg : Cfg) : Instr → List Byte × List Byte
  | .mov d s => (d.payload cfg, s.payload cfg)
  | .ret n => (n.payload cfg, [])
  | .call t => (t.payload cfg, [])
  | .pushr | .popr => ([], [])

theorem Instr.payload_eq_payloads (cfg : Cfg) (i : Instr) :
    i.payload cfg = (i.payloads cfg).1 ++ (i.payloads cfg).2 := by
  cases i <;> simp [Instr.payload, Instr.payloads]

theorem Instr.payloads_length (cfg : Cfg) (i : Instr) :
    (i.payloads cfg).1.length = i.modes.1.plen cfg ∧ (i.payloads cfg).2.length = i.modes.2.plen cfg := by
  cases i <;> simp [Instr.payloads, Instr.modes, Mode.plen]

theorem Instr.legalModes_modes (i : Instr) : legalModes i.modes.1 i.modes.2 := by
  cases i <;> simp [legalModes, Instr.modes]

/-- The mode bytes and payloads of a well-formed instruction decode to it. -/
theorem decodeForm_payloads {cfg : Cfg} {i : Instr} (hopc : cfg.opcWf = true) (h : i.wf cfg = true) :
    decodeForm cfg (cfg.opcode i.mnemonic) i.modes.1 i.modes.2 (i.payloads cfg).1 (i.payloads cfg).2 = .ok i := by
  rw [decodeForm, Cfg.mnemonicOf_opcode hopc]
  cases i with
  | mov d s =>
    obtain ⟨⟨himm, hd⟩, hs⟩ : (d.mode.isImm = false ∧ d.wf cfg = true) ∧ s.wf cfg = true := by
      simpa [Instr.wf] using h
    simp [Instr.mnemonic, Instr.modes, Instr.payloads, decodeMov, himm, decodeArg_payload hd, decodeArg_payload hs]
  | ret n =>
    cases n <;> simp [Instr.mnemonic, Instr.modes, Instr.payloads, decodeRet, RetArg.mode, RetArg.payload,
      Cfg.valueIn_bytesOfNat_of_width]
  | call t =>
    cases t <;> simp [Instr.mnemonic, Instr.modes, Instr.payloads, decodeCall, CallTarget.mode, CallTarget.payload,
      Cfg.valueIn_bytesOfNat_of_width]
  | pushr => rfl
  | popr => rfl

/-- Everything a MOV that decodes can be. -/
theorem decodeMov_cases {cfg : Cfg} {ma mb : Mode} {pa pb : List Byte} {i : Instr}
    (h : decodeMov cfg ma mb pa pb = .ok i) :
    ∃ d s, i = .mov d s ∧ decodeArg cfg ma pa = some d ∧ decodeArg cfg mb pb = some s := by
  unfold decodeMov at h
  split at h
  · cases h
  · split at h
    · rename_i d s hd hs
      cases h
      exact ⟨d, s, rfl, hd, hs⟩
    · cases h

/-- Everything a RET that decodes can be. -/
theorem decodeRet_cases {cfg : Cfg} {ma mb : Mode} {pa : List Byte} {i : Instr}
    (h : decodeRet cfg ma mb pa = .ok i) :
    ∃ n : RetArg, i = .ret n ∧ mb = .none ∧ n.mode = ma ∧ (pa.length = ma.plen cfg → n.payload cfg = pa) := by
  unfold decodeRet at h
  split at h
  · split at h <;> cases h <;> refine ⟨_, rfl, ‹_›, rfl, fun hp => ?_⟩
    · exact (List.eq_nil_of_length_eq_zero hp).symm
    · exact Cfg.bytesOfNat_valueIn cfg hp (by decide)
    · exact Cfg.bytesOfNat_valueIn cfg hp (by decide)
  · cases h

/-- Everything a CALL that decodes can be. -/
theorem decodeCall_cases {cfg : Cfg} {ma mb : Mode} {pa : List Byte} {i : Instr}
    (h : decodeCall cfg ma mb pa = .ok i) :
    ∃ t : CallTarget, i = .call t ∧ mb = .none ∧ t.mode = ma ∧ (pa.length = ma.plen cfg → t.payload cfg = pa) := by
  unfold decodeCall at h
  split at h
  · split at h <;> cases h <;> refine ⟨_, rfl, ‹_›, rfl, fun hp => ?_⟩ <;>
      exact Cfg.bytesOfNat_valueIn cfg hp (by decide)
  · cases h

theorem decodePushr_cases {ma mb : Mode} {i : Instr} (h : decodePushr ma mb = .ok i) :
    i = .pushr ∧ ma = .none ∧ mb = .none := by
  unfold decodePushr at h
  split at h
  · cases h; exact ⟨rfl, ‹_›⟩
  · cases h

theorem decodePopr_cases {ma mb : Mode} {i : Instr} (h : decodePopr ma mb = .ok i) :
    i = .popr ∧ ma = .none ∧ mb = .none := by
  unfold decodePopr at h
  split at h
  · cases h; exact ⟨rfl, ‹_›⟩
  · cases h

section Form
variable {cfg : Cfg} {x : Byte} {ma mb : Mode} {pa pb : List Byte} {i : Instr}

/-- Everything an operand form that is admitted can be: the opcode byte and the modes are the instruction's. -/
theorem decodeForm_cases (h : decodeForm cfg x ma mb pa pb = .ok i) :
    x = cfg.opcode i.mnemonic ∧ i.modes = (ma, mb) := by
  unfold decodeForm at h
  split at h
  · cases h
  · obtain ⟨d, s, rfl, hd, hs⟩ := decodeMov_cases h
    exact ⟨Cfg.opcode_of_mnemonicOf ‹_›, by rw [Instr.modes, mode_of_decodeArg hd, mode_of_decodeArg hs]⟩
  · obtain ⟨n, rfl, rfl, rfl, -⟩ := decodeRet_cases h
    exact ⟨Cfg.opcode_of_mnemonicOf ‹_›, rfl⟩
  · obtain ⟨t, rfl, rfl, rfl, -⟩ := decodeCall_cases h
    exact ⟨Cfg.opcode_of_mnemonicOf ‹_›, rfl⟩
  · obtain ⟨rfl, rfl, rfl⟩ := decodePushr_cases h
    exact ⟨Cfg.opcode_of_mnemonicOf ‹_›, rfl⟩
  · obtain ⟨rfl, rfl, rfl⟩ := decodePopr_cases h
    exact ⟨Cfg.opcode_of_mnemonicOf ‹_›, rfl⟩

/-- A decoded instruction has the payloads it was decoded from. -/
theorem payloads_of_decodeForm (hreg : cfg.regnumWf = true) (hseg : cfg.segimmBytes ≤ 2) (hbp : cfg.bprelBytes ≤ 2)
    (ha : pa.length = ma.plen cfg) (hb : pb.length = mb.plen cfg) (h : decodeForm cfg x ma mb pa pb = .ok i) :
    i.payloads cfg = (pa, pb) := by
  have hempty : ∀ {p : List Byte}, p.length = Mode.none.plen cfg → [] = p :=
    fun hp => (List.eq_nil_of_length_eq_zero hp).symm
  unfold decodeForm at h
  split at h
  · cases h
  · obtain ⟨d, s, rfl, hd, hs⟩ := decodeMov_cases h
    rw [Instr.payloads, payload_of_decodeArg hreg hseg hbp ha hd, payload_of_decodeArg hreg hseg hbp hb hs]
  · obtain ⟨n, rfl, rfl, -, hn⟩ := decodeRet_cases h
    rw [Instr.payloads, hn ha, hempty hb]
  · obtain ⟨t, rfl, rfl, -, ht⟩ := decodeCall_cases h
    rw [Instr.payloads, ht ha, hempty hb]
  · obtain ⟨rfl, rfl, rfl⟩ := decodePushr_cases h
    rw [Instr.payloads, ← hempty ha, ← hempty hb]
  · obtain ⟨rfl, rfl, rfl⟩ := decodePopr_cases h
    rw [Instr.payloads, ← hempty ha, ← hempty hb]

end Form

end Sys2Proof

namespace Sys2Proof.Claims
open Sys2Proof.Machine

/-- Settles O19: the header names opcode and modes, the payloads are cut apart where they were joined, and each form
decodes to the instruction. -/
theorem decodeOfEncodeIsTheInstruction : Obligations.DecodeOfEncodeIsTheInstruction := by
  intro cfg i rest hopc hwf
  obtain ⟨hla, hlb⟩ := i.payloads_length cfg
  have hform : decodePayload cfg (cfg.opcode i.mnemonic) i.modes.1 i.modes.2 (i.payload cfg ++ rest) = .ok i := by
    rw [Instr.payload_eq_payloads, List.append_assoc, decodePayload_append rest hla hlb]
    exact decodeForm_payloads hopc hwf
  have hlen : (i.payload cfg).length = i.modes.1.plen cfg + i.modes.2.plen cfg := by
    rw [Instr.payload_eq_payloads, List.length_append, hla, hlb]
  have hdecode := decode_of_decodePayload_ok i.legalModes_modes (by rw [List.length_append, hlen]; omega) hform
  rw [List.drop_left' hlen] at hdecode
  exact hdecode

/-- Settles O20: the form gives back opcode, modes and payloads, and the payloads are the bytes they were cut from. -/
theorem encodeOfDecodeIsTheBytes : Obligations.EncodeOfDecodeIsTheBytes := by
  intro cfg bytes rest i hwf h
  obtain ⟨⟨⟨⟨⟨-, hreg⟩, -⟩, hseg⟩, hbp⟩, -⟩ : ((((cfg.opcWf = true ∧ cfg.regnumWf = true) ∧ _) ∧
      cfg.segimmBytes ≤ 2) ∧ cfg.bprelBytes ≤ 2) ∧ _ := by
    simpa only [cfgWf, Bool.and_eq_true, decide_eq_true_eq] using hwf
  obtain ⟨x, ma, mb, p, rfl, -, hlen, hform, rfl⟩ := decode_cases h
  obtain ⟨rfl, hmodes⟩ := decodeForm_cases hform
  have hpayloads := payloads_of_decodeForm hreg hseg hbp (by simp; omega) (by simp; omega) hform
  rw [encode, Instr.payload_eq_payloads, hpayloads, hmodes, List.cons_append, List.cons_append, List.cons_append,
    List.append_assoc, ← List.drop_drop, List.take_append_drop, List.take_append_drop]

end Sys2Proof.Claims
end

section
/-! What the decoder rejects, and the length of what it accepts (30_encoding.md R88 to R90, R105 to R107, R112). -/
namespace Sys2Proof

/-! ### Mode bytes -/

theorem headerModes_of_reserved_first {a : Byte} (b : Byte) (ha : Mode.ofCode a = none) :
    headerModes a b = .error (.reservedArgMode a) := by
  simp [headerModes, ha]

theorem headerModes_of_reserved_second {a b : Byte} {ma : Mode} (ha : Mode.ofCode a = some ma) (hma : ma ≠ .none)
    (hb : Mode.ofCode b = none) : headerModes a b = .error (.reservedArgMode b) := by
  simp [headerModes, ha, hma, hb]

theorem headerModes_of_absent_first {b : Byte} (hb : b ≠ 0xFF) :
    headerModes 0xFF b = .error (.reservedArgMode 0xFF) :=
  if_pos ⟨rfl, hb⟩

/-- The codes that R89 reserves. -/
def reservedCode (c : Byte) : Prop :=
  c = 0x04 ∨ c = 0x05 ∨ c = 0x0A ∨ 0x14 ≤ c ∧ c ≤ 0x19 ∨ 0x23 ≤ c ∧ c ≤ 0xEF ∨ 0xF4 ≤ c ∧ c ≤ 0xFE

theorem Mode.not_reservedCode_code (m : Mode) : ¬ reservedCode m.code := by
  unfold reservedCode
  cases m <;> decide

theorem Mode.ofCode_of_reservedCode {c : Byte} (h : reservedCode c) : Mode.ofCode c = Option.none := by
  by_contra hsome
  obtain ⟨m, hm⟩ := Option.ne_none_iff_exists'.mp hsome
  exact m.not_reservedCode_code (Mode.code_of_ofCode hm ▸ h)

theorem Mode.isImm_iff_code (m : Mode) :
    m.isImm = true ↔ m.code ∈ ([0x00, 0x01, 0x02, 0x03, 0x06, 0x07] : List Byte) := by
  cases m <;> decide

/-! ### Operand forms -/

theorem Cfg.mnemonicOf_eq_none {cfg : Cfg} {x : Byte} (h : ∀ m, x ≠ cfg.opcode m) : cfg.mnemonicOf x = none := by
  by_contra hsome
  obtain ⟨m, hm⟩ := Option.ne_none_iff_exists'.mp hsome
  exact h m (Cfg.opcode_of_mnemonicOf hm)

section Forms
variable (cfg : Cfg) {ma mb : Mode} (pa pb : List Byte)

theorem decodeMov_of_isImm (h : ma.isImm = true) : decodeMov cfg ma mb pa pb = .error .writeToImmediate :=
  if_pos h

theorem decodeMov_of_absent_second (h : ma.isImm = false) :
    decodeMov cfg ma .none pa pb = .error (.operandForm .mov ma .none) := by
  rw [decodeMov, h]
  cases decodeArg cfg ma pa <;> rfl

theorem decodeRet_of_not_form (h : ¬ ((ma = .none ∨ ma = .immByte ∨ ma = .immWord) ∧ mb = .none)) :
    decodeRet cfg ma mb pa = .error (.operandForm .ret ma mb) := by
  unfold decodeRet
  split
  · rename_i hmb
    split
    · exact absurd ⟨.inl rfl, hmb⟩ h
    · exact absurd ⟨.inr (.inl rfl), hmb⟩ h
    · exact absurd ⟨.inr (.inr rfl), hmb⟩ h
    · rfl
  · rfl

theorem decodeCall_of_not_form (h : ¬ ((ma = .long ∨ ma = .far ∨ ma = .rel) ∧ mb = .none)) :
    decodeCall cfg ma mb pa = .error (.operandForm .call ma mb) := by
  unfold decodeCall
  split
  · rename_i hmb
    split
    · exact absurd ⟨.inl rfl, hmb⟩ h
    · exact absurd ⟨.inr (.inl rfl), hmb⟩ h
    · exact absurd ⟨.inr (.inr rfl), hmb⟩ h
    · rfl
  · rfl

end Forms

/-! ### Lengths -/

theorem argRow_fst (cfg : Cfg) (a : Arg) : (Claims.argRow cfg a).1 = a.mode.code := by cases a <;> rfl

theorem argRow_snd (cfg : Cfg) (a : Arg) : (Claims.argRow cfg a).2 = a.mode.plen cfg := by cases a <;> rfl

theorem Machine.pcNext_toNat (s : Machine.State) (i : Instr) :
    (Machine.pcNext s i).toNat = (s.cells.pc.toNat + i.len s.cfg) % 2 ^ 24 := by
  simp [Machine.pcNext, BitVec.toNat_add]

end Sys2Proof

namespace Sys2Proof.Claims
open Sys2Proof.Machine

/-- Settles O23: with the payload present the form decides, and each form has the combinations it admits. -/
theorem operandFormsRejected : Obligations.OperandFormsRejected := by
  intro cfg x ma mb rest hopc hlegal hlen
  have reject : ∀ {r}, (∀ pa pb, decodeForm cfg x ma mb pa pb = .error r) →
      decode cfg (x :: ma.code :: mb.code :: rest) = .error (.rejected r) :=
    fun h => decode_of_decodePayload_error hlegal hlen (h _ _)
  have form : ∀ {m}, x = cfg.opcode m → cfg.mnemonicOf x = some m := fun hx => hx ▸ Cfg.mnemonicOf_opcode hopc _
  refine ⟨fun hx => ?_, fun hx himm => ?_, fun hx himm hmb => ?_, fun hx hnot => ?_, fun hx hnot => ?_,
    fun hx hnot => ?_, fun hx hnot => ?_⟩ <;> refine reject fun pa pb => ?_
  · rw [decodeForm, Cfg.mnemonicOf_eq_none hx]
  · rw [decodeForm, form hx]
    exact decodeMov_of_isImm cfg pa pb himm
  · rw [decodeForm, form hx, hmb]
    exact decodeMov_of_absent_second cfg pa pb himm
  · rw [decodeForm, form hx]
    exact decodeRet_of_not_form cfg pa hnot
  · rw [decodeForm, form hx]
    exact decodeCall_of_not_form cfg pa hnot
  · rw [decodeForm, form hx]
    exact if_neg hnot
  · rw [decodeForm, form hx]
    exact if_neg hnot

/-- Settles O24: the table is read off the modes; a decoding takes the header and the two payloads its modes give. -/
theorem lengthFromTheModeBytes : Obligations.LengthFromTheModeBytes := by
  refine ⟨fun cfg a => ?_, fun cfg => ⟨rfl, rfl, rfl⟩, fun cfg x a b tail rest i h => ?_, Machine.pcNext_toNat⟩
  · rw [argRow_fst, argRow_snd]
    exact ⟨rfl, Mode.ofCode_code _, rfl, Mode.isImm_iff_code _⟩
  · obtain ⟨x', ma, mb, p, hbytes, -, hlen, hform, rfl⟩ := decode_cases h
    obtain ⟨-, hmodes⟩ := decodeForm_cases hform
    cases hbytes
    have hilen : i.len cfg = 3 + ma.plen cfg + mb.plen cfg := by rw [Instr.len, hmodes]
    refine ⟨ma, mb, Mode.ofCode_code ma, Mode.ofCode_code mb, hilen, ?_⟩
    rw [hilen, List.length_drop]
    omega

/-- Settles O22: a reserved code names no mode, and the header's checks come before anything of the opcode byte. -/
theorem reservedModesRejected : Obligations.ReservedModesRejected := by
  intro cfg x a b rest
  refine ⟨fun c hc => ?_, ?_⟩
  · have hnone : Mode.ofCode c = none := Mode.ofCode_of_reservedCode hc
    constructor
    · rintro rfl
      exact decode_of_headerModes_error (headerModes_of_reserved_first b hnone)
    · rintro rfl ha ⟨m, hm⟩
      have hmne : m ≠ .none := by
        rintro rfl
        exact ha (Mode.code_of_ofCode hm).symm
      exact decode_of_headerModes_error (headerModes_of_reserved_second hm hmne hnone)
  · rintro rfl hb
    exact decode_of_headerModes_error (headerModes_of_absent_first hb)

/-- Settles O21: the decoder runs on each of the eleven words. -/
theorem specWordsDecode : Obligations.SpecWordsDecode :=
  ⟨rfl, rfl, rfl, rfl, rfl, rfl, rfl, rfl, rfl, rfl, rfl⟩

end Sys2Proof.Claims
end

section
/-! What every step keeps (00_scope.md R11; 20_memory.md R64, R69, R82; 10_state.md R47): a relation that the few
primitive changes of a state keep holds between the states before and after an instruction, a step and a run. -/
namespace Sys2Proof.Machine

/-! ### One principle for all instructions and steps -/

theorem State.setPc_eq_setReg (s : State) (p : CodeAddr) : s.setPc p = s.setReg .PC (p.setWidth 64) := by
  simp [State.setPc, State.setReg, Cells.write]

theorem State.setSp_eq_setReg (s : State) (v : BitVec 16) : s.setSp v = s.setReg .SP (v.setWidth 64) := by
  simp [State.setSp, State.setReg, Cells.write]

/-- A reflexive and transitive relation that holds across each of the primitive changes an instruction is made of: a
draw from a port, a register write, a memory write. -/
structure KeptByPrimitives (R : State → State → Prop) : Prop where
  refl : ∀ s, R s s
  trans : ∀ {s t u}, R s t → R t u → R s u
  draw : ∀ s k, R s { s with ioDraws := k }
  setReg : ∀ s r v, R s (s.setReg r v)
  write : ∀ {cr0 lin n v s t}, memWrite cr0 lin n v s = .ok t → R s t

namespace KeptByPrimitives
variable {R : State → State → Prop} (hR : KeptByPrimitives R)
include hR

theorem setPc (s : State) (p : CodeAddr) : R s (s.setPc p) := s.setPc_eq_setReg p ▸ hR.setReg s .PC _

theorem setSp (s : State) (v : BitVec 16) : R s (s.setSp v) := s.setSp_eq_setReg v ▸ hR.setReg s .SP _

theorem read {cr0 : BitVec 24} {lin : Linear} {n : Nat} {v : Value} {s t : State}
    (h : memRead cr0 lin n s = .ok (v, t)) : R s t := by
  rw [(memRead_cases h).2.1]
  exact hR.draw _ _

theorem push {cr0 : BitVec 24} {n : Nat} {v : Value} {s t : State} (h : push cr0 n v s = .ok t) : R s t := by
  obtain ⟨-, s1, hwrite, rfl⟩ := push_cases h
  exact hR.trans (hR.write hwrite) (hR.setSp _ _)

theorem pop {cr0 : BitVec 24} {n : Nat} {v : Value} {s t : State} (h : pop cr0 n s = .ok (v, t)) : R s t := by
  obtain ⟨-, s1, hread, rfl⟩ := pop_cases h
  exact hR.trans (hR.read hread) (hR.setSp _ _)

theorem release {n : Nat} {s t : State} (h : release n s = .ok t) : R s t := by
  obtain ⟨-, rfl⟩ := release_cases h
  exact hR.setSp _ _

theorem pushAll {cr0 : BitVec 24} {items : List (Reg × Value)} {s t : State}
    (h : pushAll cr0 items s = .ok t) : R s t := by
  induction items generalizing s with
  | nil => cases h; exact hR.refl _
  | cons item rest ih =>
    simp only [Machine.pushAll, Run.bind_eq_ok] at h
    obtain ⟨s1, hpush, hrest⟩ := h
    exact hR.trans (hR.push hpush) (ih hrest)

theorem popAll {cr0 : BitVec 24} {rs : List Reg} {s t : State} (h : popAll cr0 rs s = .ok t) : R s t := by
  induction rs generalizing s with
  | nil => cases h; exact hR.refl _
  | cons r rest ih =>
    simp only [Machine.popAll, Run.bind_eq_ok, Prod.exists] at h
    obtain ⟨v, s1, hpop, r', -, hrest⟩ := h
    exact hR.trans (hR.trans (hR.pop hpop) (hR.setReg _ _ _)) (ih hrest)

theorem operandValue {d : Operand} {w : Nat} {v : Value} {s t : State} (h : d.value s w = .ok (v, t)) : R s t := by
  cases d with
  | imm wi x fl => cases h; exact hR.refl _
  | reg r => cases h; exact hR.refl _
  | mem lin => exact hR.read h

theorem operandStore {d : Operand} {w : Nat} {v : Value} {s t : State} (h : d.store s w v = .ok t) : R s t := by
  cases d with
  | imm wi x fl => cases h
  | reg r =>
    simp only [Operand.store] at h
    split at h
    · cases h
    · cases h; exact hR.setReg _ _ _
  | mem lin => exact hR.write h

/-- The relation holds across every instruction that completes. -/
theorem exec {i : Instr} {s t : State} (h : exec i s = .next t) : R s t := by
  cases i with
  | mov dst src =>
    obtain ⟨-, d, sr, -, -, hmove⟩ := execMov_cases h
    obtain ⟨-, -, w, v, s1, s2, -, hvalue, hstore, rfl⟩ := moveOperands_cases hmove
    exact hR.trans (hR.trans (hR.operandValue hvalue) (hR.operandStore hstore)) (hR.setPc _ _)
  | ret off =>
    obtain ⟨ra, s1, s2, rfl, -, ⟨-, hrelease, hpop⟩ | ⟨-, hpop, hrelease⟩⟩ := execRet_cases h
    · exact hR.trans (hR.trans (hR.release hrelease) (hR.pop hpop)) (hR.setPc _ _)
    · exact hR.trans (hR.trans (hR.pop hpop) (hR.release hrelease)) (hR.setPc _ _)
  | call target =>
    obtain ⟨-, s1, hpush, rfl⟩ := execCall_cases h
    exact hR.trans (hR.push hpush) (hR.setPc _ _)
  | pushr =>
    obtain ⟨rs, s1, -, -, hpush, rfl⟩ := execPushr_cases h
    exact hR.trans (hR.pushAll hpush) (hR.setPc _ _)
  | popr =>
    obtain ⟨rs, s1, -, hpop, rfl⟩ := execPopr_cases h
    exact hR.trans (hR.popAll hpop) (hR.setPc _ _)

theorem entryActions {cr0 : BitVec 24} {acts : List EntryAction} {s t : State}
    (h : entryActions cr0 acts s = .ok t) : R s t :=
  entryActions_induct hR.refl hR.trans hR.draw hR.setReg hR.push hR.pop hR.write h

theorem returnFromInterrupt {s t : State} (h : returnFromInterrupt s = .ok t) : R s t := by
  obtain ⟨-, rfl⟩ | ⟨entry, ret, -, hacts⟩ := returnFromInterrupt_cases h
  · exact hR.refl _
  · exact hR.entryActions hacts

variable (slot : ∀ (s : State) p q, R s { s with pending := p, irqs := q })
include slot

theorem takeInterrupt {n : Fin 8192} {s t : State} (h : takeInterrupt n s = .ok t) : R s t := by
  obtain ⟨seg, s1, off, s2, s3, hseg, hoff, -, hsave, rfl⟩ := takeInterrupt_cases h
  obtain ⟨entry, ret, -, hacts⟩ := saveOnEntry_cases hsave
  have hread : R s s2 := hR.trans (hR.read hseg) (hR.read hoff)
  have hclear : R s2 { s2 with pending := none } := slot s2 none s2.irqs
  exact hR.trans (hR.trans hread hclear) (hR.trans (hR.entryActions hacts) (hR.setPc _ _))

/-- A relation that the interrupt slot's changes keep too holds across every step that completes. -/
theorem step {s t : State} (h : step s = .next t) : R s t := by
  have harrive : R s s.arrive := by
    rw [State.arrive_frame]
    exact slot _ _ _
  refine hR.trans harrive ?_
  obtain ⟨n, -, -, hint⟩ | ⟨-, rfl⟩ | ⟨-, -, hret⟩ | ⟨i, -, -, hexec⟩ := step_cases h
  · exact hR.takeInterrupt slot hint
  · exact hR.refl _
  · exact hR.returnFromInterrupt hret
  · exact hR.exec hexec

/-- And it holds across every run. -/
theorem reaches {s t : State} (h : Reaches s t) : R s t := by
  induction h with
  | refl => exact hR.refl _
  | step _ hstep ih => exact hR.trans ih (hR.step slot hstep)

end KeptByPrimitives

/-! ### What each primitive keeps -/

/-- A write to a register leaves CR1's read-only bit (R47). -/
theorem Cells.write_cr1Bios (c : Cells) (r : Reg) (v : Value) : (c.write r v).cr1Bios = c.cr1Bios := by
  cases r with
  | CR1 =>
    simp only [Cells.write, Cells.cr1Bios, BitVec.getLsbD_append]
    simp
  | _ => rfl

/-- The place of a byte that may be written is a port, or outside the code set and the character set. -/
theorem checkByte_write_cases {s : State} {cr0 : BitVec 24} {lin : Linear} {pl : Place}
    (h : checkByte s cr0 .write lin = .ok pl) :
    (∃ p, pl = .port p) ∨ s.inCode pl.addr = false ∧ ∀ p, pl = .ram p → regionOf p ≠ .charSet := by
  obtain ⟨-, p, -, -, hregion⟩ := checkByte_cases h
  obtain ⟨-, ⟨rfl, -, -, hchar, hcode, -⟩ | ⟨rfl, hbanked, -, hcode, -⟩ | ⟨rfl, -⟩⟩ := regionCheck_cases hregion
  · refine .inr ⟨hcode rfl, ?_⟩
    rintro q ⟨rfl⟩ hq
    exact hchar hq rfl
  · have hle := (regionOf_banked hbanked).1
    have haddr : Place.addr (.bank (mbEff cr0 s.cells.mb).toNat (p - 0x080000)) = p :=
      Nat.add_sub_cancel' hle
    exact .inr ⟨by rw [haddr]; exact hcode rfl, by simp⟩
  · exact .inl ⟨p, rfl⟩

/-- A memory write changes no byte at an address of the code set and no byte of the character set. -/
theorem memWrite_byteAt_of_readOnly {cr0 : BitVec 24} {lin : Linear} {n : Nat} {v : Value} {s t : State}
    (h : memWrite cr0 lin n v s = .ok t) {pl : Place} (hwf : pl.wf = true)
    (hro : s.inCode pl.addr = true ∨ ∃ p, pl = .ram p ∧ regionOf p = .charSet) : t.byteAt pl = s.byteAt pl := by
  cases pl with
  | port p => rfl
  | ram p | bank b o =>
    refine memWrite_other h hwf fun i _ hcheck => ?_
    obtain ⟨q, hq⟩ | ⟨hcode, hchar⟩ := checkByte_write_cases hcheck
    · cases hq
    · obtain hin | ⟨q, hq, hregion⟩ := hro
      · simp [hcode] at hin
      · exact hchar q hq hregion

theorem State.byteAt_setCells (s : State) (c : Cells) (pl : Place) : (s.setCells c).byteAt pl = s.byteAt pl := by
  cases pl <;> rfl

theorem State.byteAt_setReg (s : State) (r : Reg) (v : Value) (pl : Place) :
    (s.setReg r v).byteAt pl = s.byteAt pl := s.byteAt_setCells _ pl

theorem State.byteAt_setPc (s : State) (p : CodeAddr) (pl : Place) : (s.setPc p).byteAt pl = s.byteAt pl :=
  s.byteAt_setCells _ pl

theorem State.byteAt_setSp (s : State) (v : BitVec 16) (pl : Place) : (s.setSp v).byteAt pl = s.byteAt pl :=
  s.byteAt_setCells _ pl

/-! ### The relations -/

theorem keptByPrimitives_memWf : KeptByPrimitives fun s t => s.memWf = true → t.memWf = true where
  refl _ := id
  trans hst htu := htu ∘ hst
  draw _ _ := id
  setReg _ _ _ := id
  write := memWrite_memWf

/-- Configuration, code set and CR1's read-only bit are the same. -/
def SameFixed (s t : State) : Prop := t.cfg = s.cfg ∧ t.code = s.code ∧ t.cells.cr1Bios = s.cells.cr1Bios

theorem keptByPrimitives_sameFixed : KeptByPrimitives SameFixed where
  refl _ := ⟨rfl, rfl, rfl⟩
  trans := fun ⟨h1, h2, h3⟩ ⟨k1, k2, k3⟩ => ⟨k1.trans h1, k2.trans h2, k3.trans h3⟩
  draw _ _ := ⟨rfl, rfl, rfl⟩
  setReg _ _ _ := ⟨rfl, rfl, Cells.write_cr1Bios _ _ _⟩
  write h := by
    obtain ⟨hcells, hcfg, -, hcode, -⟩ := memWrite_frame h
    exact ⟨hcfg, hcode, by rw [hcells]⟩

/-- The code set is the same, and so is every byte that no store may change: those of the code set (R82) and of the
character set (R69). -/
def SameReadOnly (s t : State) : Prop :=
  t.code = s.code ∧ ∀ pl : Place, pl.wf = true →
    (s.inCode pl.addr = true ∨ ∃ p, pl = .ram p ∧ regionOf p = .charSet) → t.byteAt pl = s.byteAt pl

theorem keptByPrimitives_sameReadOnly : KeptByPrimitives SameReadOnly where
  refl _ := ⟨rfl, fun _ _ _ => rfl⟩
  trans := fun ⟨hcode, hst⟩ ⟨kcode, htu⟩ => ⟨kcode.trans hcode, fun pl hwf hro =>
    (htu pl hwf (by rwa [State.inCode, hcode])).trans (hst pl hwf hro)⟩
  draw _ _ := ⟨rfl, fun pl _ _ => by cases pl <;> rfl⟩
  setReg s r v := ⟨rfl, fun pl _ _ => s.byteAt_setReg r v pl⟩
  write h := by
    obtain ⟨-, -, -, hcode, -⟩ := memWrite_frame h
    exact ⟨hcode, fun _ => memWrite_byteAt_of_readOnly h⟩

theorem sameReadOnly_of_reaches {s t : State} (h : Reaches s t) : SameReadOnly s t :=
  keptByPrimitives_sameReadOnly.reaches (fun _ _ _ => ⟨rfl, fun pl _ _ => by cases pl <;> rfl⟩) h

theorem regionOf_charSet {p : Nat} (h1 : 0x038000 ≤ p) (h2 : p ≤ 0x03FFFF) : regionOf p = .charSet := by
  have h3 : ¬ p < 0x000200 := by omega
  have h4 : ¬ p < 0x038000 := by omega
  have h5 : p < 0x040000 := by omega
  simp only [regionOf, h3, h4, h5, if_true, if_false]

end Sys2Proof.Machine

namespace Sys2Proof.Claims
open Sys2Proof.Machine

/-- Settles O57: every write to a store keeps its form, and nothing else of a step touches one. -/
theorem stepKeepsMemoryCanonical : Obligations.StepKeepsMemoryCanonical := fun _ _ hwf h =>
  keptByPrimitives_memWf.step (fun _ _ _ => id) h hwf

/-- Settles O58: no primitive writes configuration or code set, and a register write leaves CR1's bit 0. -/
theorem stepKeepsConfigurationCodeSetAndBiosBit : Obligations.StepKeepsConfigurationCodeSetAndBiosBit := fun _ _ h =>
  keptByPrimitives_sameFixed.step (fun _ _ _ => ⟨rfl, rfl, rfl⟩) h

/-- Settles O59: a store into the code set is refused, so no run changes a byte there. -/
theorem codeBytesNeverChange : Obligations.CodeBytesNeverChange := fun _ _ h pl hwf hcode =>
  (sameReadOnly_of_reaches h).2 pl hwf (.inl hcode)

/-- Settles O60: a store to the character set faults or is refused, so no run changes a byte there. -/
theorem characterSetNeverChanges : Obligations.CharacterSetNeverChanges := fun _ _ h p hlo hhi =>
  (sameReadOnly_of_reaches h).2 (.ram p) rfl (.inr ⟨p, rfl, regionOf_charSet hlo hhi⟩)

/-- Settles O56: the launch lists no byte and no request. -/
theorem resetHasNoRequestAndCanonicalMemory : Obligations.ResetHasNoRequestAndCanonicalMemory :=
  ⟨rfl, fun pl => by cases pl <;> rfl, rfl⟩

end Sys2Proof.Claims
end

section
/-! The memory map and the access primitives (20_memory.md R62 to R75): an equation per region of the byte check, then
what a whole read or write gives. -/
namespace Sys2Proof.Machine

/-! ### The regions of a physical address -/

theorem regionOf_ioPorts {p : Nat} (h : p ≤ 0x0001FF) : regionOf p = .ioPorts := if_pos (by omega)

theorem regionOf_bankedWindow {p : Nat} (h1 : 0x080000 ≤ p) (h2 : p ≤ 0x0FFFFF) : regionOf p = .banked := by
  have h3 : ¬ p < 0x000200 := by omega
  have h4 : ¬ p < 0x038000 := by omega
  have h5 : ¬ p < 0x040000 := by omega
  have h6 : ¬ p < 0x080000 := by omega
  have h7 : p < 0x100000 := by omega
  simp only [regionOf, h3, h4, h5, h6, h7, if_true, if_false]

/-- The plain regions are those of RAM and VRAM (R62). -/
theorem regionOf_plain {p : Nat}
    (h : 0x000200 ≤ p ∧ p < 0x038000 ∨ 0x040000 ≤ p ∧ p < 0x080000 ∨ 0x100000 ≤ p) :
    regionOf p = .ram ∨ regionOf p = .vram := by
  have hio : ¬ p < 0x000200 := by omega
  rw [regionOf, if_neg hio]
  obtain ⟨-, h2⟩ | ⟨h1, h2⟩ | h1 := h
  · exact .inl (if_pos h2)
  · rw [if_neg (by omega), if_neg (by omega), if_pos h2]
    exact .inr rfl
  · rw [if_neg (by omega), if_neg (by omega), if_neg (by omega), if_neg (by omega)]
    exact .inl rfl

theorem not_disputed {p : Nat} (h1 : p < 0x010000 ∨ 0x0101FF < p) (h2 : p < 0x038000 ∨ 0x0381FF < p) :
    disputed p = false := by
  rw [Bool.eq_false_iff, ne_eq, disputed_eq_true]
  omega

/-! ### The region check, region by region -/

section RegionCheck
variable (s : State) {cr0 : BitVec 24} (k : Access) {p : Nat}

theorem regionCheck_plain (h : regionOf p = .ram ∨ regionOf p = .vram) :
    regionCheck s cr0 k p = codeCheck s k p (.ram p) := by
  obtain h | h := h <;> simp [regionCheck, h, Region.isProtected]

theorem regionCheck_protected (h : (regionOf p).isProtected = true) (hpm : cr0Pm cr0 = true) :
    regionCheck s cr0 k p = .error (.fault (.protectedAccess p k)) := by
  simp [regionCheck, h, hpm]

theorem regionCheck_charSet_read (h : regionOf p = .charSet) (hpm : cr0Pm cr0 = false) :
    regionCheck s cr0 .read p = .ok (.ram p) := by
  simp [regionCheck, h, hpm, codeCheck]

theorem regionCheck_charSet_write (h : regionOf p = .charSet) (hpm : cr0Pm cr0 = false) :
    regionCheck s cr0 .write p = .error (.refuse .charsetWrite) := by
  simp [regionCheck, h, hpm]

theorem regionCheck_banked_refuse (h : regionOf p = .banked) (hbank : s.cfg.bankModel = .refuse) :
    regionCheck s cr0 k p = .error (.refuse .bankedUnmodelled) := by
  simp [regionCheck, h, hbank, Region.isProtected]

theorem regionCheck_banked (h : regionOf p = .banked) (hbank : s.cfg.bankModel = .banked) :
    regionCheck s cr0 k p = codeCheck s k p (.bank (mbEff cr0 s.cells.mb).toNat (p - 0x080000)) := by
  simp [regionCheck, h, hbank, Region.isProtected]

theorem regionCheck_ioPorts_fetch (h : regionOf p = .ioPorts) (hpm : cr0Pm cr0 = false) :
    regionCheck s cr0 .fetch p = .error (.refuse (.ioUnmodelled p)) := by
  simp [regionCheck, h, hpm]

theorem regionCheck_ioPorts_refuse (h : regionOf p = .ioPorts) (hpm : cr0Pm cr0 = false)
    (hio : s.cfg.ioModel = .refuse) : regionCheck s cr0 k p = .error (.refuse (.ioUnmodelled p)) := by
  cases k <;> simp [regionCheck, h, hpm, hio]

theorem regionCheck_ioPorts_draw (h : regionOf p = .ioPorts) (hpm : cr0Pm cr0 = false)
    (hio : s.cfg.ioModel = .draw) (hk : k ≠ .fetch) : regionCheck s cr0 k p = .ok (.port p) := by
  cases k
  case fetch => exact absurd rfl hk
  all_goals simp [regionCheck, h, hpm, hio]

/-- An access that the code set allows lands (R82). -/
theorem codeCheck_of_allowed (pl : Place)
    (h : k = .read ∨ k = .write ∧ s.inCode p = false ∨ k = .fetch ∧ s.inCode p = true) :
    codeCheck s k p pl = .ok pl := by
  obtain rfl | ⟨rfl, hcode⟩ | ⟨rfl, hcode⟩ := h <;> simp [codeCheck, *]

end RegionCheck

/-- MB selects by all its bits, or by its low 4 (10_state.md R31). -/
theorem mbEff_toNat (cr0 : BitVec 24) (mb : BitVec 8) :
    (mbEff cr0 mb).toNat = if cr0Xm cr0 then mb.toNat else mb.toNat % 16 := by
  unfold mbEff
  split
  · rfl
  · simp only [BitVec.toNat_setWidth]
    omega

/-! ### Whole accesses -/

theorem blockCheck_of_not_inBlock {cr0 : BitVec 24} {lin : Linear} {n : Nat} (hpg : cr0Pg cr0 = false)
    (h : ¬ Claims.InBlock lin n) : blockCheck cr0 lin n = .error (.refuse (.segmentWrap lin n)) := by
  have hwrap : 0xFFFF < lin.toNat % 0x10000 + n - 1 := by
    unfold Claims.InBlock at h
    omega
  simp [blockCheck, hpg, hwrap]

section Whole
variable {s : State} {cr0 : BitVec 24} {lin : Linear} {n : Nat}

theorem memRead_of_readBytes {s' : State} {bs : List Byte} (hpg : cr0Pg cr0 = false) (hb : Claims.InBlock lin n)
    (h : readBytes cr0 .read n lin s = .ok (bs, s')) :
    memRead cr0 lin n s = .ok (BitVec.ofNat 64 (s.cfg.byteOrder.natOfBytes bs), s') := by
  simp only [memRead, Claims.blockCheck_of_inBlock hpg hb, h, Run.ok_bind]

theorem memRead_of_readBytes_error {e : Stop} (hpg : cr0Pg cr0 = false) (hb : Claims.InBlock lin n)
    (h : readBytes cr0 .read n lin s = .error e) : memRead cr0 lin n s = .error e := by
  simp only [memRead, Claims.blockCheck_of_inBlock hpg hb, h, Run.ok_bind, Run.error_bind]

theorem memWrite_of_checkBytes (v : Value) {pls : List Place} (hpg : cr0Pg cr0 = false) (hb : Claims.InBlock lin n)
    (h : checkBytes s cr0 .write n lin = .ok pls) :
    memWrite cr0 lin n v s = .ok (s.writePlaces (pls.zip (s.cfg.byteOrder.bytesOfNat n v.toNat))) := by
  simp only [memWrite, Claims.blockCheck_of_inBlock hpg hb, h, Run.ok_bind]

theorem memWrite_of_checkBytes_error (v : Value) {e : Stop} (hpg : cr0Pg cr0 = false) (hb : Claims.InBlock lin n)
    (h : checkBytes s cr0 .write n lin = .error e) : memWrite cr0 lin n v s = .error e := by
  simp only [memWrite, Claims.blockCheck_of_inBlock hpg hb, h, Run.ok_bind, Run.error_bind]

/-- Readable bytes are read as the value they carry, with no change of state. -/
theorem memRead_of_readable {bs : List Byte} {v : Value} (h : Claims.Readable s cr0 .read lin bs)
    (hv : Claims.Carries s.cfg.byteOrder v bs) : memRead cr0 lin bs.length s = .ok (v, s) := by
  obtain ⟨hpg, hb, hbytes⟩ := h
  rw [memRead_of_readBytes hpg hb (Claims.readBytes_of_byteFor bs lin hbytes), Claims.natOfBytes_of_carries hv,
    BitVec.ofNat_toNat, BitVec.setWidth_eq]

end Whole

/-! ### Reading back what a write stored -/

/-- The bytes of a value that fits carry it. -/
theorem carries_bytesOfNat (o : ByteOrder) {n : Nat} {v : Value} (hv : v.toNat < 2 ^ (8 * n)) :
    Claims.Carries o v (o.bytesOfNat n v.toNat) := by
  refine ⟨by simpa using hv, fun i hi => ?_⟩
  rw [ByteOrder.bytesOfNat_length] at hi ⊢
  exact Claims.bytesOfNat_getElem? o n v hi

/-- Where a storable span holds a value, its bytes stand readable in every state with the same memory rules. -/
theorem readable_of_holdsAt {s t : State} {cr0 : BitVec 24} {lin : Linear} {n : Nat} {v : Value}
    (hst : Claims.Storable s cr0 lin n) (hholds : Claims.HoldsAt s t cr0 lin n v) (hcfg : t.cfg = s.cfg)
    (hmb : t.cells.mb = s.cells.mb) (hcode : t.code = s.code) :
    Claims.Readable t cr0 .read lin (s.cfg.byteOrder.bytesOfNat n v.toNat) := by
  obtain ⟨hpg, hb, hspan⟩ := hst
  rw [Claims.Readable, ByteOrder.bytesOfNat_length]
  refine ⟨hpg, hb, fun i hi => ?_⟩
  obtain ⟨pl, hpl⟩ : ∃ pl, checkByte s cr0 .write (lin + BitVec.ofNat 32 i) = .ok pl := by
    have hbyte := hspan i hi
    unfold Claims.storable at hbyte
    split at hbyte
    · cases hbyte
    · exact ⟨_, ‹_›⟩
    · cases hbyte
  rw [Claims.bytesOfNat_getElem? _ _ _ hi, ← hholds i hi pl hpl, Claims.byteFor, checkByte_congr hcfg hmb hcode,
    Claims.checkByte_read_of_write hpl]

theorem memRead_of_memWrite {s t : State} {cr0 : BitVec 24} {lin : Linear} {n : Nat} {v : Value}
    (hio : s.cfg.ioModel = .refuse) (hv : v.toNat < 2 ^ (8 * n)) (h : memWrite cr0 lin n v s = .ok t) :
    memRead cr0 lin n t = .ok (v, t) := by
  obtain ⟨hcells, hcfg, -, hcode, -⟩ := memWrite_frame h
  have hst := Claims.storable_of_memWrite hio h
  have hread := readable_of_holdsAt hst (Claims.memWrite_holds h hst.2.2).1 hcfg (by rw [hcells]) hcode
  have hvalue := memRead_of_readable hread (by rw [hcfg]; exact carries_bytesOfNat _ hv)
  rwa [ByteOrder.bytesOfNat_length] at hvalue

/-- A write of a storable span completes, stores the value there and changes nothing else. -/
theorem memWrite_of_storable_spec {s : State} {cr0 : BitVec 24} {lin : Linear} {n : Nat}
    (h : Claims.Storable s cr0 lin n) (v : Value) :
    ∃ t, memWrite cr0 lin n v s = .ok t ∧ Claims.HoldsAt s t cr0 lin n v ∧ Claims.OnlyBytesAt s t cr0 lin n ∧
      t.cells = s.cells ∧ Claims.RestSame s t := by
  obtain ⟨t, ht⟩ := Claims.memWrite_of_storable h v
  obtain ⟨hholds, hrest⟩ := Claims.memWrite_holds ht h.2.2
  exact ⟨t, ht, hholds, fun pl hwf hne => memWrite_other ht hwf hne, (memWrite_frame ht).1, hrest⟩

/-! ### CR0 -/

/-- Two values of CR0 that agree in each bit the model names (10_state.md R38). -/
def SameNamedBits (x y : BitVec 24) : Prop := ∀ b ∈ [0, 2, 4, 9, 15, 19], x.getLsbD b = y.getLsbD b

section SameNamedBits
variable {x y : BitVec 24} (h : SameNamedBits x y)
include h

theorem cr0A20_congr : cr0A20 x = cr0A20 y := h 0 (by decide)
theorem cr0Xr_congr : cr0Xr x = cr0Xr y := h 2 (by decide)
theorem cr0Xm_congr : cr0Xm x = cr0Xm y := h 4 (by decide)
theorem cr0X32_congr : cr0X32 x = cr0X32 y := h 9 (by decide)
theorem cr0Pm_congr : cr0Pm x = cr0Pm y := h 15 (by decide)
theorem cr0Pg_congr : cr0Pg x = cr0Pg y := h 19 (by decide)

theorem addressWidth_congr : addressWidth x = addressWidth y := by
  rw [addressWidth, addressWidth, cr0Xm_congr h, cr0A20_congr h]

theorem phys_cr0_congr (ov : AddrOverflow) (lin : Linear) : phys ov x lin = phys ov y lin := by
  cases ov <;> simp only [phys, addressWidth_congr h]

theorem regionCheck_cr0_congr (s : State) (k : Access) : regionCheck s x k = regionCheck s y k := by
  funext p
  simp only [regionCheck, mbEff, cr0Pm_congr h, cr0Xm_congr h]

theorem checkByte_cr0_congr (s : State) (k : Access) (lin : Linear) : checkByte s x k lin = checkByte s y k lin := by
  rw [checkByte, checkByte, cr0Pg_congr h, phys_cr0_congr h, regionCheck_cr0_congr h]

theorem Reg.enabled_cr0_congr (r : Reg) : r.enabled x = r.enabled y := by
  cases r <;> simp only [Reg.enabled, cr0Xr_congr h, cr0X32_congr h, cr0Pm_congr h]

theorem readBytes_cr0_congr (k : Access) (n : Nat) (lin : Linear) (s : State) :
    readBytes x k n lin s = readBytes y k n lin s := by
  induction n generalizing lin s with
  | zero => rfl
  | succ n ih => simp only [readBytes, checkByte_cr0_congr h, ih]

theorem checkBytes_cr0_congr (s : State) (k : Access) (n : Nat) (lin : Linear) :
    checkBytes s x k n lin = checkBytes s y k n lin := by
  induction n generalizing lin with
  | zero => rfl
  | succ n ih => simp only [checkBytes, checkByte_cr0_congr h, ih]

theorem blockCheck_cr0_congr (lin : Linear) (n : Nat) : blockCheck x lin n = blockCheck y lin n := by
  simp only [blockCheck, cr0Pg_congr h]

end SameNamedBits

end Sys2Proof.Machine

namespace Sys2Proof.Claims
open Sys2Proof.Machine

/-- Settles O5: a plain region's check is the code set's. -/
theorem plainRegionsAreMemory : Obligations.PlainRegionsAreMemory := by
  intro s cr0 lin p hpg hp hrange
  have hcheck : ∀ k, checkByte s cr0 k lin = codeCheck s k p (.ram p) := by
    intro k
    rw [checkByte_of_phys k hpg hp, not_disputed (by omega) (by omega), if_neg Bool.false_ne_true,
      regionCheck_plain s k (regionOf_plain (by omega))]
  exact ⟨hcheck .read, hcheck .write, hcheck .fetch⟩

/-- Settles O6: protection stands first in a region's check; without it the character set is read only. -/
theorem portsAndCharacterSetAreProtected : Obligations.PortsAndCharacterSetAreProtected := by
  intro s cr0 lin p hpg hp
  refine ⟨fun hpm hrange k => ?_, fun hpm ⟨hlo, hhi⟩ => ?_⟩
  · have hprot : (regionOf p).isProtected = true := by
      obtain h | ⟨hlo, hhi⟩ := hrange
      · rw [regionOf_ioPorts h]; rfl
      · rw [regionOf_charSet (by omega) hhi]; rfl
    rw [checkByte_of_phys k hpg hp, not_disputed (by omega) (by omega), if_neg Bool.false_ne_true,
      regionCheck_protected s k hprot hpm]
  · have hcheck : ∀ k, checkByte s cr0 k lin = regionCheck s cr0 k p := fun k => by
      rw [checkByte_of_phys k hpg hp, not_disputed (by omega) (by omega), if_neg Bool.false_ne_true]
    have hregion := regionOf_charSet (by omega) hhi
    exact ⟨(hcheck _).trans (regionCheck_charSet_read s hregion hpm),
      (hcheck _).trans (regionCheck_charSet_write s hregion hpm)⟩

/-- Settles O7: the bank model decides the window's check, and the place is in the bank MB_eff names. -/
theorem bankedWindowSelectsBank : Obligations.BankedWindowSelectsBank := by
  intro s cr0 k lin p hpg hp ⟨hlo, hhi⟩
  have hregion := regionOf_bankedWindow hlo hhi
  rw [checkByte_of_phys k hpg hp, not_disputed (by omega) (by omega), if_neg Bool.false_ne_true]
  refine ⟨fun hbank => regionCheck_banked_refuse s k hregion hbank, fun hbank hallowed => ?_⟩
  rw [regionCheck_banked s k hregion hbank, codeCheck_of_allowed s k _ hallowed, mbEff_toNat]
  rfl

/-- Settles O8: an address below 0x200 is a port whatever the width; the access is then that of one byte. -/
theorem ioPortsDrawAndEmit : Obligations.IoPortsDrawAndEmit := by
  intro s cr0 lin v hpg hpm hlin
  have hwidth : 0x10000 ≤ 2 ^ addressWidth cr0 := Nat.pow_le_pow_right two_pos (addressWidth_bounds cr0).1
  have hregion := regionOf_ioPorts hlin
  have hb : InBlock lin 1 := by unfold InBlock; omega
  have hcheck : ∀ k, checkByte s cr0 k lin = regionCheck s cr0 k lin.toNat := fun k => by
    rw [checkByte_of_phys k hpg (phys_of_lt _ (by omega)), not_disputed (by omega) (by omega),
      if_neg Bool.false_ne_true]
  refine ⟨(hcheck _).trans (regionCheck_ioPorts_fetch s hregion hpm), fun hio => ?_, fun hio => ?_⟩
  · have hrefused : ∀ k, checkByte s cr0 k lin = .error (.refuse (.ioUnmodelled lin.toNat)) := fun k =>
      (hcheck k).trans (regionCheck_ioPorts_refuse s k hregion hpm hio)
    exact ⟨memRead_of_readBytes_error hpg hb (by rw [readBytes, hrefused, Run.error_bind]),
      memWrite_of_checkBytes_error v hpg hb (by rw [checkBytes, hrefused, Run.error_bind])⟩
  · have hport : ∀ k, k ≠ .fetch → checkByte s cr0 k lin = .ok (.port lin.toNat) := fun k hk =>
      (hcheck k).trans (regionCheck_ioPorts_draw s k hregion hpm hio hk)
    have hread : readBytes cr0 .read 1 lin s
        = .ok ([Config.ioByte s.ioDraws], { s with ioDraws := s.ioDraws + 1 }) := by
      rw [readBytes, hport _ (by decide)]
      rfl
    have hwrite : checkBytes s cr0 .write 1 lin = .ok [.port lin.toNat] := by
      rw [checkBytes, hport _ (by decide)]
      rfl
    constructor
    · rw [memRead_of_readBytes hpg hb hread]
      cases s.cfg.byteOrder <;> simp [ByteOrder.natOfBytes, ByteOrder.arrange, natOfBytesLE, BitVec.ofNat_toNat]
    · rw [memWrite_of_checkBytes v hpg hb hwrite]
      cases s.cfg.byteOrder <;>
        simp [ByteOrder.bytesOfNat, ByteOrder.arrange, bytesOfNatLE, BitVec.ofNat_toNat, State.writePlaces,
          State.writePlace]

/-- Settles O10: the block check comes before the bytes. -/
theorem segmentWrapRefused : Obligations.SegmentWrapRefused := fun s _ _ _ hpg hwrap =>
  have hblock := blockCheck_of_not_inBlock hpg hwrap
  ⟨memRead_of_blockCheck_error s hblock, fun v => memWrite_of_blockCheck_error v s hblock⟩

/-- Settles O11: bytes that stand readable are read one by one, and the first that stops is the read's stop. -/
theorem memReadGivesTheBytes : Obligations.MemReadGivesTheBytes := by
  refine ⟨fun s cr0 lin bs v _ hread hv => memRead_of_readable hread hv,
    fun s cr0 lin n i pl hpg hb hi hpass hcheck hport hnone => ?_,
    fun s cr0 lin n i e hpg hb hi hpass hcheck => ?_⟩
  · refine memRead_of_readBytes_error hpg hb (readBytes_of_stop i lin hi hpass ?_)
    rw [hcheck, Run.ok_bind, readPlace_of_unwritten hport hnone]
  · refine memRead_of_readBytes_error hpg hb (readBytes_of_stop i lin hi hpass ?_)
    rw [hcheck, Run.error_bind]

/-- Settles O12: all bytes are checked before one is stored, and each lands at its own place. -/
theorem memWriteStoresTheBytes : Obligations.MemWriteStoresTheBytes :=
  ⟨fun _ _ _ _ v _ hst => memWrite_of_storable_spec hst v, fun _ _ lin _ i v _ hpg hb hi hpass hcheck =>
    memWrite_of_checkBytes_error v hpg hb (checkBytes_of_stop i lin hi hpass hcheck)⟩

/-- Settles O13: without ports what a write stored stands readable. -/
theorem readAfterWriteGivesTheValue : Obligations.ReadAfterWriteGivesTheValue := fun _ _ _ _ _ _ _ hio hv h =>
  memRead_of_memWrite hio hv h

/-- Settles O14: each check reads CR0 through its named bits only. -/
theorem onlyNamedCr0BitsGovern : Obligations.OnlyNamedCr0BitsGovern := by
  intro s x y h
  refine ⟨fun k lin => ?_, Reg.enabled_cr0_congr h, fun lin n => ?_, fun lin n v => ?_⟩
  · rw [checkByte_cr0_congr h]
  · rw [memRead, memRead, blockCheck_cr0_congr h, readBytes_cr0_congr h]
  · rw [memWrite, memWrite, blockCheck_cr0_congr h, checkBytes_cr0_congr h]

end Sys2Proof.Claims
end

section
/-! Registers as views of the cells (10_state.md R13 to R23, R29, R47): what a register reads after a write to it and
after a write to another. -/
namespace Sys2Proof.Machine

/-! ### Parts of a cell -/

/-- The high part and the low part of a value together are the value. -/
theorem extractLsb'_append_setWidth {w : Nat} (x : BitVec w) (high low : Nat) :
    x.extractLsb' low high ++ x.setWidth low = x.setWidth (high + low) := by
  apply BitVec.eq_of_getLsbD_eq
  intro i hi
  simp only [BitVec.getLsbD_append, BitVec.getLsbD_extractLsb', BitVec.getLsbD_setWidth]
  split
  · simp [*]
  · have hhigh : i - low < high := by omega
    have hbit : low + (i - low) = i := by omega
    simp [hi, hhigh, hbit]

theorem append_bytes (x : BitVec 32) : x.extractLsb' 8 8 ++ x.setWidth 8 = x.setWidth 16 :=
  extractLsb'_append_setWidth x 8 8

theorem append_words {w : Nat} (x : BitVec w) : x.extractLsb' 16 16 ++ x.setWidth 16 = x.setWidth 32 :=
  extractLsb'_append_setWidth x 16 16

theorem append_dwords (x : Value) : x.extractLsb' 32 32 ++ x.setWidth 32 = x := by
  simpa using extractLsb'_append_setWidth x 32 32

@[simp] theorem withLow8_low (x : BitVec 32) (v : BitVec 8) : (withLow8 x v).setWidth 8 = v := by
  apply BitVec.eq_of_getLsbD_eq
  intro i hi
  simp only [withLow8, BitVec.getLsbD_setWidth, BitVec.getLsbD_append]
  simp [hi]

@[simp] theorem withSecond8_second (x : BitVec 32) (v : BitVec 8) : (withSecond8 x v).extractLsb' 8 8 = v := by
  apply BitVec.eq_of_getLsbD_eq
  intro i hi
  simp only [withSecond8, BitVec.getLsbD_extractLsb', BitVec.getLsbD_append]
  simp [hi]

@[simp] theorem withHigh16_high (x : BitVec 32) (v : BitVec 16) : (withHigh16 x v).extractLsb' 16 16 = v := by
  apply BitVec.eq_of_getLsbD_eq
  intro i hi
  simp only [withHigh16, BitVec.getLsbD_extractLsb', BitVec.getLsbD_append]
  simp [hi]

theorem ofNat_mod_two_pow (v : Value) (w : Nat) : BitVec.ofNat 64 (v.toNat % 2 ^ w) = (v.setWidth w).setWidth 64 := by
  apply BitVec.eq_of_toNat_eq
  simp

/-! ### Read after write -/

/-- A register but CR1 reads the low bits of what was written (R13). -/
theorem Cells.read_write_same (c : Cells) {r : Reg} (v : Value) (hr : r ≠ .CR1) :
    (c.write r v).read r = (v.setWidth r.width).setWidth 64 := by
  cases r with
  | CR1 => exact absurd rfl hr
  | ABX | CDX => simp [Cells.write, Cells.read, Reg.width, append_words]
  | EAB | ECD | EABF | ECDF => simp [Cells.write, Cells.read, Reg.width, append_dwords]
  | _ => simp [Cells.write, Cells.read, Reg.width]

/-- A write to a name leaves every name that shares no cell bit with it. -/
theorem Cells.read_write_of_disjoint (c : Cells) {r q : Reg} (v : Value) (h : r.overlaps q = false) :
    (c.write r v).read q = c.read q := by
  simp only [Reg.overlaps, List.any_eq_false, Bool.not_eq_true, CellBits.meets, Bool.and_eq_false_iff,
    decide_eq_false_iff_not, beq_eq_false_iff_ne] at h
  refine Cells.read_congr fun x hx i hi => Cells.bit_write (cellBits_isStorageCell q x hx) fun y hy hcell hin => ?_
  obtain (hne | hlo) | hhi := h y hy x hx
  · exact hne hcell
  · omega
  · omega

/-- The high half of a storage cell keeps its bits when a name within the low half is written. -/
theorem Cells.high_write_of_low (c : Cells) {r cell : Reg} (v : Value) (hcell : isStorageCell cell = true)
    (h : ∀ x ∈ r.cellBits, x.cell = cell → x.lo + x.width ≤ 16) :
    ((c.write r v).read cell).extractLsb' 16 16 = (c.read cell).extractLsb' 16 16 := by
  apply BitVec.eq_of_getLsbD_eq
  intro i hi
  have hbit : (c.write r v).bit cell 16 i = c.bit cell 16 i :=
    Cells.bit_write hcell fun x hx hx' hin => by have := h x hx hx'; omega
  simpa only [BitVec.getLsbD_extractLsb', Cells.bit] using congrArg (decide (i < 16) && ·) hbit

/-- As many cell bits are behind a name as it is wide. -/
theorem Reg.sum_cellBits_width (r : Reg) : (r.cellBits.map CellBits.width).sum = r.width := by
  cases r <;> rfl

end Sys2Proof.Machine

namespace Sys2Proof.Claims
open Sys2Proof.Machine

/-- Settles O15: each composed name is read as its parts are, the more significant first. -/
theorem registerViewsOfCells : Obligations.RegisterViewsOfCells := by
  intro c
  refine ⟨?_, ?_, ?_, ?_, ?_, ?_, ?_, ?_, ?_, ?_, ?_, ?_, ?_, ?_, ?_, ?_, ?_⟩ <;>
    simp [Cells.read, append_bytes, append_words]

/-- Settles O16: a write stores exactly the view's bits; CR1's write takes bit 0 from the cell. -/
theorem writtenRegisterReadsBack : Obligations.WrittenRegisterReadsBack := by
  intro c r v
  refine ⟨fun hr => ?_, ?_⟩
  · rw [ofNat_mod_two_pow, Cells.read_write_same c v hr]
  · have hbios : c.cr1.extractLsb' 0 1 = c.cr1.setWidth 1 := BitVec.eq_of_toNat_eq rfl
    rw [hbios]
    rfl

/-- Settles O17: a name's value is its cell bits, and a write touches no cell bit but those behind the name. -/
theorem writeLeavesDisjointRegisters : Obligations.WriteLeavesDisjointRegisters := by
  refine ⟨fun c r q v h => c.read_write_of_disjoint v h, fun c r cell v b hcell h => ?_, Reg.sum_cellBits_width,
    fun c v view cell h => ?_⟩
  · have hbit : (c.write r v).bit cell 0 b = c.bit cell 0 b :=
      Cells.bit_write (by simp [isStorageCell, hcell]) (by simpa using h)
    simpa [Cells.bit] using hbit
  · have hA : ∀ r ∈ [Reg.AL, .AH, .A, .ABX], ∀ x ∈ r.cellBits, x.cell = .AX → x.lo + x.width ≤ 16 := by decide
    have hB : ∀ r ∈ [Reg.BL, .BH, .B, .ABX], ∀ x ∈ r.cellBits, x.cell = .BX → x.lo + x.width ≤ 16 := by decide
    have hC : ∀ r ∈ [Reg.CL, .CH, .C, .CDX], ∀ x ∈ r.cellBits, x.cell = .CX → x.lo + x.width ≤ 16 := by decide
    have hD : ∀ r ∈ [Reg.DL, .DH, .D, .CDX], ∀ x ∈ r.cellBits, x.cell = .DX → x.lo + x.width ≤ 16 := by decide
    obtain ⟨hv, rfl⟩ | ⟨hv, rfl⟩ | ⟨hv, rfl⟩ | ⟨hv, rfl⟩ | ⟨rfl, rfl⟩ | ⟨rfl, rfl⟩ := h
    · exact c.high_write_of_low v rfl (hA view hv)
    · exact c.high_write_of_low v rfl (hB view hv)
    · exact c.high_write_of_low v rfl (hC view hv)
    · exact c.high_write_of_low v rfl (hD view hv)
    · exact c.high_write_of_low v rfl (by decide)
    · exact c.high_write_of_low v rfl (by decide)

end Sys2Proof.Claims
end

section
/-! Arguments as operands (30_encoding.md R93 to R104): registers named by identifier, addresses, immediates. -/
namespace Sys2Proof.Machine

/-! ### Segments and offsets as numbers -/

theorem linear_setWidth_of_lt {w : Nat} (seg : BitVec 16) {x : BitVec w} (h : x.toNat < 2 ^ 16) :
    linear seg (x.setWidth 16) = BitVec.ofNat 32 (seg.toNat * 0x10000 + x.toNat) := by
  rw [Claims.linear_eq, BitVec.toNat_setWidth, Nat.mod_eq_of_lt h]

theorem Cells.read_setWidth_toNat (c : Cells) {r : Reg} (hr : r.width = 16) :
    ((c.read r).setWidth 16).toNat = (c.read r).toNat := by
  have hlt := c.read_lt r
  rw [hr] at hlt
  rw [BitVec.toNat_setWidth, Nat.mod_eq_of_lt hlt]

/-! ### Registers named by identifier -/

section Registers
variable {s : State}

theorem nameReg_of_enabled {cr0 : BitVec 24} {r : Reg} (h : r.enabled cr0 = true) : nameReg cr0 r = .ok r :=
  if_pos h

theorem nameReg_of_disabled {cr0 : BitVec 24} {r : Reg} (h : r.enabled cr0 = false) :
    nameReg cr0 r = .error (.fault (.registerNotEnabled r)) := by
  simp [nameReg, h]

theorem resolve_of_disabled {r : Reg} (h : r.enabled s.cells.cr0 = false) :
    resolve s (.named r) = .error (.fault (.registerNotEnabled r)) :=
  nameReg_of_disabled h

theorem offset16_of_enabled {r : Reg} (h : r.enabled s.cells.cr0 = true) :
    offset16 s (.named r) =
      if r.width = 16 then .ok ((s.cells.read r).setWidth 16) else .error (.fault (.badAddressRegister r)) := by
  simp only [offset16, resolve, nameReg_of_enabled h, Run.ok_bind]

theorem offset16_of_resolve_error {ref : RegRef} {e : Stop} (h : resolve s ref = .error e) :
    offset16 s ref = .error e := by
  rw [offset16, h, Run.error_bind]

/-- A reference that names no register, or a disabled one, stops its argument in every mode that holds it. -/
theorem operand_of_resolve_error {ref : RegRef} {e : Stop} (next : CodeAddr) (h : resolve s ref = .error e) :
    operand s next (.reg ref) = .error e ∧ operand s next (.regAddr ref) = .error e ∧
      operand s next (.dsReg ref) = .error e ∧ (∀ off, operand s next (.segImm ref off) = .error e) ∧
      (∀ ro, operand s next (.segReg ref ro) = .error e) ∧
      ∀ q : Reg, q.enabled s.cells.cr0 = true → q.width = 16 →
        operand s next (.segReg (.named q) ref) = .error e := by
  have hoff := offset16_of_resolve_error h
  refine ⟨?_, ?_, ?_, fun off => ?_, fun ro => ?_, fun q hq hwidth => ?_⟩
  · rw [operand, h, Run.error_bind]
  · rw [operand, registerAddress, h, Run.error_bind, Run.error_bind]
  · rw [operand, hoff, Run.error_bind]
  · rw [operand, hoff, Run.error_bind]
  · rw [operand, hoff, Run.error_bind]
  · rw [operand, offset16_of_enabled hq, if_pos hwidth, Run.ok_bind, hoff, Run.error_bind]

variable {r : Reg} (next : CodeAddr) (h : r.enabled s.cells.cr0 = true)
include h

theorem operand_reg_of_enabled : operand s next (.reg (.named r)) = .ok (.reg r) := by
  rw [operand, resolve, nameReg_of_enabled h, Run.ok_bind]

theorem operand_regAddr_of_enabled :
    operand s next (.regAddr (.named r)) =
      if r.width = 32 then .ok (.mem (BitVec.ofNat 32 (s.cells.read r).toNat))
      else if r.width = 16 then
        .ok (.mem (BitVec.ofNat 32 ((s.cells.seg s.cfg.defaultSeg).toNat * 0x10000 + (s.cells.read r).toNat)))
      else .error (.fault (.badAddressRegister r)) := by
  rw [operand, registerAddress, resolve, nameReg_of_enabled h, Run.ok_bind]
  split
  · rw [Run.ok_bind, BitVec.ofNat_toNat]
  · split
    · rename_i hwidth
      rw [Run.ok_bind, Claims.linear_eq, s.cells.read_setWidth_toNat hwidth]
    · rfl

theorem operand_dsReg_of_enabled :
    operand s next (.dsReg (.named r)) =
      if r.width = 16 then .ok (.mem (BitVec.ofNat 32 (s.cells.ds.toNat * 0x10000 + (s.cells.read r).toNat)))
      else .error (.fault (.badAddressRegister r)) := by
  rw [operand, offset16_of_enabled h]
  split
  · rename_i hwidth
    rw [Run.ok_bind, Claims.linear_eq, s.cells.read_setWidth_toNat hwidth]
  · rfl

theorem operand_segImm_of_enabled (off : BitVec 16) :
    operand s next (.segImm (.named r) off) =
      if r.width = 16 then .ok (.mem (BitVec.ofNat 32 ((s.cells.read r).toNat * 0x10000 + off.toNat)))
      else .error (.fault (.badAddressRegister r)) := by
  rw [operand, offset16_of_enabled h]
  split
  · rename_i hwidth
    rw [Run.ok_bind, Claims.linear_eq, s.cells.read_setWidth_toNat hwidth]
  · rfl

theorem operand_segReg_of_enabled {q : Reg} (hq : q.enabled s.cells.cr0 = true) :
    operand s next (.segReg (.named r) (.named q)) =
      if r.width = 16 then
        if q.width = 16 then
          .ok (.mem (BitVec.ofNat 32 ((s.cells.read r).toNat * 0x10000 + (s.cells.read q).toNat)))
        else .error (.fault (.badAddressRegister q))
      else .error (.fault (.badAddressRegister r)) := by
  rw [operand, offset16_of_enabled h, offset16_of_enabled hq]
  split
  · rename_i hrwidth
    rw [Run.ok_bind]
    split
    · rename_i hqwidth
      rw [Run.ok_bind, Claims.linear_eq, s.cells.read_setWidth_toNat hrwidth, s.cells.read_setWidth_toNat hqwidth]
    · rfl
  · rfl

end Registers

/-! ### The dedicated modes of AX and BX, which CR0.pm enables (R99) -/

theorem operand_regAX (s : State) (next : CodeAddr) : operand s next .regAX = operand s next (.reg (.named .AX)) := rfl

theorem operand_regBX (s : State) (next : CodeAddr) : operand s next .regBX = operand s next (.reg (.named .BX)) := rfl

end Sys2Proof.Machine

namespace Sys2Proof.Claims
open Sys2Proof.Machine

/-- Settles O25: each address is a segment and an offset below 0x10000, or a linear address of at most 32 bits. -/
theorem literalAndImpliedAddresses : Obligations.LiteralAndImpliedAddresses := by
  intro s next
  refine ⟨⟨rfl, rfl, rfl, rfl⟩, fun a => ?_, fun a => ?_, fun a => ?_, fun a => rfl, ?_, ?_, fun n => ?_⟩
  · have ha : a.toNat < 2 ^ 16 := by have := a.isLt; omega
    rw [operand, linear_setWidth_of_lt _ ha]
  · rw [operand, linear_eq]
  · rw [operand, BitVec.ofNat_toNat]
  · have hB : (s.cells.read .B).toNat = (s.cells.bx.setWidth 16).toNat := BitVec.toNat_setWidth_of_le (by decide)
    rw [operand, linear_eq, hB]
  · rw [operand, BitVec.ofNat_toNat]
    simp [Cells.read]
  · have hBP : (s.cells.read .BP).toNat = s.cells.bp.toNat := BitVec.toNat_setWidth_of_le (by decide)
    rw [operand, linear_eq, BitVec.toNat_add, hBP]

/-- Settles O27: a reference without an enabled register stops when it is resolved; otherwise the width decides. -/
theorem registerHeldAddresses : Obligations.RegisterHeldAddresses := fun _ next =>
  ⟨fun _ => operand_of_resolve_error next rfl,
    fun _ hr => operand_of_resolve_error next (resolve_of_disabled hr),
    fun _ hr => ⟨operand_reg_of_enabled next hr, operand_regAddr_of_enabled next hr, operand_dsReg_of_enabled next hr,
      operand_segImm_of_enabled next hr, fun _ => operand_segReg_of_enabled next hr⟩⟩

/-- Settles O28: an immediate is its value in the carrier, and a dedicated mode is its register, AX and BX by CR0.pm. -/
theorem immediatesAndDedicatedRegisters : Obligations.ImmediatesAndDedicatedRegisters := by
  intro s next
  refine ⟨fun v => ?_, fun v => ?_, fun v => ?_, fun v => ?_, fun v => rfl, fun v => ?_, rfl, rfl, rfl, rfl, rfl, rfl,
    rfl, rfl, rfl, fun hpm => ?_, fun hpm => ?_⟩
  · rw [operand, BitVec.ofNat_toNat]
  · rw [operand, BitVec.ofNat_toNat]
  · rw [operand, BitVec.ofNat_toNat]
  · rw [operand, BitVec.ofNat_toNat]
  · rw [operand, BitVec.ofNat_toNat]
  · rw [operand_regAX, operand_regBX]
    exact ⟨operand_reg_of_enabled next hpm, operand_reg_of_enabled next hpm⟩
  · rw [operand_regAX, operand_regBX]
    have hAX : Reg.AX.enabled s.cells.cr0 = false := hpm
    have hBX : Reg.BX.enabled s.cells.cr0 = false := hpm
    exact ⟨(operand_of_resolve_error next (resolve_of_disabled hAX)).1,
      (operand_of_resolve_error next (resolve_of_disabled hBX)).1⟩

end Sys2Proof.Claims
end

section
/-! MOV (40_general_instructions.md R114): what it does once both arguments are decoded, by the classes of the two
operands, and where it stops. -/
namespace Sys2Proof.Machine

/-! ### Immediates -/

/-- An argument of an immediate mode decodes to an immediate. -/
theorem operand_of_isImm (s : State) (next : CodeAddr) {a : Arg} (h : a.mode.isImm = true) :
    ∃ w v fl, operand s next a = .ok (.imm w v fl) := by
  cases a with
  | immByte v | immWord v | immTbyte v | immDword v | immQword v | immFloat v => exact ⟨_, _, _, rfl⟩
  | _ => cases h

/-- An argument that decodes to a register or to memory is of no immediate mode. -/
theorem mode_isImm_of_operand {s : State} {next : CodeAddr} {a : Arg} {d : Operand}
    (h : operand s next a = .ok d) (hd : ∀ w v fl, d ≠ .imm w v fl) : a.mode.isImm = false := by
  by_contra himm
  obtain ⟨w, v, fl, himm'⟩ := operand_of_isImm s next (Bool.not_eq_false _ ▸ himm)
  rw [h] at himm'
  exact hd w v fl (Except.ok.inj himm')

/-- An immediate has at least one byte, and at most the carrier's 64 bits, and its value fits its width. -/
theorem operand_imm_bounds {s : State} {next : CodeAddr} {a : Arg} {w : Nat} {v : Value} {fl : Bool}
    (h : operand s next a = .ok (.imm w v fl)) : 0 < w ∧ w ≤ 64 ∧ v.toNat < 2 ^ w := by
  have hfits : ∀ {n : Nat} (x : BitVec n), n ≤ 64 → (x.setWidth 64).toNat < 2 ^ n := fun x hn => by
    rw [BitVec.toNat_setWidth_of_le hn]
    exact x.isLt
  have hnotReg : ∀ {x : Run Reg}, (x >>= fun r => (.ok (.reg r) : Run Operand)) ≠ .ok (.imm w v fl) := by
    intro x hx
    obtain ⟨r, -, hr⟩ := Run.bind_eq_ok.mp hx
    cases hr
  have hnotMem : ∀ {α : Type} {x : Run α} {f : α → Linear},
      (x >>= fun r => (.ok (.mem (f r)) : Run Operand)) ≠ .ok (.imm w v fl) := by
    intro α x f hx
    obtain ⟨r, -, hr⟩ := Run.bind_eq_ok.mp hx
    cases hr
  cases a with
  | immByte x | immWord x | immTbyte x | immDword x | immFloat x =>
    cases h
    exact ⟨by decide, by decide, hfits x (by decide)⟩
  | immQword x =>
    cases h
    exact ⟨by decide, by decide, v.isLt⟩
  | reg ref => exact absurd h hnotReg
  | regAX | regBX => exact absurd h hnotReg
  | regAddr ref => exact absurd h hnotMem
  | dsReg ref => exact absurd h hnotMem
  | segImm ref off => exact absurd h hnotMem
  | segReg rs ro =>
    obtain ⟨seg, -, hseg⟩ := Run.bind_eq_ok.mp h
    exact absurd hseg hnotMem
  | _ => cases h

/-- The sign extension of an immediate, as a number (R114). -/
theorem signExtend_setWidth_eq {wi w : Nat} {v : Value} (hwi : 0 < wi) (hle : wi ≤ w)
    (hv : v.toNat < 2 ^ wi) :
    ((v.setWidth wi).signExtend w).setWidth 64
      = BitVec.ofNat 64 (if v.getLsbD (wi - 1) then v.toNat + (2 ^ w - 2 ^ wi) else v.toNat) := by
  have hmsb : (v.setWidth wi).msb = v.getLsbD (wi - 1) := by
    rw [BitVec.msb_eq_getLsbD_last, BitVec.getLsbD_setWidth]
    simp [hwi]
  have hnarrow : ((v.setWidth wi).setWidth w).toNat = v.toNat := by
    rw [BitVec.toNat_setWidth_of_le hle, BitVec.toNat_setWidth, Nat.mod_eq_of_lt hv]
  rw [← BitVec.ofNat_toNat, BitVec.toNat_signExtend, hmsb, hnarrow]
  split <;> rfl

/-- What IMM_EXTEND makes of an immediate that fits its width. -/
theorem extendImm_of_immGives {ext : ImmExtend} {wi w : Nat} {v x : Value} (hwi : 0 < wi) (hw : w ≤ 64)
    (hv : v.toNat < 2 ^ wi) (h : Claims.ImmGives ext wi w v x) : extendImm ext wi w v = x := by
  obtain ⟨rfl, rfl⟩ | ⟨-, rfl, rfl⟩ | ⟨hlt, rfl, rfl⟩ := h
  · cases ext with
    | refuse => rfl
    | zero => rfl
    | sign => simp only [extendImm, signExtend_setWidth_eq hwi le_rfl hv, Nat.sub_self, Nat.add_zero, ite_self,
        BitVec.ofNat_toNat, BitVec.setWidth_eq]
  · rfl
  · exact signExtend_setWidth_eq hwi hlt.le hv

theorem extendImm_self {ext : ImmExtend} {wi : Nat} {v : Value} (hwi : 0 < wi) (hw : wi ≤ 64)
    (hv : v.toNat < 2 ^ wi) : extendImm ext wi wi v = v :=
  extendImm_of_immGives hwi hw hv (.inl ⟨rfl, rfl⟩)

theorem moveWidth_imm_of_immGives {ext : ImmExtend} {rd : Reg} {wi : Nat} {v x : Value} {fl : Bool}
    (h : Claims.ImmGives ext wi rd.moveWidth v x) : moveWidth ext (.reg rd) (.imm wi v fl) = .ok rd.moveWidth := by
  obtain ⟨rfl, -⟩ | ⟨hlt, rfl, -⟩ | ⟨hlt, rfl, -⟩ := h
  · exact if_pos rfl
  · simp [moveWidth, hlt]
  · simp [moveWidth, hlt]

/-! ### The classes of operands -/

theorem Operand.isPc_eq_false {d : Operand} (h : d ≠ .reg .PC) : d.isPc = false := by
  cases d with
  | reg r =>
    have hr : r ≠ .PC := fun hr => h (congrArg _ hr)
    simpa [Operand.isPc] using hr
  | _ => rfl

theorem floatIntClash_regs {rd rs : Reg} (h : rd.isFloat = rs.isFloat) :
    floatIntClash (.reg rd) (.reg rs) = false := by
  cases hf : rs.isFloat <;> simp [floatIntClash, Operand.isFloat, Operand.isInteger, h, hf]

theorem floatIntClash_imm (rd : Reg) (wi : Nat) (v : Value) :
    floatIntClash (.reg rd) (.imm wi v rd.isFloat) = false := by
  cases hf : rd.isFloat <;> simp [floatIntClash, Operand.isFloat, Operand.isInteger, hf]

@[simp] theorem floatIntClash_mem_left (lin : Linear) (sr : Operand) : floatIntClash (.mem lin) sr = false := by
  simp [floatIntClash, Operand.isFloat, Operand.isInteger]

@[simp] theorem floatIntClash_mem_right (d : Operand) (lin : Linear) : floatIntClash d (.mem lin) = false := by
  simp [floatIntClash, Operand.isFloat, Operand.isInteger]

/-! ### MOV of decoded operands -/

section Move
variable {s : State} {dst src : Arg} {d sr : Operand}

/-- With both arguments decoded, MOV is the move between the operands. -/
theorem exec_mov_of_operands (himm : dst.mode.isImm = false) (hd : operand s (pcNext s (.mov dst src)) dst = .ok d)
    (hs : operand s (pcNext s (.mov dst src)) src = .ok sr) :
    exec (.mov dst src) s = outcome (moveOperands (pcNext s (.mov dst src)) d sr s) := by
  simp only [exec, execMov, movRun, himm, hd, hs, Run.ok_bind]
  rfl

theorem exec_mov_of_dst_error {f : Fault} (himm : dst.mode.isImm = false)
    (hd : operand s (pcNext s (.mov dst src)) dst = .error (.fault f)) : exec (.mov dst src) s = .fault f := by
  simp only [exec, execMov, movRun, himm, hd, Run.error_bind]
  rfl

theorem exec_mov_of_src_error {f : Fault} (himm : dst.mode.isImm = false)
    (hd : operand s (pcNext s (.mov dst src)) dst = .ok d)
    (hs : operand s (pcNext s (.mov dst src)) src = .error (.fault f)) : exec (.mov dst src) s = .fault f := by
  simp only [exec, execMov, movRun, himm, hd, hs, Run.ok_bind, Run.error_bind]
  rfl

variable {next : CodeAddr} (hdpc : d ≠ .reg .PC) (hspc : sr ≠ .reg .PC) (hclash : floatIntClash d sr = false)
include hdpc hspc hclash

/-- Past the checks of PC and of float against integer, a move is its width, its value and its store. -/
theorem moveOperands_of_admitted :
    moveOperands next d sr s = (do
      let w ← moveWidth s.cfg.immExtend d sr
      let (v, s1) ← sr.value s w
      let s2 ← d.store s1 w (loadedValue s.cfg.fLoad d sr v)
      .ok (s2.setPc next)) := by
  simp only [moveOperands, Operand.isPc_eq_false hdpc, Operand.isPc_eq_false hspc, hclash]
  rfl

theorem moveOperands_of_store {w : Nat} {v : Value} {s1 s2 : State}
    (hw : moveWidth s.cfg.immExtend d sr = .ok w) (hv : sr.value s w = .ok (v, s1))
    (hst : d.store s1 w (loadedValue s.cfg.fLoad d sr v) = .ok s2) :
    moveOperands next d sr s = .ok (s2.setPc next) := by
  simp only [moveOperands_of_admitted hdpc hspc hclash, hw, hv, hst, Run.ok_bind]

theorem moveOperands_of_moveWidth_error {e : Stop} (hw : moveWidth s.cfg.immExtend d sr = .error e) :
    moveOperands next d sr s = .error e := by
  simp only [moveOperands_of_admitted hdpc hspc hclash, hw, Run.error_bind]

theorem moveOperands_of_store_error {w : Nat} {v : Value} {s1 : State} {e : Stop}
    (hw : moveWidth s.cfg.immExtend d sr = .ok w) (hv : sr.value s w = .ok (v, s1))
    (hst : d.store s1 w (loadedValue s.cfg.fLoad d sr v) = .error e) : moveOperands next d sr s = .error e := by
  simp only [moveOperands_of_admitted hdpc hspc hclash, hw, hv, hst, Run.ok_bind, Run.error_bind]

end Move

/-! ### Values into registers -/

theorem store_reg_of_fits {s : State} {w : Nat} {v : Value} {r : Reg} (h : r = .F → v.toNat < 2 ^ 20) :
    (Operand.reg r).store s w v = .ok (s.setReg r v) :=
  if_neg fun ⟨hr, hle⟩ => (h hr).not_ge hle

theorem store_f_of_wide {s : State} {w : Nat} {v : Value} (h : 2 ^ 20 ≤ v.toNat) :
    (Operand.reg .F).store s w v = .error (.refuse .widthMismatch) :=
  if_pos ⟨rfl, h⟩

/-- A memory value for F is stored if it fits or is truncated; what lands in the register is its low bits either way
(R102, R114). -/
theorem store_loadedValue_of_fits {s s1 : State} {w : Nat} {v : Value} {rd : Reg} {lin : Linear}
    (h : rd = .F → s.cfg.fLoad = .truncate ∨ v.toNat < 2 ^ 20) :
    (Operand.reg rd).store s1 w (loadedValue s.cfg.fLoad (.reg rd) (.mem lin) v) = .ok (s1.setReg rd v) := by
  have hfits : rd = .F → (loadedValue s.cfg.fLoad (.reg rd) (.mem lin) v).toNat < 2 ^ 20 := by
    rintro rfl
    cases hl : s.cfg.fLoad with
    | refuse => simpa [hl, loadedValue] using h rfl
    | truncate =>
      rw [loadedValue, BitVec.toNat_setWidth_of_le (by decide)]
      exact (v.setWidth 20).isLt
  have hok := store_reg_of_fits (s := s1) (w := w) hfits
  rw [hok, (store_loadedValue hok).1 rd rfl]

/-- A memory operand's value, where the bytes of the move stand readable. -/
theorem value_mem_of_readable {s : State} {lin : Linear} {w : Nat} {bs : List Byte} {v : Value}
    (hw : 8 * bs.length = w) (hread : Claims.Readable s s.cells.cr0 .read lin bs)
    (hv : Claims.Carries s.cfg.byteOrder v bs) : (Operand.mem lin).value s w = .ok (v, s) := by
  have hlen : w / 8 = bs.length := by omega
  rw [Operand.value, hlen]
  exact memRead_of_readable hread hv

/-! ### Values into memory -/

/-- What a state holds depends on its bytes only. -/
theorem holdsAt_congr {s t u : State} {cr0 : BitVec 24} {lin : Linear} {n : Nat} {v : Value}
    (h : Claims.HoldsAt s t cr0 lin n v) (hbytes : ∀ pl, u.byteAt pl = t.byteAt pl) :
    Claims.HoldsAt s u cr0 lin n v :=
  fun i hi pl hpl => (hbytes pl).trans (h i hi pl hpl)

/-- MOV to memory, from any operand whose value is read without a change of state. -/
theorem exec_mov_to_mem {s : State} {dst src : Arg} {lin : Linear} {sr : Operand} {w : Nat} {v : Value}
    (hd : operand s (pcNext s (.mov dst src)) dst = .ok (.mem lin))
    (hs : operand s (pcNext s (.mov dst src)) src = .ok sr) (hspc : sr ≠ .reg .PC)
    (hw : moveWidth s.cfg.immExtend (.mem lin) sr = .ok w) (hv : sr.value s w = .ok (v, s))
    (hst : Claims.Storable s s.cells.cr0 lin (w / 8)) :
    ∃ t, exec (.mov dst src) s = .next t ∧ Claims.HoldsAt s t s.cells.cr0 lin (w / 8) v ∧
      Claims.OnlyBytesAt s t s.cells.cr0 lin (w / 8) ∧ t.cells = { s.cells with pc := pcNext s (.mov dst src) } ∧
      Claims.RestSame s t := by
  obtain ⟨u, hu, hholds, honly, hcells, hrest⟩ := memWrite_of_storable_spec hst v
  have hmove := moveOperands_of_store (next := pcNext s (.mov dst src)) (d := .mem lin) (s := s) (by simp) hspc
    (floatIntClash_mem_left lin sr) hw hv (by rw [loadedValue_toMem]; exact hu)
  refine ⟨u.setPc (pcNext s (.mov dst src)), ?_, ?_, ?_, by rw [State.setPc_cells, hcells], hrest⟩
  · rw [exec_mov_of_operands (mode_isImm_of_operand hd (by simp)) hd hs, hmove, outcome_ok]
  · exact holdsAt_congr hholds (u.byteAt_setPc _)
  · exact fun pl hwf hne => (u.byteAt_setPc _ pl).trans (honly pl hwf hne)

/-! ### The frame -/

/-- Configuration, request slot, code set and the source's choices are the same. -/
def SameControl (s t : State) : Prop :=
  t.cfg = s.cfg ∧ t.pending = s.pending ∧ t.code = s.code ∧ t.irqs = s.irqs

theorem keptByPrimitives_sameControl : KeptByPrimitives SameControl where
  refl _ := ⟨rfl, rfl, rfl, rfl⟩
  trans := fun ⟨h1, h2, h3, h4⟩ ⟨k1, k2, k3, k4⟩ => ⟨k1.trans h1, k2.trans h2, k3.trans h3, k4.trans h4⟩
  draw _ _ := ⟨rfl, rfl, rfl, rfl⟩
  setReg _ _ _ := ⟨rfl, rfl, rfl, rfl⟩
  write h := by
    obtain ⟨-, hcfg, hpending, hcode, hirqs, -⟩ := memWrite_frame h
    exact ⟨hcfg, hpending, hcode, hirqs⟩

/-- Reading an operand changes at most the port counter. -/
theorem Operand.value_frame {d : Operand} {w : Nat} {v : Value} {s t : State} (h : d.value s w = .ok (v, t)) :
    t = { s with ioDraws := t.ioDraws } := by
  cases d with
  | imm wi x fl => cases h; rfl
  | reg r => cases h; rfl
  | mem lin => exact (memRead_cases h).2.1

/-- Everything a MOV to a register can do. -/
theorem execMov_reg_cases {dst src : Arg} {s t : State} {rd : Reg} (h : exec (.mov dst src) s = .next t)
    (hd : operand s (pcNext s (.mov dst src)) dst = .ok (.reg rd)) :
    ∃ v k, t = ({ s with ioDraws := k }.setReg rd v).setPc (pcNext s (.mov dst src)) := by
  obtain ⟨-, d, sr, hd', -, hmove⟩ := execMov_cases h
  rw [hd] at hd'
  cases hd'
  obtain ⟨-, -, w, v, s1, s2, -, hvalue, hstore, rfl⟩ := moveOperands_cases hmove
  refine ⟨v, s1.ioDraws, ?_⟩
  rw [(store_loadedValue hstore).1 rd rfl, ← Operand.value_frame hvalue]

/-- Everything a MOV to memory can do: the width rules allow no memory source, so the value is read with no draw. -/
theorem execMov_mem_cases {dst src : Arg} {s t : State} {lin : Linear} (h : exec (.mov dst src) s = .next t)
    (hd : operand s (pcNext s (.mov dst src)) dst = .ok (.mem lin)) :
    ∃ sr w v u, operand s (pcNext s (.mov dst src)) src = .ok sr ∧
      moveWidth s.cfg.immExtend (.mem lin) sr = .ok w ∧ memWrite s.cells.cr0 lin (w / 8) v s = .ok u ∧
      t = u.setPc (pcNext s (.mov dst src)) := by
  obtain ⟨-, d, sr, hd', hs, hmove⟩ := execMov_cases h
  rw [hd] at hd'
  cases hd'
  obtain ⟨-, -, w, v, s1, s2, hw, hvalue, hstore, rfl⟩ := moveOperands_cases hmove
  have hstore' := (store_loadedValue hstore).2 lin rfl
  have hs1 : s1 = s := by
    cases sr with
    | imm wi x fl => cases hvalue; rfl
    | reg r => cases hvalue; rfl
    | mem lin' => cases hw
  rw [hs1] at hstore'
  exact ⟨sr, w, v, s2, hs, hw, hstore', rfl⟩

end Sys2Proof.Machine

namespace Sys2Proof.Claims
open Sys2Proof.Machine

theorem ne_pc_of_reg {r : Reg} (h : r ≠ .PC) : Operand.reg r ≠ .reg .PC := fun hr => h (Operand.reg.inj hr)

/-- Settles O29: of one width and kind, the source's value fits the destination, F included. -/
theorem movRegisterFromRegister : Obligations.MovRegisterFromRegister := by
  intro s dst src rd rs hd hs hrd hrs hwidth hfloat
  have hfits : rd = .F → (s.cells.read rs).toNat < 2 ^ 20 := by
    rintro rfl
    have hlt := s.cells.read_lt rs
    rwa [← hwidth] at hlt
  rw [exec_mov_of_operands (mode_isImm_of_operand hd (by simp)) hd hs,
    moveOperands_of_store (ne_pc_of_reg hrd) (ne_pc_of_reg hrs) (floatIntClash_regs hfloat) (if_pos hwidth) rfl
      (by rw [loadedValue_reg]; exact store_reg_of_fits hfits), outcome_ok]

/-- Settles O30: the value is the immediate extended to the register's move width. -/
theorem movRegisterFromImmediate : Obligations.MovRegisterFromImmediate := by
  intro s dst src rd wi v hd hs hrd x hx hfits
  obtain ⟨hpos, -, hv⟩ := operand_imm_bounds hs
  obtain ⟨hmw, hbytes, -⟩ := Reg.moveWidth_bounds rd
  have hvalue : (Operand.imm wi v rd.isFloat).value s rd.moveWidth = .ok (x, s) := by
    rw [Operand.value, extendImm_of_immGives hpos (by omega) hv hx]
  rw [exec_mov_of_operands (mode_isImm_of_operand hd (by simp)) hd hs,
    moveOperands_of_store (ne_pc_of_reg hrd) (by simp) (floatIntClash_imm rd wi v) (moveWidth_imm_of_immGives hx) hvalue
      (by rw [loadedValue_imm]; exact store_reg_of_fits hfits), outcome_ok]

/-- Settles O31: the value is the bytes', and F takes it whole or cut to 20 bits. -/
theorem movRegisterFromMemory : Obligations.MovRegisterFromMemory := by
  intro s dst src rd lin bs v hd hs hrd hlen hread hv hfits
  rw [exec_mov_of_operands (mode_isImm_of_operand hd (by simp)) hd hs,
    moveOperands_of_store (ne_pc_of_reg hrd) (by simp) (floatIntClash_mem_right _ lin) rfl
      (value_mem_of_readable hlen hread hv) (store_loadedValue_of_fits hfits), outcome_ok]

/-- Settles O32: the move's width is the register's bytes. -/
theorem movMemoryFromRegister : Obligations.MovMemoryFromRegister := by
  intro s dst src rs lin hd hs hrs hst
  have hbytes := (Reg.moveWidth_bounds rs).2.2
  rw [← hbytes] at hst ⊢
  exact exec_mov_to_mem hd hs (ne_pc_of_reg hrs) rfl rfl hst

/-- Settles O33: the move's width is the immediate's, at which it is not extended. -/
theorem movMemoryFromImmediate : Obligations.MovMemoryFromImmediate := by
  intro s dst src wi v fl lin hd hs hst
  obtain ⟨hpos, hle, hv⟩ := operand_imm_bounds hs
  exact exec_mov_to_mem hd hs (by simp) rfl (by rw [Operand.value, extendImm_self hpos hle hv]) hst

/-- Settles O34: the checks in R114's order, each with its refusal. -/
theorem movStops : Obligations.MovStops := by
  intro s dst src d sr
  refine ⟨fun himm => by simp [exec, execMov, movRun, himm], fun hd hs himm => ?_⟩
  have hexec := exec_mov_of_operands himm hd hs
  have hrefused : ∀ {r}, moveOperands (pcNext s (.mov dst src)) d sr s = .error (.refuse r) →
      exec (.mov dst src) s = .refused r := fun h => by rw [hexec, h, outcome_refuse]
  refine ⟨fun hpc => hrefused (if_pos ?_), fun hdpc hspc => ⟨fun hclash => hrefused ?_, ?_, ?_, ?_, ?_, ?_⟩⟩
  · obtain rfl | rfl := hpc <;> simp [Operand.isPc]
  · have hclash' : floatIntClash d sr = true := by
      obtain ⟨h1, h2⟩ | ⟨h1, h2⟩ := hclash <;> simp [floatIntClash, h1, h2]
    simp [moveOperands, Operand.isPc_eq_false hdpc, Operand.isPc_eq_false hspc, hclash']
  · rintro rd rs rfl rfl hfloat hwidth
    exact hrefused (moveOperands_of_moveWidth_error hdpc hspc (floatIntClash_regs hfloat) (if_neg hwidth))
  · rintro rd wi v rfl rfl hwidth
    refine hrefused (moveOperands_of_moveWidth_error hdpc hspc (floatIntClash_imm rd wi v) ?_)
    have hne : wi ≠ rd.moveWidth := by omega
    have hnot : ¬ (wi < rd.moveWidth ∧ s.cfg.immExtend ≠ .refuse) := by
      rintro ⟨hlt, hext⟩
      obtain hgt | ⟨-, hext'⟩ := hwidth
      · omega
      · exact hext hext'
    rw [moveWidth, if_neg hne, if_neg hnot]
  · rintro wi v x rfl rfl hx hwide
    obtain ⟨hpos, -, hv⟩ := operand_imm_bounds hs
    have hvalue : (Operand.imm wi v false).value s 24 = .ok (x, s) := by
      rw [Operand.value, extendImm_of_immGives hpos (by decide) hv hx]
    exact hrefused (moveOperands_of_store_error hdpc hspc (floatIntClash_imm .F wi v)
      (moveWidth_imm_of_immGives (rd := .F) hx) hvalue (by rw [loadedValue_imm]; exact store_f_of_wide hwide))
  · rintro lin bs v rfl rfl hload hlen hread hv hwide
    exact hrefused (moveOperands_of_store_error hdpc hspc (floatIntClash_mem_right _ lin) (w := 24) rfl
      (value_mem_of_readable (by omega) hread hv) (by rw [hload]; exact store_f_of_wide hwide))
  · rintro a b rfl rfl
    exact hrefused (moveOperands_of_moveWidth_error hdpc hspc (floatIntClash_mem_left a _) rfl)

/-- Settles O35: a MOV to a register is a register write, one to memory a memory write at the move's width. -/
theorem movFrame : Obligations.MovFrame := by
  intro s t dst src h
  obtain ⟨hcfg, hpending, hcode, hirqs⟩ := keptByPrimitives_sameControl.exec h
  refine ⟨hcfg, hpending, hcode, hirqs, fun rd hd => ?_, fun lin sr w hd hs hw => ?_⟩
  · obtain ⟨v, k, rfl⟩ := execMov_reg_cases h hd
    refine ⟨rfl, rfl, rfl, fun hF => Cells.write_f_of_ne _ _ hF, fun q hq hoverlap => ?_⟩
    exact (Cells.read_setPc _ _ hq).trans (Cells.read_write_of_disjoint _ v hoverlap)
  · obtain ⟨sr', w', v, u, hs', hw', hwrite, rfl⟩ := execMov_mem_cases h hd
    rw [hs] at hs'
    cases hs'
    rw [hw] at hw'
    cases hw'
    refine ⟨by rw [State.setPc_cells, (memWrite_frame hwrite).1], fun pl hwf hne => ?_⟩
    rw [State.byteAt_setPc]
    exact memWrite_other hwrite hwf hne

end Sys2Proof.Claims
end

section
/-! The stack (41_special_instructions.md R120 to R122): the slots as integers, what a push stores and a later pop gives
back. -/
namespace Sys2Proof.Machine

/-! ### Offsets and slots -/

theorem inStack_iff {x : Int} : inStack x = true ↔ 0 ≤ x ∧ x ≤ 0xFFFF := by simp [inStack]

theorem inStack_toNat (x : BitVec 16) : inStack x.toNat = true := by
  have := x.isLt
  rw [inStack_iff]
  omega

theorem slotFits_iff {n : Nat} {slot : Int × Int} :
    slotFits n slot = true ↔
      (0 ≤ slot.1 ∧ slot.1 ≤ 0xFFFF) ∧ (0 ≤ slot.1 + n - 1 ∧ slot.1 + n - 1 ≤ 0xFFFF) ∧
        0 ≤ slot.2 ∧ slot.2 ≤ 0xFFFF := by
  simp only [slotFits, Bool.and_eq_true, inStack_iff, and_assoc]

theorem ofInt_toNat_self (x : BitVec 16) : BitVec.ofInt 16 (x.toNat : Int) = x := by
  rw [BitVec.ofInt_natCast, BitVec.ofNat_toNat, BitVec.setWidth_eq]

/-- The slot a pop finds after a push fits as the push's did. -/
theorem slotFits_pushSlot_back {dir : StackDir} {empty : Bool} {n : Nat} {x : Int} (hx : inStack x = true)
    (hf : slotFits n (pushSlot dir empty n x) = true) : slotFits n ((pushSlot dir empty n x).1, x) = true := by
  rw [slotFits_iff] at hf ⊢
  rw [inStack_iff] at hx
  exact ⟨hf.1, hf.2.1, hx⟩

/-- SP at y is past the item that a push of n bytes makes at SP = x. -/
def pastItem (dir : StackDir) (n : Nat) (x y : Int) : Prop :=
  match dir with
  | .up => x + n ≤ y
  | .down => y ≤ x - n

/-- An item pushed past another shares no offset with it (R120's table). -/
theorem pushSlot_disjoint {dir : StackDir} {n m : Nat} {x y : Int} (empty : Bool) (h : pastItem dir n x y)
    {i j : Nat} (hi : i < n) (hj : j < m) :
    (pushSlot dir empty n x).1 + i ≠ (pushSlot dir empty m y).1 + j := by
  cases dir <;> cases empty <;> simp only [pastItem, pushSlot] at h ⊢ <;> omega

theorem pastItem_pushSlot (dir : StackDir) (empty : Bool) (n : Nat) (x : Int) :
    pastItem dir n x (pushSlot dir empty n x).2 := by
  cases dir <;> cases empty <;> exact le_rfl

/-- Past an item and then past another push is past the item. -/
theorem pastItem.pushSlot {dir : StackDir} {n : Nat} {x y : Int} (h : pastItem dir n x y) (empty : Bool) (m : Nat) :
    pastItem dir n x (pushSlot dir empty m y).2 := by
  cases dir <;> cases empty <;> simp only [pastItem, Machine.pushSlot] at h ⊢ <;> omega

/-! ### Addresses of stack bytes -/

/-- A stack byte's offset is its linear address modulo 64 KB. -/
theorem stackAddr_add_toNat (s : State) {a : Int} {i : Nat} (h0 : 0 ≤ a) (h1 : a + i ≤ 0xFFFF) :
    (((stackAddr s a + BitVec.ofNat 32 i).toNat % 0x10000 : Nat) : Int) = a + i := by
  have ha : ((BitVec.ofInt 16 a).toNat : Int) = a := Claims.ofInt_toNat h0 (by omega)
  have hseg := s.cells.ss.isLt
  rw [stackAddr, BitVec.toNat_add, linear_toNat, BitVec.toNat_ofNat]
  omega

/-- Stack bytes with one place have one offset. -/
theorem offset_eq_of_place {s : State} {cr0 : BitVec 24} {k k' : Access} {a b : Int} {i j : Nat} {pl : Place}
    (ha : 0 ≤ a ∧ a + i ≤ 0xFFFF) (hb : 0 ≤ b ∧ b + j ≤ 0xFFFF)
    (h : checkByte s cr0 k (stackAddr s a + BitVec.ofNat 32 i) = .ok pl)
    (h' : checkByte s cr0 k' (stackAddr s b + BitVec.ofNat 32 j) = .ok pl) : a + i = b + j := by
  rw [← stackAddr_add_toNat s ha.1 ha.2, ← stackAddr_add_toNat s hb.1 hb.2]
  exact congrArg Nat.cast (Claims.checkByte_mod_block h h')

/-! ### What governs a stack access -/

/-- Two states with the same checks of bytes and the same stack segment. -/
structure SameAccess (s t : State) : Prop where
  cfg : t.cfg = s.cfg
  code : t.code = s.code
  mb : t.cells.mb = s.cells.mb
  ss : t.cells.ss = s.cells.ss

namespace SameAccess
variable {s t u : State}

theorem refl (s : State) : SameAccess s s := ⟨rfl, rfl, rfl, rfl⟩

theorem trans (h : SameAccess s t) (k : SameAccess t u) : SameAccess s u :=
  ⟨k.cfg.trans h.cfg, k.code.trans h.code, k.mb.trans h.mb, k.ss.trans h.ss⟩

theorem symm (h : SameAccess s t) : SameAccess t s := ⟨h.cfg.symm, h.code.symm, h.mb.symm, h.ss.symm⟩

theorem checkByte (h : SameAccess s t) (cr0 : BitVec 24) (k : Access) (lin : Linear) :
    checkByte t cr0 k lin = Machine.checkByte s cr0 k lin :=
  checkByte_congr h.cfg h.mb h.code cr0 k lin

theorem stackAddr (h : SameAccess s t) (a : Int) : stackAddr t a = Machine.stackAddr s a := by
  rw [Machine.stackAddr, Machine.stackAddr, h.ss]

theorem storable (h : SameAccess s t) {cr0 : BitVec 24} {lin : Linear} {n : Nat} :
    Claims.Storable t cr0 lin n ↔ Claims.Storable s cr0 lin n := by
  simp only [Claims.Storable, Claims.storable, h.checkByte]

theorem setSp (s : State) (v : BitVec 16) : SameAccess s (s.setSp v) := ⟨rfl, rfl, rfl, rfl⟩

theorem setPc (s : State) (p : CodeAddr) : SameAccess s (s.setPc p) := ⟨rfl, rfl, rfl, rfl⟩

theorem setReg_pc (s : State) (v : Value) : SameAccess s (s.setReg .PC v) := ⟨rfl, rfl, rfl, rfl⟩

theorem setReg_f (s : State) (v : Value) : SameAccess s (s.setReg .F v) := ⟨rfl, rfl, rfl, rfl⟩

end SameAccess

theorem State.setSp_setSp (s : State) (v w : BitVec 16) : (s.setSp v).setSp w = s.setSp w := by
  simp [State.setSp, State.setCells]

theorem State.setSp_self (s : State) : s.setSp s.cells.sp = s := by
  rw [State.setSp, Cells.sp, withLow16_self]
  rfl

@[simp] theorem State.setSp_sp (s : State) (v : BitVec 16) : (s.setSp v).cells.sp = v := Cells.sp_withLow16 _ _

/-! ### Pops -/

theorem pop_of_memRead {s s1 : State} {cr0 : BitVec 24} {n : Nat} {v : Value}
    (hf : slotFits n (Claims.popSlotOf s n) = true)
    (h : memRead cr0 (stackAddr s (Claims.popSlotOf s n).1) n s = .ok (v, s1)) :
    pop cr0 n s = .ok (v, s1.setSp (BitVec.ofInt 16 (Claims.popSlotOf s n).2)) := by
  simp only [pop]
  rw [if_pos hf, h]
  rfl

/-- A pop of an item that stands readable gives its value and moves SP (R121). -/
theorem pop_of_readable {s : State} {cr0 : BitVec 24} {n : Nat} {v : Value} {bs : List Byte} (hlen : bs.length = n)
    (hf : slotFits n (Claims.popSlotOf s n) = true)
    (hread : Claims.Readable s cr0 .read (stackAddr s (Claims.popSlotOf s n).1) bs)
    (hv : Claims.Carries s.cfg.byteOrder v bs) :
    pop cr0 n s = .ok (v, s.setSp (BitVec.ofInt 16 (Claims.popSlotOf s n).2)) := by
  subst hlen
  exact pop_of_memRead hf (memRead_of_readable hread hv)

/-- An item of n bytes that was pushed at SP = x, the checks being s's, and that u still holds: a pop at the SP past it
gives its value and SP = x back. -/
theorem pop_of_item {s u : State} {cr0 : BitVec 24} {n : Nat} {v : Value} {x : Int} {slot : Int × Int}
    (hslot : slot = pushSlot s.cfg.stackDir s.cfg.stackEmpty n x) (hx : inStack x = true)
    (hf : slotFits n slot = true) (hv : v.toNat < 2 ^ (8 * n))
    (hst : Claims.Storable s cr0 (stackAddr s slot.1) n) (hholds : Claims.HoldsAt s u cr0 (stackAddr s slot.1) n v)
    (hsame : SameAccess s u) (hsp : (u.cells.sp.toNat : Int) = slot.2) :
    pop cr0 n u = .ok (v, u.setSp (BitVec.ofInt 16 x)) := by
  have hpop : Claims.popSlotOf u n = (slot.1, x) := by
    rw [Claims.popSlotOf, hsp, hsame.cfg, hslot, Claims.popSlot_pushSlot]
  have hread := readable_of_holdsAt hst hholds hsame.cfg hsame.mb hsame.code
  have hfit : slotFits n (Claims.popSlotOf u n) = true := by
    rw [hpop]
    subst hslot
    exact slotFits_pushSlot_back hx hf
  have h := pop_of_readable (ByteOrder.bytesOfNat_length _ _ _) hfit (by rw [hpop, hsame.stackAddr]; exact hread)
    (by rw [hsame.cfg]; exact carries_bytesOfNat _ hv)
  rwa [hpop] at h

/-! ### Pushes -/

theorem push_sameAccess {s t : State} {cr0 : BitVec 24} {n : Nat} {v : Value} (h : push cr0 n v s = .ok t) :
    SameAccess s t := by
  obtain ⟨-, s1, hwrite, rfl⟩ := push_cases h
  obtain ⟨hcells, hcfg, -, hcode, -⟩ := memWrite_frame hwrite
  exact ⟨hcfg, hcode, by simp [hcells], by simp [hcells]⟩

/-- SP after a push is the slot's. -/
theorem push_sp {s t : State} {cr0 : BitVec 24} {n : Nat} {v : Value} (h : push cr0 n v s = .ok t) :
    (t.cells.sp.toNat : Int) = (Claims.pushSlotOf s n).2 := by
  obtain ⟨hf, s1, -, rfl⟩ := push_cases h
  obtain ⟨-, -, h0, h1⟩ := slotFits_iff.mp hf
  rw [State.setSp_sp]
  exact Claims.ofInt_toNat h0 h1

/-- With `IO_MODEL = refuse` everything a push can do: its slot was storable and holds the value. -/
theorem push_stored {s t : State} {cr0 : BitVec 24} {n : Nat} {v : Value} (hio : s.cfg.ioModel = .refuse)
    (h : push cr0 n v s = .ok t) :
    slotFits n (Claims.pushSlotOf s n) = true ∧
      Claims.Storable s cr0 (stackAddr s (Claims.pushSlotOf s n).1) n ∧
      Claims.HoldsAt s t cr0 (stackAddr s (Claims.pushSlotOf s n).1) n v ∧
      t.cells = { s.cells with spx := withLow16 s.cells.spx (BitVec.ofInt 16 (Claims.pushSlotOf s n).2) } ∧
      Claims.RestSame s t := by
  obtain ⟨hf, s1, hwrite, -⟩ := push_cases h
  have hst := Claims.storable_of_memWrite hio hwrite
  obtain ⟨t', ht', hcells, hholds, -, hrest⟩ := Claims.push_of_storable (v := v) hf hst
  obtain rfl : t = t' := Except.ok.inj (h.symm.trans ht')
  exact ⟨hf, hst, hholds, hcells, hrest⟩

/-- A push leaves every byte outside its item alone. -/
theorem push_other {s t : State} {cr0 : BitVec 24} {n : Nat} {v : Value} (h : push cr0 n v s = .ok t) {pl : Place}
    (hwf : pl.wf = true)
    (hne : ∀ i, i < n → checkByte s cr0 .write (stackAddr s (Claims.pushSlotOf s n).1 + BitVec.ofNat 32 i) ≠ .ok pl) :
    t.byteAt pl = s.byteAt pl := by
  obtain ⟨-, s1, hwrite, rfl⟩ := push_cases h
  rw [State.byteAt_setSp]
  exact memWrite_other hwrite hwf hne

/-- A push past an item leaves the item. -/
theorem holdsAt_of_push {s s1 t : State} {cr0 : BitVec 24} {n m : Nat} {v w : Value} {x : Int} {slot : Int × Int}
    (hpush : push cr0 m w s1 = .ok t) (hsame : SameAccess s s1)
    (hslot : slot = pushSlot s.cfg.stackDir s.cfg.stackEmpty n x) (hf : slotFits n slot = true)
    (hpast : pastItem s.cfg.stackDir n x s1.cells.sp.toNat)
    (hholds : Claims.HoldsAt s s1 cr0 (stackAddr s slot.1) n v) :
    Claims.HoldsAt s t cr0 (stackAddr s slot.1) n v := by
  intro i hi pl hpl
  rw [← hholds i hi pl hpl]
  refine push_other hpush (checkByte_place hpl).1 fun j hj hplj => ?_
  have hfit : slotFits m (Claims.pushSlotOf s1 m) = true := (push_cases hpush).1
  rw [hsame.checkByte, hsame.stackAddr] at hplj
  rw [slotFits_iff] at hf hfit
  have hoffset := offset_eq_of_place (by omega) (by omega) hpl hplj
  rw [hslot, Claims.pushSlotOf, hsame.cfg] at hoffset
  exact pushSlot_disjoint _ hpast hi hj hoffset

/-- A pop directly after a push gives the value and the registers of before the push back (R121). -/
theorem pop_of_push {s t : State} {cr0 : BitVec 24} {n : Nat} {v : Value} (hio : s.cfg.ioModel = .refuse)
    (hv : v.toNat < 2 ^ (8 * n)) (h : push cr0 n v s = .ok t) : pop cr0 n t = .ok (v, t.setSp s.cells.sp) := by
  obtain ⟨hf, hst, hholds, -⟩ := push_stored hio h
  rw [pop_of_item (x := s.cells.sp.toNat) rfl (inStack_toNat _) hf hv hst hholds (push_sameAccess h) (push_sp h),
    ofInt_toNat_self]

/-! ### Releases -/

theorem release_of_inStack {s : State} {n : Nat} {sp : Int} (hsp : sp = releaseSp s.cfg.stackDir n s.cells.sp.toNat)
    (h : inStack sp = true) : release n s = .ok (s.setSp (BitVec.ofInt 16 sp)) := by
  subst hsp
  exact if_pos h

/-- RET without operand releases nothing. -/
theorem release_zero (s : State) : release 0 s = .ok s := by
  have hsp : (s.cells.sp.toNat : Int) = releaseSp s.cfg.stackDir 0 s.cells.sp.toNat := by
    cases s.cfg.stackDir <;> simp [releaseSp]
  rw [release_of_inStack hsp (inStack_toNat _), ofInt_toNat_self, State.setSp_self]

end Sys2Proof.Machine

namespace Sys2Proof.Claims
open Sys2Proof.Machine

/-- Settles O36: the tables are the definitions, and a slot that leaves the segment is not in the stack. -/
theorem stackSlotsAndWrap : Obligations.StackSlotsAndWrap := by
  refine ⟨fun n s => ⟨rfl, rfl, rfl, rfl, rfl, rfl, rfl, rfl, rfl, rfl⟩, fun s cr0 n v => ⟨?_, ?_, fun hout => ?_⟩⟩
  · intro a sp' hslot hout
    exact if_neg (by rw [show pushSlot _ _ _ _ = _ from hslot, slotFits_iff]; omega)
  · intro a sp' hslot hout
    exact if_neg (by rw [show popSlot _ _ _ _ = _ from hslot, slotFits_iff]; omega)
  · exact if_neg (by rw [inStack_iff]; omega)

/-- Settles O37: the pop finds the push's slot, where its bytes stand readable. -/
theorem popAfterPush : Obligations.PopAfterPush := by
  intro s t cr0 n v _ hv hio h
  obtain ⟨-, -, -, hcells, -⟩ := push_stored hio h
  refine ⟨t.setSp s.cells.sp, pop_of_push hio hv h, ?_, ⟨rfl, rfl, rfl, rfl, rfl, rfl⟩, rfl, rfl⟩
  rw [State.setSp_cells, hcells]
  simp [Cells.sp]

end Sys2Proof.Claims
end

section
/-! CALL and RET (41_special_instructions.md R123; 40_general_instructions.md R116). -/
namespace Sys2Proof.Machine

/-! ### CALL -/

theorem exec_call_of_push {s s1 : State} {tg : CallTarget}
    (ht : (callTarget s (pcNext s (.call tg)) tg).toNat < 2 ^ 24)
    (h : push s.cells.cr0 (retAddrCount s.cfg.retaddrBytes) ((pcNext s (.call tg)).setWidth 64) s = .ok s1) :
    exec (.call tg) s = .next (s1.setPc ((callTarget s (pcNext s (.call tg)) tg).setWidth 24)) := by
  simp only [exec, execCall, callRun, callTo, Claims.high8_eq_zero ht, h, Run.ok_bind]
  rfl

theorem exec_call_of_wide {s : State} {tg : CallTarget}
    (ht : 2 ^ 24 ≤ (callTarget s (pcNext s (.call tg)) tg).toNat) :
    exec (.call tg) s = .refused .callTargetTooWide := by
  simp only [exec, execCall, callRun, callTo, if_pos (Claims.high8_ne_zero ht (BitVec.isLt _)), outcome_refuse]

/-! ### RET -/

theorem pow_retAddrCount (b : RetAddrBytes) : 2 ^ 24 ≤ 2 ^ (8 * retAddrCount b) := by
  cases b <;> decide

theorem returnTo_of_lt {cfg : Cfg} {ra : Value} (s : State) (h : ra.toNat < 2 ^ 24) :
    returnTo cfg ra s = .ok (s.setPc (BitVec.ofNat 24 ra.toNat)) := by
  rw [returnTo, if_neg fun hwide => hwide.2 (Claims.high8_eq_zero h), BitVec.ofNat_toNat]

/-- A return address above 24 bits is one of 4 bytes, and is refused (R116). -/
theorem returnTo_of_wide {cfg : Cfg} {ra : Value} (s : State) (h : 2 ^ 24 ≤ ra.toNat)
    (hk : ra.toNat < 2 ^ (8 * retAddrCount cfg.retaddrBytes)) :
    returnTo cfg ra s = .error (.refuse .returnAddressTooWide) := by
  cases hb : cfg.retaddrBytes with
  | three =>
    rw [hb] at hk
    exact absurd hk h.not_gt
  | four =>
    rw [hb] at hk
    exact if_pos ⟨hb, Claims.high8_ne_zero h hk⟩

section Ret
variable {s s1 s2 : State} {off : RetArg} {ra : Value}

theorem exec_ret_of_releaseThenPop (ho : s.cfg.retOrder = .releaseThenPop) (h1 : release (retOffset off) s = .ok s1)
    (h2 : pop s.cells.cr0 (retAddrCount s.cfg.retaddrBytes) s1 = .ok (ra, s2)) :
    exec (.ret off) s = outcome (returnTo s.cfg ra s2) := by
  simp only [exec, execRet, retRun, ho, h1, h2, Run.ok_bind]

theorem exec_ret_of_popThenRelease (ho : s.cfg.retOrder = .popThenRelease)
    (h1 : pop s.cells.cr0 (retAddrCount s.cfg.retaddrBytes) s = .ok (ra, s1))
    (h2 : release (retOffset off) s1 = .ok s2) : exec (.ret off) s = outcome (returnTo s.cfg ra s2) := by
  simp only [exec, execRet, retRun, ho, h1, h2, Run.ok_bind]

/-- RET without operand is a pop and a jump under either order. -/
theorem exec_ret_none_of_pop (h : pop s.cells.cr0 (retAddrCount s.cfg.retaddrBytes) s = .ok (ra, s1)) :
    exec (.ret .none) s = outcome (returnTo s.cfg ra s1) := by
  cases ho : s.cfg.retOrder with
  | releaseThenPop => exact exec_ret_of_releaseThenPop ho (release_zero s) h
  | popThenRelease => exact exec_ret_of_popThenRelease ho h (release_zero s1)

end Ret

/-- RET without operand, at the SP past an item that holds a code address and was pushed at s's SP, jumps to the address
with that SP. -/
theorem exec_ret_none_of_item {s h : State} {k : Nat} {p : CodeAddr} (hk : k = retAddrCount s.cfg.retaddrBytes)
    (hf : slotFits k (Claims.pushSlotOf s k) = true)
    (hst : Claims.Storable s h.cells.cr0 (stackAddr s (Claims.pushSlotOf s k).1) k)
    (hholds : Claims.HoldsAt s h h.cells.cr0 (stackAddr s (Claims.pushSlotOf s k).1) k (p.setWidth 64))
    (hsame : SameAccess s h) (hsp : (h.cells.sp.toNat : Int) = (Claims.pushSlotOf s k).2) :
    exec (.ret .none) h = .next ((h.setSp s.cells.sp).setPc p) := by
  have hnat : ((p.setWidth 64 : Value)).toNat = p.toNat := BitVec.toNat_setWidth_of_le (by decide)
  have hlt : (p.setWidth 64 : Value).toNat < 2 ^ 24 := hnat ▸ p.isLt
  have hpop := pop_of_item rfl (inStack_toNat s.cells.sp) hf (hlt.trans_le (hk ▸ pow_retAddrCount _)) hst hholds
    hsame hsp
  rw [ofInt_toNat_self, hk, ← hsame.cfg] at hpop
  rw [exec_ret_none_of_pop hpop, returnTo_of_lt _ hlt, outcome_ok, hnat, BitVec.ofNat_toNat, BitVec.setWidth_eq]

/-- What stands at an address does not depend on SP. -/
theorem readable_setSp {s : State} {cr0 : BitVec 24} {k : Access} {lin : Linear} {bs : List Byte} (v : BitVec 16)
    (h : Claims.Readable s cr0 k lin bs) : Claims.Readable (s.setSp v) cr0 k lin bs := by
  obtain ⟨hpg, hb, hbytes⟩ := h
  refine ⟨hpg, hb, fun i hi => ?_⟩
  rw [Claims.byteFor_congr (s := s) (t := s.setSp v) rfl rfl rfl rfl rfl, hbytes i hi]

/-- The two endings of a RET that has popped ra. -/
theorem outcome_returnTo {cfg : Cfg} {ra : Value} {s : State}
    (hra : ra.toNat < 2 ^ (8 * retAddrCount cfg.retaddrBytes)) :
    (ra.toNat < 2 ^ 24 → outcome (returnTo cfg ra s) = .next (s.setPc (BitVec.ofNat 24 ra.toNat))) ∧
      (2 ^ 24 ≤ ra.toNat → outcome (returnTo cfg ra s) = .refused .returnAddressTooWide) := by
  exact ⟨fun hlt => by rw [returnTo_of_lt s hlt, outcome_ok], fun hle => by
    rw [returnTo_of_wide s hle hra, outcome_refuse]⟩

end Sys2Proof.Machine

namespace Sys2Proof.Claims
open Sys2Proof.Machine

/-- Settles O38: the push onto a storable slot completes, and the jump changes the pc only. -/
theorem callPushesReturnAddressAndJumps : Obligations.CallPushesReturnAddressAndJumps := by
  rintro s tg n rfl ht hf hst
  obtain ⟨u, hpush, hcells, hholds, honly, hrest⟩ :=
    push_of_storable (v := (pcNext s (.call tg)).setWidth 64) hf hst
  refine ⟨_, exec_call_of_push ht hpush, ?_, ?_, ?_, hrest⟩
  · rw [State.setPc_cells, hcells, BitVec.ofNat_toNat]
  · rw [BitVec.ofNat_toNat]
    exact holdsAt_congr hholds (u.byteAt_setPc _)
  · exact fun pl hwf hne => (u.byteAt_setPc _ pl).trans (honly pl hwf hne)

/-- Settles O39: each form's target and offset are the definitions; a wide target is refused before the push. -/
theorem callTargetsAndRetOffsets : Obligations.CallTargetsAndRetOffsets := by
  intro s next
  refine ⟨fun a => ?_, fun a => rfl, fun o => rfl, fun a ha => exec_call_of_wide ha, rfl, fun n => rfl, fun n => rfl,
    rfl, rfl⟩
  rw [BitVec.ofNat_toNat]
  rfl

/-- Settles O40: the pop is at the released SP, and the address decides between jump and refusal. -/
theorem retReleasesThenPops : Obligations.RetReleasesThenPops := by
  rintro s off _ sp bs ra ho rfl hsp hin hf hlen hread hra
  obtain ⟨h0, h1⟩ := inStack_iff.mp hin
  have hslot : ∀ k, popSlotOf (s.setSp (BitVec.ofInt 16 sp)) k = popSlot s.cfg.stackDir s.cfg.stackEmpty k sp := by
    intro k
    rw [popSlotOf, State.setSp_sp, ofInt_toNat h0 h1]
    rfl
  have hpop := pop_of_readable (s := s.setSp (BitVec.ofInt 16 sp)) (cr0 := s.cells.cr0) hlen (by rw [hslot]; exact hf)
    (by rw [hslot]; exact readable_setSp _ hread) hra
  rw [hslot, State.setSp_setSp] at hpop
  rw [exec_ret_of_releaseThenPop ho (release_of_inStack hsp hin) hpop]
  exact outcome_returnTo (hlen ▸ hra.1)

/-- Settles O41: the release is from the SP after the pop, and the address decides between jump and refusal. -/
theorem retPopsThenReleases : Obligations.RetPopsThenReleases := by
  rintro s off _ sp bs ra ho rfl hf hlen hsp hin hread hra
  obtain ⟨-, -, h0, h1⟩ := slotFits_iff.mp hf
  have hpop := pop_of_readable hlen hf hread hra
  have hrelease : release (retOffset off)
      (s.setSp (BitVec.ofInt 16 (popSlotOf s (retAddrCount s.cfg.retaddrBytes)).2))
      = .ok (s.setSp (BitVec.ofInt 16 sp)) := by
    rw [release_of_inStack (sp := sp) (by rw [State.setSp_sp, ofInt_toNat h0 h1]; exact hsp) hin, State.setSp_setSp]
  rw [exec_ret_of_popThenRelease ho hpop hrelease]
  exact outcome_returnTo (hlen ▸ hra.1)

/-- Settles O42: a release moves SP, and a pop moves SP and draws from ports at most. -/
theorem retFrame : Obligations.RetFrame := by
  intro s t off h
  obtain ⟨ra, s1, s2, rfl, -, ⟨-, hrelease, hpop⟩ | ⟨-, hpop, hrelease⟩⟩ := execRet_cases h
  · obtain ⟨-, rfl⟩ := release_cases hrelease
    obtain ⟨v, d, rfl⟩ := pop_frame hpop
    exact ⟨rfl, rfl, rfl, rfl, rfl, rfl, rfl, v, by simp⟩
  · obtain ⟨v, d, rfl⟩ := pop_frame hpop
    obtain ⟨-, rfl⟩ := release_cases hrelease
    exact ⟨rfl, rfl, rfl, rfl, rfl, rfl, rfl, _, by simp; rfl⟩

/-- Settles O43: RET without operand pops what CALL pushed. -/
theorem retUndoesCall : Obligations.RetUndoesCall := by
  intro s t tg hio h
  obtain ⟨-, s1, hpush, rfl⟩ := execCall_cases h
  obtain ⟨hf, hst, hholds, hcells, -⟩ := push_stored hio hpush
  have hcr0 : s1.cells.cr0 = s.cells.cr0 := by rw [hcells]
  have hsp := push_sp hpush
  refine ⟨_, exec_ret_none_of_item (p := pcNext s (.call tg)) rfl hf (by rw [State.setPc_cells, hcr0]; exact hst) ?_
    ((push_sameAccess hpush).trans (.setPc _ _)) hsp, ?_, ⟨rfl, rfl, rfl, rfl, rfl, rfl⟩, rfl, rfl⟩
  · rw [State.setPc_cells, hcr0]
    exact holdsAt_congr hholds (s1.byteAt_setPc _)
  · simp [hcells, Cells.sp]

end Sys2Proof.Claims
end

section
/-! PUSHR and POPR (41_special_instructions.md R126 to R128): the items of a list and the SP of each turn, what the
pushes store, and what the pops give back. -/
namespace Sys2Proof.Machine
open Sys2Proof.Claims

/-! ### Running a list -/

theorem pushAll_append (cr0 : BitVec 24) (xs ys : List (Reg × Value)) (s : State) :
    pushAll cr0 (xs ++ ys) s = pushAll cr0 xs s >>= pushAll cr0 ys := by
  induction xs generalizing s with
  | nil => rfl
  | cons x xs ih =>
    simp only [List.cons_append, pushAll]
    cases push cr0 x.1.bytes x.2 s with
    | error e => rfl
    | ok s1 => exact ih s1

theorem readAll_of_enabled {cr0 : BitVec 24} (s : State) {rs : List Reg} (h : ∀ r ∈ rs, r.enabled cr0 = true) :
    readAll cr0 s rs = .ok (rs.map s.cells.read) := by
  induction rs with
  | nil => rfl
  | cons r rs ih =>
    obtain ⟨hr, hrs⟩ := List.forall_mem_cons.mp h
    simp only [readAll, State.readNamed, hr, if_true, ih hrs, Run.ok_bind, List.map_cons]

/-- The first disabled register of a list stops its reading (10_state.md R33). -/
theorem readAll_of_disabled {cr0 : BitVec 24} (s : State) {before after : List Reg} {r : Reg}
    (h : ∀ q ∈ before, q.enabled cr0 = true) (hr : r.enabled cr0 = false) :
    readAll cr0 s (before ++ r :: after) = .error (.fault (.registerNotEnabled r)) := by
  induction before with
  | nil => simp [readAll, State.readNamed, hr]
  | cons q before ih =>
    obtain ⟨hq, hbefore⟩ := List.forall_mem_cons.mp h
    simp only [List.cons_append, readAll, State.readNamed, hq, if_true, ih hbefore, Run.ok_bind, Run.error_bind]

theorem zip_map_read (s : State) (rs : List Reg) :
    rs.zip (rs.map s.cells.read) = rs.map fun r => (r, s.cells.read r) := by
  simpa using List.zip_map' (f := id) (g := s.cells.read) (l := rs)

section Exec
variable {s : State} {rs : List Reg} (hlist : s.cfg.pushrList = some rs)
include hlist

theorem exec_pushr_of_pushAll {t : State} (hen : ∀ r ∈ rs, r.enabled s.cells.cr0 = true)
    (h : pushAll s.cells.cr0 (rs.map fun r => (r, s.cells.read r)) s = .ok t) :
    exec .pushr s = .next (t.setPc (pcNext s .pushr)) := by
  simp only [exec, execPushr, pushrRun, hlist, readAll_of_enabled s hen, zip_map_read, h, Run.ok_bind, outcome_ok]

theorem exec_pushr_of_readAll_error {f : Fault} (h : readAll s.cells.cr0 s rs = .error (.fault f)) :
    exec .pushr s = .fault f := by
  simp only [exec, execPushr, pushrRun, hlist, h, Run.error_bind, outcome_fault]

theorem exec_popr_of_popAll {t : State} (h : popAll s.cells.cr0 rs.reverse s = .ok t) :
    exec .popr s = .next (t.setPc (pcNext s .popr)) := by
  simp only [exec, execPopr, poprRun, hlist, h, Run.ok_bind, outcome_ok]

theorem exec_popr_of_popAll_error {f : Fault} (h : popAll s.cells.cr0 rs.reverse s = .error (.fault f)) :
    exec .popr s = .fault f := by
  simp only [exec, execPopr, poprRun, hlist, h, Run.error_bind, outcome_fault]

end Exec

/-! ### Pops of a list -/

/-- Pops that lead from s to t are the first of a longer run of pops. -/
theorem popAll_append_of_popsTo {cr0 : BitVec 24} {rs : List Reg} {s t : State} (rest : List Reg)
    (h : PopsTo cr0 rs s t) : popAll cr0 (rs ++ rest) s = popAll cr0 rest t := by
  induction rs generalizing s with
  | nil =>
    obtain rfl : t = s := h
    rfl
  | cons r rs ih =>
    obtain ⟨bs, v, hlen, hf, hread, hv, hen, hrest⟩ := h
    simp only [List.cons_append, popAll, pop_of_readable hlen hf hread hv, nameReg_of_enabled hen, Run.ok_bind,
      ih hrest]

/-- A register whose CR0 bit is 0 stops the pops at its turn, its item popped. -/
theorem popAll_of_disabled {cr0 : BitVec 24} {r : Reg} {s s1 : State} {v : Value} (rest : List Reg)
    (hpop : pop cr0 r.bytes s = .ok (v, s1)) (hr : r.enabled cr0 = false) :
    popAll cr0 (r :: rest) s = .error (.fault (.registerNotEnabled r)) := by
  simp only [popAll, hpop, nameReg_of_disabled hr, Run.ok_bind, Run.error_bind]

/-- Pops of a list change the cells and the port counter only, and of the registers only SP and those that share a bit
with a listed one. -/
theorem popAll_frame {cr0 : BitVec 24} {rs : List Reg} {s t : State} (h : popAll cr0 rs s = .ok t) :
    t = { s with cells := t.cells, ioDraws := t.ioDraws } ∧
      ∀ q : Reg, q ≠ .SP → q ≠ .SPX → (∀ r ∈ rs, r.overlaps q = false) → t.cells.read q = s.cells.read q := by
  induction rs generalizing s with
  | nil => cases h; exact ⟨rfl, fun _ _ _ _ => rfl⟩
  | cons r rs ih =>
    simp only [popAll, Run.bind_eq_ok, Prod.exists] at h
    obtain ⟨v, s1, hpop, r', hname, hrest⟩ := h
    obtain ⟨rfl, -⟩ := nameReg_cases hname
    obtain ⟨w, d, rfl⟩ := pop_frame hpop
    obtain ⟨hframe, hread⟩ := ih hrest
    refine ⟨hframe, fun q hsp hspx hq => ?_⟩
    obtain ⟨hr, hrs⟩ := List.forall_mem_cons.mp hq
    rw [hread q hsp hspx hrs, State.setReg_cells, Cells.read_write_of_disjoint _ v hr,
      Cells.read_setSpx _ _ hsp hspx]

/-! ### The items of a list -/

section Items
variable {rs : List Reg} {j k : Nat} {r : Reg}

theorem bytesBefore_succ (h : rs[j]? = some r) : bytesBefore rs (j + 1) = bytesBefore rs j + r.bytes := by
  simp [bytesBefore, List.take_add_one, h]

theorem bytesBefore_mono (rs : List Reg) (h : j ≤ k) : bytesBefore rs j ≤ bytesBefore rs k :=
  ((List.take_sublist_take_left h).map _).sum_le_sum fun _ _ => Nat.zero_le _

/-- SP after a turn is the new SP of its push (R120). -/
theorem spBefore_succ (dir : StackDir) (empty : Bool) (x : Int) (h : rs[j]? = some r) :
    spBefore dir rs (j + 1) x = (pushSlot dir empty r.bytes (spBefore dir rs j x)).2 := by
  cases dir <;> cases empty <;> simp only [spBefore, pushSlot, bytesBefore_succ h] <;> omega

theorem spBefore_zero (dir : StackDir) (rs : List Reg) (x : Int) : spBefore dir rs 0 x = x := by
  cases dir <;> simp [spBefore, bytesBefore]

/-- SP at a later turn is past the item of an earlier one. -/
theorem pastItem_spBefore (dir : StackDir) (x : Int) (h : rs[j]? = some r) (hjk : j < k) :
    pastItem dir r.bytes (spBefore dir rs j x) (spBefore dir rs k x) := by
  have hle := bytesBefore_mono rs (Nat.succ_le_of_lt hjk)
  rw [Nat.succ_eq_add_one, bytesBefore_succ h] at hle
  cases dir <;> simp only [pastItem, spBefore] <;> omega

end Items

/-- Every item of a list fits the stack and is storable at the SP of its turn. -/
def ItemsStorable (cr0 : BitVec 24) (s : State) (rs : List Reg) : Prop :=
  ∀ j r, rs[j]? = some r → slotFits r.bytes (itemSlot s rs j r.bytes) = true ∧
    Storable s cr0 (stackAddr s (itemSlot s rs j r.bytes).1) r.bytes

/-- The first k items of a list fit the stack and are storable. -/
def ItemsStorableUpTo (cr0 : BitVec 24) (s : State) (rs : List Reg) (k : Nat) : Prop :=
  ∀ j r, j < k → rs[j]? = some r → slotFits r.bytes (itemSlot s rs j r.bytes) = true ∧
    Storable s cr0 (stackAddr s (itemSlot s rs j r.bytes).1) r.bytes

/-- SP at a turn is in the stack: it is the start's, or the new SP of the turn before. -/
theorem spBefore_inStack {cr0 : BitVec 24} {s : State} {rs : List Reg} {k : Nat}
    (h : ItemsStorableUpTo cr0 s rs k) (hk : k ≤ rs.length) :
    inStack (spBefore s.cfg.stackDir rs k s.cells.sp.toNat) = true := by
  cases k with
  | zero => rw [spBefore_zero]; exact inStack_toNat _
  | succ k =>
    have hget : rs[k]? = some rs[k] := List.getElem?_eq_getElem hk
    rw [spBefore_succ _ s.cfg.stackEmpty _ hget, inStack_iff]
    exact (slotFits_iff.mp (h k _ k.lt_succ_self hget).1).2.2

theorem HoldsAt.of_sameAccess {s t u : State} {cr0 : BitVec 24} {lin : Linear} {n : Nat} {v : Value}
    (hsame : SameAccess s t) (h : HoldsAt t u cr0 lin n v) : HoldsAt s u cr0 lin n v := by
  intro i hi pl hpl
  rw [h i hi pl (by rw [hsame.checkByte]; exact hpl), hsame.cfg]

/-! ### The pushes of a list -/

/-- After the pushes of a list's first k registers from s: every item of theirs holds its register's value, SP is at the
next turn's, and nothing else is changed. -/
structure PushedUpTo (cr0 : BitVec 24) (s : State) (rs : List Reg) (k : Nat) (t : State) : Prop where
  run : pushAll cr0 ((rs.take k).map fun r => (r, s.cells.read r)) s = .ok t
  rest : RestSame s t
  cells : t.cells = { s.cells with
    spx := withLow16 s.cells.spx (BitVec.ofInt 16 (spBefore s.cfg.stackDir rs k s.cells.sp.toNat)) }
  storable : ItemsStorableUpTo cr0 s rs k
  holds : ∀ j r, j < k → rs[j]? = some r →
    HoldsAt s t cr0 (stackAddr s (itemSlot s rs j r.bytes).1) r.bytes (s.cells.read r)
  other : ∀ pl : Place, pl.wf = true →
    (∀ j r, j < k → rs[j]? = some r → ∀ i, i < r.bytes →
      checkByte s cr0 .write (stackAddr s (itemSlot s rs j r.bytes).1 + BitVec.ofNat 32 i) ≠ .ok pl) →
    t.byteAt pl = s.byteAt pl

namespace PushedUpTo
variable {cr0 : BitVec 24} {s t : State} {rs : List Reg} {k : Nat} {r : Reg}

theorem zero (cr0 : BitVec 24) (s : State) (rs : List Reg) : PushedUpTo cr0 s rs 0 s where
  run := rfl
  rest := ⟨rfl, rfl, rfl, rfl, rfl, rfl⟩
  cells := by rw [spBefore_zero, ofInt_toNat_self, Cells.sp, withLow16_self]
  storable := fun _ _ hj => absurd hj (Nat.not_lt_zero _)
  holds := fun _ _ hj => absurd hj (Nat.not_lt_zero _)
  other := fun _ _ _ => rfl

variable (h : PushedUpTo cr0 s rs k t)
include h

theorem sameAccess : SameAccess s t where
  cfg := h.rest.1
  code := h.rest.2.2.1
  mb := by rw [h.cells]
  ss := by rw [h.cells]

variable (hget : rs[k]? = some r)
include hget

theorem sp : (t.cells.sp.toNat : Int) = spBefore s.cfg.stackDir rs k s.cells.sp.toNat := by
  have hk : k < rs.length := (List.getElem?_eq_some_iff.mp hget).1
  obtain ⟨h0, h1⟩ := inStack_iff.mp (spBefore_inStack h.storable hk.le)
  rw [h.cells, Cells.sp_withLow16]
  exact ofInt_toNat h0 h1

theorem pushSlotOf_eq (n : Nat) : pushSlotOf t n = itemSlot s rs k n := by
  rw [pushSlotOf, h.sp hget, h.sameAccess.cfg]

/-- One more push. -/
theorem succ (hf : slotFits r.bytes (itemSlot s rs k r.bytes) = true)
    (hst : Storable s cr0 (stackAddr s (itemSlot s rs k r.bytes).1) r.bytes) :
    ∃ u, PushedUpTo cr0 s rs (k + 1) u := by
  have hsame := h.sameAccess
  have hslot := h.pushSlotOf_eq hget r.bytes
  obtain ⟨u, hpush, hcells, hholds, honly, hrest⟩ := push_of_storable (s := t) (cr0 := cr0) (v := s.cells.read r)
    (by rw [hslot]; exact hf) (by rw [hslot, hsame.stackAddr]; exact hsame.storable.mpr hst)
  rw [hslot] at hcells
  rw [hslot, hsame.stackAddr] at hholds honly
  have hlast : ∀ {j q}, j < k + 1 → rs[j]? = some q → j < k ∨ j = k ∧ q = r := by
    intro j q hj hq
    rcases Nat.lt_succ_iff_lt_or_eq.mp hj with hlt | rfl
    · exact .inl hlt
    · exact .inr ⟨rfl, Option.some.inj (hq.symm.trans hget)⟩
  refine ⟨u, ?_, ?_, ?_, ?_, ?_, ?_⟩
  · have htake : rs.take (k + 1) = rs.take k ++ [r] := by rw [List.take_add_one, hget]; rfl
    rw [htake, List.map_append, pushAll_append, h.run]
    simp only [List.map_cons, List.map_nil, pushAll, hpush, Run.ok_bind]
  · obtain ⟨h1, h2, h3, h4, h5, h6⟩ := h.rest
    obtain ⟨k1, k2, k3, k4, k5, k6⟩ := hrest
    exact ⟨k1.trans h1, k2.trans h2, k3.trans h3, k4.trans h4, k5.trans h5, k6.trans h6⟩
  · rw [hcells, h.cells, spBefore_succ _ s.cfg.stackEmpty _ hget]
    simp
  · intro j q hj hq
    obtain hlt | ⟨rfl, rfl⟩ := hlast hj hq
    · exact h.storable j q hlt hq
    · exact ⟨hf, hst⟩
  · intro j q hj hq
    obtain hlt | ⟨rfl, rfl⟩ := hlast hj hq
    · refine holdsAt_of_push hpush hsame rfl (h.storable j q hlt hq).1 ?_ (h.holds j q hlt hq)
      rw [h.sp hget]
      exact pastItem_spBefore _ _ hq hlt
    · exact HoldsAt.of_sameAccess hsame hholds
  · intro pl hwf hne
    rw [honly pl hwf fun i hi => by
      rw [hsame.checkByte]
      exact hne k r k.lt_succ_self hget i hi]
    exact h.other pl hwf fun j q hj => hne j q (hj.trans k.lt_succ_self)

end PushedUpTo

/-- Where every item is storable, the pushes of the list complete. -/
theorem pushedUpTo_of_storable {cr0 : BitVec 24} {s : State} {rs : List Reg} {k : Nat}
    (h : ItemsStorable cr0 s rs) (hk : k ≤ rs.length) : ∃ t, PushedUpTo cr0 s rs k t := by
  induction k with
  | zero => exact ⟨s, .zero cr0 s rs⟩
  | succ k ih =>
    obtain ⟨t, ht⟩ := ih (Nat.le_of_succ_le hk)
    have hget : rs[k]? = some rs[k] := List.getElem?_eq_getElem hk
    obtain ⟨hf, hst⟩ := h k _ hget
    exact ht.succ hget hf hst

/-- With `IO_MODEL = refuse`, where the pushes of a list complete, every item was storable. -/
theorem pushedUpTo_of_pushAll {cr0 : BitVec 24} {s t : State} {rs : List Reg} {k : Nat}
    (hio : s.cfg.ioModel = .refuse) (h : pushAll cr0 (rs.map fun r => (r, s.cells.read r)) s = .ok t)
    (hk : k ≤ rs.length) : ∃ u, PushedUpTo cr0 s rs k u := by
  induction k with
  | zero => exact ⟨s, .zero cr0 s rs⟩
  | succ k ih =>
    obtain ⟨u, hu⟩ := ih (Nat.le_of_succ_le hk)
    have hget : rs[k]? = some rs[k] := List.getElem?_eq_getElem hk
    have hsplit : rs = rs.take k ++ rs[k] :: rs.drop (k + 1) := by
      rw [← List.drop_eq_getElem_cons, List.take_append_drop]
    obtain ⟨u', hpush⟩ : ∃ u', push cr0 rs[k].bytes (s.cells.read rs[k]) u = .ok u' := by
      rw [hsplit, List.map_append, pushAll_append, hu.run, Run.ok_bind, List.map_cons, pushAll, Run.bind_eq_ok] at h
      obtain ⟨u', hpush, -⟩ := h
      exact ⟨u', hpush⟩
    have hsame := hu.sameAccess
    obtain ⟨hf, hst, -⟩ := push_stored (by rw [hsame.cfg]; exact hio) hpush
    rw [hu.pushSlotOf_eq hget] at hf hst
    rw [hsame.stackAddr, hsame.storable] at hst
    exact hu.succ hget hf hst

/-! ### Registers written back -/

/-- Writing the value a register had in other cells makes it read as it did there; CR1's read-only bit must be the same
(R47). -/
theorem Cells.read_write_read {c d : Cells} {r : Reg} (hbios : c.cr1Bios = d.cr1Bios) :
    (c.write r (d.read r)).read r = d.read r := by
  by_cases hr : r = .CR1
  · subst hr
    have hlow : c.cr1.setWidth 1 = d.cr1.setWidth 1 := by
      apply BitVec.eq_of_getLsbD_eq
      intro i hi
      obtain rfl : i = 0 := by omega
      simpa [Cells.cr1Bios] using hbios
    have hwhole : (d.cr1.setWidth 64).extractLsb' 1 15 ++ d.cr1.setWidth 1 = d.cr1 := by
      have hsame : (d.cr1.setWidth 64).extractLsb' 1 15 = d.cr1.extractLsb' 1 15 := by
        apply BitVec.eq_of_getLsbD_eq
        intro i hi
        simp only [BitVec.getLsbD_extractLsb', BitVec.getLsbD_setWidth]
        have hbit : 1 + i < 64 := by omega
        simp [hbit]
      rw [hsame]
      simpa using extractLsb'_append_setWidth d.cr1 15 1
    have hcell : (c.write .CR1 (d.read .CR1)).cr1 = d.cr1 := (congrArg (_ ++ ·) hlow).trans hwhole
    exact congrArg (BitVec.setWidth 64) hcell
  · rw [Cells.read_write_same _ _ hr]
    apply BitVec.eq_of_toNat_eq
    have hlt := d.read_lt r
    have hcarrier := (d.read r).isLt
    rw [BitVec.toNat_setWidth, BitVec.toNat_setWidth, Nat.mod_eq_of_lt hlt, Nat.mod_eq_of_lt hcarrier]

/-- A register written back leaves SS and MB as they are, if they are as they were. -/
theorem Cells.write_read_ss_mb {c d : Cells} (r : Reg) (hss : c.ss = d.ss) (hmb : c.mb = d.mb) :
    (c.write r (d.read r)).ss = d.ss ∧ (c.write r (d.read r)).mb = d.mb := by
  cases r with
  | SS => exact ⟨by simp [Cells.write, Cells.read], hmb⟩
  | MB => exact ⟨hss, by simp [Cells.write, Cells.read]⟩
  | _ => exact ⟨hss, hmb⟩

theorem Cells.write_spx_of_ne (c : Cells) {r : Reg} (v : Value) (h1 : r ≠ .SP) (h2 : r ≠ .SPX) :
    (c.write r v).spx = c.spx := by
  cases r with
  | SP => exact absurd rfl h1
  | SPX => exact absurd rfl h2
  | _ => rfl

/-! ### The pops of a pushed list -/

/-- What R126 asks of a list: an earlier register shares no bit with a later one, and none is SP, SPX or PC. -/
theorem pushrListWf_iff {rs : List Reg} :
    pushrListWf rs = true ↔ rs.Pairwise (fun r q => r.overlaps q = false) ∧
      ∀ r ∈ rs, r ≠ .SP ∧ r ≠ .SPX ∧ r ≠ .PC := by
  simp [pushrListWf, and_assoc]

/-- A state from which a pop of a list's first k registers finds what they were in s. -/
structure ReadyToPop (cr0 : BitVec 24) (s : State) (rs : List Reg) (k : Nat) (u : State) : Prop where
  same : SameAccess s u
  bios : u.cells.cr1Bios = s.cells.cr1Bios
  sp : (u.cells.sp.toNat : Int) = spBefore s.cfg.stackDir rs k s.cells.sp.toNat
  holds : ∀ j r, j < k → rs[j]? = some r →
    HoldsAt s u cr0 (stackAddr s (itemSlot s rs j r.bytes).1) r.bytes (s.cells.read r)

theorem read_lt_bytes (c : Cells) (r : Reg) : (c.read r).toNat < 2 ^ (8 * r.bytes) := by
  have hwidth : r.width ≤ 8 * r.bytes := by
    unfold Reg.bytes
    omega
  exact (c.read_lt r).trans_le (Nat.pow_le_pow_right two_pos hwidth)

/-- The pop of a list's last register, and the state it leaves for those before it. -/
theorem ReadyToPop.pop {cr0 : BitVec 24} {s u : State} {rs : List Reg} {k : Nat} {r : Reg}
    (h : ReadyToPop cr0 s rs (k + 1) u) (hst : ItemsStorable cr0 s rs) (hget : rs[k]? = some r)
    (hsp : r ≠ .SP) (hspx : r ≠ .SPX) :
    ∃ u1, Machine.pop cr0 r.bytes u = .ok (s.cells.read r, u1) ∧
      ReadyToPop cr0 s rs k (u1.setReg r (s.cells.read r)) ∧
      (u1.setReg r (s.cells.read r)).cells.read r = s.cells.read r := by
  have hk : k < rs.length := (List.getElem?_eq_some_iff.mp hget).1
  have hin := spBefore_inStack (k := k) (fun j q _ => hst j q) hk.le
  obtain ⟨h0, h1⟩ := inStack_iff.mp hin
  obtain ⟨hf, hspan⟩ := hst k r hget
  obtain ⟨hss, hmb⟩ := Cells.write_read_ss_mb
    (c := (u.setSp (BitVec.ofInt 16 (spBefore s.cfg.stackDir rs k s.cells.sp.toNat))).cells) r h.same.ss h.same.mb
  refine ⟨_, pop_of_item rfl hin hf (read_lt_bytes _ r) hspan (h.holds k r k.lt_succ_self hget) h.same
    (by rw [h.sp]; exact spBefore_succ _ _ _ hget), ⟨⟨h.same.cfg, h.same.code, hmb, hss⟩, ?_, ?_, ?_⟩, ?_⟩
  · exact (Cells.write_cr1Bios _ _ _).trans h.bios
  · rw [Cells.sp, State.setReg_cells, Cells.write_spx_of_ne _ _ hsp hspx, ← Cells.sp, State.setSp_sp]
    exact ofInt_toNat h0 h1
  · exact fun j q hj hq =>
      holdsAt_congr (h.holds j q (hj.trans k.lt_succ_self) hq) (State.byteAt_setCells u _)
  · exact Cells.read_write_read h.bios

/-- The pops of a list's first k registers complete, each register reads as it did, and SP is the first turn's. -/
theorem popAll_of_readyToPop {cr0 : BitVec 24} {s u : State} {rs : List Reg} {k : Nat}
    (h : ReadyToPop cr0 s rs k u) (hst : ItemsStorable cr0 s rs) (hwf : pushrListWf rs = true)
    (hen : ∀ r ∈ rs, r.enabled cr0 = true) (hk : k ≤ rs.length) :
    ∃ w, popAll cr0 (rs.take k).reverse u = .ok w ∧ w.cells.sp = s.cells.sp ∧
      ∀ j r, j < k → rs[j]? = some r → w.cells.read r = s.cells.read r := by
  induction k generalizing u with
  | zero =>
    refine ⟨u, rfl, BitVec.eq_of_toNat_eq ?_, fun _ _ hj => absurd hj (Nat.not_lt_zero _)⟩
    have hsp := h.sp
    rw [spBefore_zero] at hsp
    exact_mod_cast hsp
  | succ k ih =>
    obtain ⟨hpairwise, hnames⟩ := pushrListWf_iff.mp hwf
    have hget : rs[k]? = some rs[k] := List.getElem?_eq_getElem hk
    obtain ⟨hsp, hspx, -⟩ := hnames rs[k] (List.getElem_mem hk)
    obtain ⟨u1, hpop, hready, hread⟩ := h.pop hst hget hsp hspx
    obtain ⟨w, hw, hwsp, hwread⟩ := ih hready (Nat.le_of_succ_le hk)
    refine ⟨w, ?_, hwsp, fun j r hj hr => ?_⟩
    · have htake : (rs.take (k + 1)).reverse = rs[k] :: (rs.take k).reverse := by
        rw [List.take_add_one, hget]
        simp
      simp only [htake, popAll, hpop, nameReg_of_enabled (hen _ (List.getElem_mem hk)), Run.ok_bind, hw]
    · rcases Nat.lt_succ_iff_lt_or_eq.mp hj with hlt | rfl
      · exact hwread j r hlt hr
      · obtain rfl : rs[j] = r := Option.some.inj (hget.symm.trans hr)
        rw [(popAll_frame hw).2 _ hsp hspx, hread]
        intro q hq
        obtain ⟨i, hi, rfl⟩ := List.mem_take_iff_getElem.mp (List.mem_reverse.mp hq)
        exact List.pairwise_iff_getElem.mp hpairwise i j (by omega) hk (by omega)

/-! ### Offsets in the stack segment -/

theorem stackAddr_add_eq_linear (s : State) {a : Int} {i : Nat} (h0 : 0 ≤ a) (h1 : a + i ≤ 0xFFFF) :
    stackAddr s a + BitVec.ofNat 32 i = linear s.cells.ss (BitVec.ofNat 16 (a + i).toNat) := by
  have ha := ofInt_toNat h0 (by omega)
  have hseg := s.cells.ss.isLt
  apply BitVec.eq_of_toNat_eq
  rw [BitVec.toNat_add, stackAddr, linear_toNat, linear_toNat, BitVec.toNat_ofNat, BitVec.toNat_ofNat]
  omega

/-- The bytes of an item lie among the offsets the pushes of its list write. -/
theorem pushedOffset_item {dir : StackDir} {rs : List Reg} {j : Nat} {r : Reg} {before after i : Nat} (empty : Bool)
    (hget : rs[j]? = some r) (hafter : (after : Int) = spBefore dir rs rs.length before) (hi : i < r.bytes)
    (h0 : 0 ≤ (pushSlot dir empty r.bytes (spBefore dir rs j before)).1) :
    pushedOffset dir empty before after ((pushSlot dir empty r.bytes (spBefore dir rs j before)).1 + i).toNat := by
  have hj : j < rs.length := (List.getElem?_eq_some_iff.mp hget).1
  have hle := bytesBefore_mono rs (Nat.succ_le_of_lt hj)
  rw [Nat.succ_eq_add_one, bytesBefore_succ hget] at hle
  cases dir <;> cases empty <;> simp only [pushedOffset, pushSlot, spBefore] at hafter h0 ⊢ <;> omega

end Sys2Proof.Machine

namespace Sys2Proof.Claims
open Sys2Proof.Machine

/-- Settles O44: the items are pushed one by one, each past those before it. -/
theorem pushrStoresListedRegisters : Obligations.PushrStoresListedRegisters := by
  intro s rs hlist hen hst
  obtain ⟨t, ht⟩ := pushedUpTo_of_storable hst le_rfl
  have hrun := ht.run
  rw [List.take_length] at hrun
  have hlt : ∀ {j r}, rs[j]? = some r → j < rs.length := fun hr => (List.getElem?_eq_some_iff.mp hr).1
  refine ⟨t.setPc (pcNext s .pushr), exec_pushr_of_pushAll hlist hen hrun, ht.rest, ?_, fun j r hr => ?_,
    fun pl hwf hne => ?_⟩
  · rw [State.setPc_cells, ht.cells]
  · exact holdsAt_congr (ht.holds j r (hlt hr) hr) (t.byteAt_setPc _)
  · exact (t.byteAt_setPc _ pl).trans (ht.other pl hwf fun j r _ hr => hne j r hr)

/-- Settles O45: each readable item is popped, and its enabled register written. -/
theorem poprPopsInReverse : Obligations.PoprPopsInReverse := by
  intro s t rs hlist h
  have hpop := popAll_append_of_popsTo [] h
  rw [List.append_nil] at hpop
  exact exec_popr_of_popAll hlist hpop

/-- Settles O46: the pops write cells only, SP and the listed names among them. -/
theorem poprFrame : Obligations.PoprFrame := by
  intro s t rs hlist h
  obtain ⟨rs', s1, hlist', hpop, rfl⟩ := execPopr_cases h
  obtain rfl : rs' = rs := Option.some.inj (hlist'.symm.trans hlist)
  obtain ⟨hframe, hread⟩ := popAll_frame hpop
  rw [hframe]
  refine ⟨rfl, rfl, rfl, rfl, rfl, rfl, rfl, rfl, fun q hpc hsp hspx hq => ?_⟩
  exact (Cells.read_setPc _ _ hpc).trans (hread q hsp hspx fun r hr => hq r (List.mem_reverse.mp hr))

/-- Settles O47: without a list both are refused, and the empty list has nothing to push or pop. -/
theorem pushrAndPoprWithoutRegisters : Obligations.PushrAndPoprWithoutRegisters := by
  refine fun s => ⟨fun hnone => ?_, fun hempty => ?_⟩
  · simp [exec, execPushr, execPopr, pushrRun, poprRun, hnone]
  · exact ⟨exec_pushr_of_pushAll hempty (by simp) rfl, exec_popr_of_popAll hempty rfl⟩

/-- Settles O48: PUSHR's items stand in s' as in t, so POPR's turns find them and write each register's value back. -/
theorem poprRestoresWhatPushrSaved : Obligations.PoprRestoresWhatPushrSaved := by
  intro s t s' rs hlist hwf hio h hcfg hcode hsp hss hcr0 hmb hbios hbytes
  obtain ⟨rs', s1, hlist', hen, hpush, rfl⟩ := execPushr_cases h
  obtain rfl : rs' = rs := Option.some.inj (hlist'.symm.trans hlist)
  rw [zip_map_read] at hpush
  obtain ⟨u, hu⟩ := pushedUpTo_of_pushAll hio hpush le_rfl
  have hrun := hu.run
  rw [List.take_length] at hrun
  obtain rfl : s1 = u := Except.ok.inj (hpush.symm.trans hrun)
  have hlt : ∀ {j r}, rs'[j]? = some r → j < rs'.length := fun hr => (List.getElem?_eq_some_iff.mp hr).1
  have hst : ItemsStorable s.cells.cr0 s rs' := fun j r hr => hu.storable j r (hlt hr) hr
  have hspAfter : (s1.cells.sp.toNat : Int) = spBefore s.cfg.stackDir rs' rs'.length s.cells.sp.toNat := by
    obtain ⟨h0, h1⟩ := inStack_iff.mp (spBefore_inStack hu.storable le_rfl)
    rw [hu.cells, Cells.sp_withLow16]
    exact ofInt_toNat h0 h1
  have hready : ReadyToPop s.cells.cr0 s rs' rs'.length s' := by
    refine ⟨⟨hcfg, hcode, hmb, hss⟩, hbios, by rw [hsp]; exact hspAfter, fun j r hj hr i hi pl hpl => ?_⟩
    obtain ⟨⟨h0, -⟩, ⟨-, h1⟩, -⟩ := slotFits_iff.mp (hst j r hr).1
    have hoffset := pushedOffset_item s.cfg.stackEmpty hr hspAfter hi h0
    rw [hbytes _ pl hoffset (by rw [← stackAddr_add_eq_linear s h0 (by omega)]; exact hpl), State.byteAt_setPc]
    exact hu.holds j r hj hr i hi pl hpl
  obtain ⟨w, hw, hwsp, hwread⟩ := popAll_of_readyToPop hready hst hwf hen le_rfl
  rw [List.take_length] at hw
  refine ⟨_, exec_popr_of_popAll (by rw [hcfg]; exact hlist) (by rw [hcr0]; exact hw), hwsp, fun r hr => ?_⟩
  obtain ⟨j, hj, rfl⟩ := List.getElem_of_mem hr
  have hpc := ((pushrListWf_iff.mp hwf).2 _ hr).2.2
  exact (Cells.read_setPc _ _ hpc).trans (hwread j _ hj (List.getElem?_eq_getElem hj))

end Sys2Proof.Claims
end

section
/-! Naming a disabled register (10_state.md R33): in an argument of MOV, in the list of PUSHR and of POPR. -/
namespace Sys2Proof.Machine
open Sys2Proof.Claims

/-- Which names CR0 enables, and by which bit (R16, R18, R19, R29). -/
theorem Reg.enabled_iff (cr0 : BitVec 24) (r : Reg) :
    r.enabled cr0 = true ↔
      ((r = .AX ∨ r = .BX ∨ r = .CX ∨ r = .DX) → cr0.getLsbD 15 = true) ∧
      ((r = .ABX ∨ r = .CDX) → cr0.getLsbD 2 = true) ∧
      ((r = .EAB ∨ r = .ECD ∨ r = .EABF ∨ r = .ECDF) → cr0.getLsbD 9 = true) := by
  cases r <;> simp [Reg.enabled, cr0Pm, cr0Xr, cr0X32]

/-- An argument that names a disabled register stops at it, in every mode that can name it. -/
theorem operand_of_names_disabled {s : State} {r : Reg} {a : Arg} (next : CodeAddr)
    (hr : r.enabled s.cells.cr0 = false) (h : Names s.cells.cr0 r a) :
    a.mode.isImm = false ∧ operand s next a = .error (.fault (.registerNotEnabled r)) := by
  obtain ⟨hreg, haddr, hds, hsegImm, hsegReg, hoffset⟩ := operand_of_resolve_error next (resolve_of_disabled hr)
  obtain rfl | rfl | rfl | ⟨off, rfl⟩ | ⟨ro, rfl⟩ | ⟨q, hq, hwidth, rfl⟩ | ⟨rfl, rfl⟩ | ⟨rfl, rfl⟩ := h
  · exact ⟨rfl, hreg⟩
  · exact ⟨rfl, haddr⟩
  · exact ⟨rfl, hds⟩
  · exact ⟨rfl, hsegImm off⟩
  · exact ⟨rfl, hsegReg ro⟩
  · exact ⟨rfl, hoffset q hq hwidth⟩
  · exact ⟨rfl, hreg⟩
  · exact ⟨rfl, hreg⟩

end Sys2Proof.Machine

namespace Sys2Proof.Claims
open Sys2Proof.Machine

/-- Settles O18: a disabled register stops the argument, the reading of the list, or the pop, that names it. -/
theorem disabledRegisterFaults : Obligations.DisabledRegisterFaults := by
  refine ⟨Reg.enabled_iff, fun s r hdisabled => ?_⟩
  have hr : r.enabled s.cells.cr0 = false := by
    rw [Bool.eq_false_iff, ne_eq, Reg.enabled_iff]
    rintro ⟨hpm, hxr, hx32⟩
    obtain ⟨hname, hbit⟩ | ⟨hname, hbit⟩ | ⟨hname, hbit⟩ := hdisabled
    · exact Bool.false_ne_true (hbit.symm.trans (hpm hname))
    · exact Bool.false_ne_true (hbit.symm.trans (hxr hname))
    · exact Bool.false_ne_true (hbit.symm.trans (hx32 hname))
  refine ⟨fun dst src hdst => ?_, fun dst src d himm hd hsrc => ?_, fun before after hlist hen => ?_,
    fun before after t bs hlist hpops hlen hf hread => ?_⟩
  · obtain ⟨himm, hstop⟩ := operand_of_names_disabled (pcNext s (.mov dst src)) hr hdst
    exact exec_mov_of_dst_error himm hstop
  · exact exec_mov_of_src_error himm hd (operand_of_names_disabled _ hr hsrc).2
  · exact exec_pushr_of_readAll_error hlist (readAll_of_disabled s hen hr)
  · obtain ⟨hpg, hb, hbytes⟩ := hread
    rw [← hlen] at hf hb hbytes
    have hpop := pop_of_memRead hf (memRead_of_readBytes hpg hb (readBytes_of_byteFor bs _ hbytes))
    rw [hlen] at hpop
    refine exec_popr_of_popAll_error hlist ?_
    rw [List.reverse_append, List.reverse_cons, List.append_assoc, List.singleton_append,
      popAll_append_of_popsTo _ hpops]
    exact popAll_of_disabled _ hpop hr

end Sys2Proof.Claims
end

section
/-! Steps (60_exceptions.md R140 to R160): the request slot, the turn of a step, modes, halting. -/
namespace Sys2Proof.Machine

/-! ### What the source's choice leaves -/

@[simp] theorem State.arrive_cells (s : State) : s.arrive.cells = s.cells := by rw [State.arrive_frame]
@[simp] theorem State.arrive_cfg (s : State) : s.arrive.cfg = s.cfg := by rw [State.arrive_frame]
@[simp] theorem State.arrive_irqs (s : State) : s.arrive.irqs = s.irqs.tail := by rw [State.arrive_frame]

theorem State.byteAt_arrive (s : State) (pl : Place) : s.arrive.byteAt pl = s.byteAt pl := by
  rw [State.arrive_frame]
  cases pl <;> rfl

theorem State.arrive_pending_of_some {s : State} {n : Fin 8192} (h : s.pending = some n) :
    s.arrive.pending = some n := by
  rw [State.arrive_pending, h]

theorem State.arrive_pending_of_none {s : State} (h : s.pending = none) : s.arrive.pending = s.irqs.head?.join := by
  rw [State.arrive_pending, h]

/-! ### The turn of a step -/

theorem State.takeable_of_ie {s : State} (h : s.cells.fIe = true) : s.takeable = s.pending := if_pos h

theorem State.turn_of_takeable {s : State} {n : Fin 8192} (h : s.takeable = some n) : s.turn = .interrupt n := by
  rw [State.turn, h]

theorem State.takeable_of_turn {s : State} {n : Fin 8192} (h : s.turn = .interrupt n) : s.takeable = some n := by
  unfold State.turn at h
  split at h
  · cases h
    assumption
  · split_ifs at h

theorem State.turn_of_halt {s : State} (h : s.takeable = none) (hhalt : s.cells.fHalt = true) : s.turn = .idle := by
  simp [State.turn, h, hhalt]

theorem State.turn_of_returnPoint {s : State} (h : s.takeable = none) (hhalt : s.cells.fHalt = false)
    (hpoint : s.atReturnPoint = true) : s.turn = .interruptReturn := by
  simp [State.turn, h, hhalt, hpoint]

theorem State.turn_of_running {s : State} (h : s.takeable = none) (hhalt : s.cells.fHalt = false)
    (hpoint : s.atReturnPoint = false) : s.turn = .instruction := by
  simp [State.turn, h, hhalt, hpoint]

theorem modeCheck_of_modelled {s : State} (hv8 : s.cells.fV8 = false) (hpg : cr0Pg s.cells.cr0 = false) :
    modeCheck s = .ok () := by
  simp [modeCheck, hv8, hpg]

/-! ### A step by its turn -/

section Step
variable {s : State}

theorem step_of_idle (h : s.arrive.turn = .idle) : step s = .next s.arrive := by
  simp only [step, h]

theorem step_of_interrupt {n : Fin 8192} (h : s.arrive.turn = .interrupt n) (hmode : modeCheck s.arrive = .ok ()) :
    step s = outcome (takeInterrupt n s.arrive) := by
  simp only [step, h, interruptStep, hmode, Run.ok_bind]

theorem step_of_return (h : s.arrive.turn = .interruptReturn) (hmode : modeCheck s.arrive = .ok ()) :
    step s = outcome (returnFromInterrupt s.arrive) := by
  simp only [step, h, interruptReturnStep, hmode, Run.ok_bind]

theorem step_of_fetchInstr_ok {i : Instr} (h : s.arrive.turn = .instruction) (hi : fetchInstr s.arrive = .ok i) :
    step s = exec i s.arrive := by
  simp only [step, h, hi]

theorem step_of_fetchInstr_error {e : Stop} (h : s.arrive.turn = .instruction)
    (hi : fetchInstr s.arrive = .error e) : step s = outcome (.error e) := by
  simp only [step, h, hi]

/-- A step that is not idle checks the modes before anything else (log 10). -/
theorem step_of_modeCheck_error {e : Stop} (h : s.arrive.turn ≠ .idle) (hmode : modeCheck s.arrive = .error e) :
    step s = outcome (.error e) := by
  cases hturn : s.arrive.turn with
  | interrupt n => simp only [step, hturn, interruptStep, hmode, Run.error_bind]
  | idle => exact absurd hturn h
  | interruptReturn => simp only [step, hturn, interruptReturnStep, hmode, Run.error_bind]
  | instruction => exact step_of_fetchInstr_error hturn (by rw [fetchInstr, hmode, Run.error_bind])

end Step

/-! ### Final states -/

/-- A run from the state after a step is a run from the state before. -/
theorem Reaches.head {s t u : State} (h : Steps s t) (k : Reaches t u) : Reaches s u := by
  induction k with
  | refl => exact .step .refl h
  | step _ hstep ih => exact .step ih hstep

theorem State.final_iff {s : State} :
    s.final = true ↔ s.cells.fHalt = true ∧
      (s.cells.fIe = true → s.pending = none ∧ ∀ c ∈ s.irqs, c = none) := by
  cases hie : s.cells.fIe <;> simp [State.final, hie]

/-- A final state takes no request, and steps to a final state. -/
theorem final_arrive {s : State} (h : s.final = true) : s.arrive.takeable = none ∧ s.arrive.final = true := by
  obtain ⟨hhalt, hquiet⟩ := State.final_iff.mp h
  have hpending : s.cells.fIe = true → s.arrive.pending = none := by
    intro hie
    obtain ⟨hnone, hirqs⟩ := hquiet hie
    rw [State.arrive_pending_of_none hnone]
    cases hlist : s.irqs with
    | nil => rfl
    | cons c rest => simp [hirqs c (by simp [hlist])]
  constructor
  · cases hie : s.cells.fIe with
    | false => simp [State.takeable, hie]
    | true => rw [State.takeable_of_ie (by simpa using hie), hpending hie]
  · rw [State.final_iff, State.arrive_cells, State.arrive_irqs]
    exact ⟨hhalt, fun hie => ⟨hpending hie, fun c hc => (hquiet hie).2 c (List.mem_of_mem_tail hc)⟩⟩

theorem final_of_reaches {s t : State} (hs : s.final = true) (h : Reaches s t) : t.final = true := by
  induction h with
  | refl => exact hs
  | step _ hstep ih =>
    obtain ⟨hnone, hfinal⟩ := final_arrive ih
    have hidle := step_of_idle (State.turn_of_halt hnone (State.final_iff.mp hfinal).1)
    obtain rfl : _ = _ := Host.Outcome.next.inj (hidle.symm.trans hstep)
    exact hfinal

/-- With F.ie = 1, a state whose next step takes no request has none pending before and after the source's choice. -/
theorem pending_eq_none_of_turn {s : State} (hie : s.cells.fIe = true) (h : ∀ n, s.arrive.turn ≠ .interrupt n) :
    s.pending = none ∧ s.arrive.pending = none := by
  have harrive : s.arrive.pending = none := by
    by_contra hsome
    obtain ⟨n, hn⟩ := Option.ne_none_iff_exists'.mp hsome
    exact h n (State.turn_of_takeable (by rw [State.takeable_of_ie (by simpa using hie), hn]))
  refine ⟨?_, harrive⟩
  by_contra hsome
  obtain ⟨n, hn⟩ := Option.ne_none_iff_exists'.mp hsome
  simp [State.arrive_pending_of_some hn] at harrive

/-- A halted state with F.ie = 1 from which no run takes a request has none to come: its idle steps would bring each
choice to the slot. -/
theorem irqs_eq_none_of_no_interrupt {s : State} (hhalt : s.cells.fHalt = true) (hie : s.cells.fIe = true)
    (h : ∀ t, Reaches s t → ∀ n, t.arrive.turn ≠ .interrupt n) : ∀ c ∈ s.irqs, c = none := by
  induction hlist : s.irqs generalizing s with
  | nil => simp
  | cons c rest ih =>
    obtain ⟨hpending, harrive⟩ := pending_eq_none_of_turn hie (h s .refl)
    have hidle : Steps s s.arrive :=
      step_of_idle
        (State.turn_of_halt (by rw [State.takeable_of_ie (by simpa using hie), harrive]) (by simpa using hhalt))
    have hc : c = none := by simpa [State.arrive_pending_of_none hpending, hlist] using harrive
    have hrest := ih (s := s.arrive) (by simpa using hhalt) (by simpa using hie) (fun t ht => h t (ht.head hidle))
      (by rw [State.arrive_irqs, hlist, List.tail_cons])
    exact List.forall_mem_cons.mpr ⟨hc, hrest⟩

end Sys2Proof.Machine

namespace Sys2Proof.Claims
open Sys2Proof.Machine

/-- Settles O51: the slot's cases, and with F.ie = 0 no turn of a step clears it. -/
theorem requestLandsAndStaysPending : Obligations.RequestLandsAndStaysPending := by
  refine fun s => ⟨s.arrive_frame, fun n hn => State.arrive_pending_of_some hn, fun c rest hnone hirqs => ?_,
    fun hnone hirqs => ?_, fun n t hn hie h => ?_⟩
  · rw [State.arrive_pending_of_none hnone, hirqs]
    rfl
  · rw [State.arrive_pending_of_none hnone, hirqs]
    rfl
  · have harrive := State.arrive_pending_of_some hn
    obtain ⟨m, hturn, -⟩ | ⟨-, rfl⟩ | ⟨-, -, hret⟩ | ⟨i, -, -, hexec⟩ := step_cases h
    · have htake := State.takeable_of_turn hturn
      simp [State.takeable, hie] at htake
    · exact harrive
    · obtain ⟨-, hpending, -⟩ := keptByPrimitives_sameControl.returnFromInterrupt hret
      exact hpending.trans harrive
    · obtain ⟨-, hpending, -⟩ := keptByPrimitives_sameControl.exec hexec
      exact hpending.trans harrive

/-- Settles O54: a halted core without a request to take idles; it is final when none can come. -/
theorem haltedCoreIdles : Obligations.HaltedCoreIdles := by
  refine fun s => ⟨fun hhalt hnone => step_of_idle (State.turn_of_halt hnone (by simpa using hhalt)), ?_⟩
  constructor
  · intro hfinal
    refine ⟨(State.final_iff.mp hfinal).1, fun t ht n hturn => ?_⟩
    have htake := State.takeable_of_turn hturn
    rw [(final_arrive (final_of_reaches hfinal ht)).1] at htake
    cases htake
  · rintro ⟨hhalt, hnever⟩
    exact State.final_iff.mpr ⟨hhalt, fun hie =>
      ⟨(pending_eq_none_of_turn hie (hnever s .refl)).1, irqs_eq_none_of_no_interrupt hhalt hie hnever⟩⟩

/-- Settles O55: the mode check comes first in every turn but an idle one, F.v8 before CR0.pg. -/
theorem unmodelledModesRefuseEveryStep : Obligations.UnmodelledModesRefuseEveryStep := by
  refine fun s hturn => ⟨fun hv8 => ?_, fun hv8 hpg => ?_⟩
  · rw [step_of_modeCheck_error hturn (if_pos (by simpa using hv8)), outcome_refuse]
  · rw [step_of_modeCheck_error hturn (by simp [modeCheck, hv8, hpg]; rfl), outcome_refuse]

end Sys2Proof.Claims
end

section
/-! Fetching and decoding at the pc (30_encoding.md R112; 10_state.md R27; 20_memory.md R75): the header, the payload,
and where each stops. -/
namespace Sys2Proof.Machine
open Sys2Proof.Claims

/-! ### Code addresses -/

theorem codeLinear_eq (s : State) (i : Nat) :
    codeLinear s i = BitVec.ofNat 32 s.cells.pc.toNat + BitVec.ofNat 32 i := by
  rw [codeLinear, BitVec.ofNat_toNat]

theorem codeLinear_add (s : State) (i j : Nat) : codeLinear s i + BitVec.ofNat 32 j = codeLinear s (i + j) := by
  rw [codeLinear, codeLinear, BitVec.add_assoc, BitVec.ofNat_add]

/-- An instruction within one 64 KB block does not pass 0xFF_FFFF (R27, R75). -/
theorem spanCheck_of_inBlock {pc : CodeAddr} {n : Nat} (h : InBlock (BitVec.ofNat 32 pc.toNat) n) :
    spanCheck pc n = .ok () := by
  have hpc := pc.isLt
  rw [InBlock, BitVec.toNat_ofNat] at h
  rw [spanCheck, if_neg (by omega), if_neg (by omega)]

theorem spanCheck_of_pcWrap {pc : CodeAddr} {n : Nat} (h : 2 ^ 24 < pc.toNat + n) :
    spanCheck pc n = .error (.refuse .pcWrap) :=
  if_pos h

theorem spanCheck_of_segmentWrap {pc : CodeAddr} {n : Nat} (h : pc.toNat + n ≤ 2 ^ 24)
    (hwrap : ¬ InBlock (BitVec.ofNat 32 pc.toNat) n) :
    spanCheck pc n = .error (.refuse (.segmentWrap (BitVec.ofNat 32 pc.toNat) n)) := by
  have hpc := pc.isLt
  rw [InBlock, BitVec.toNat_ofNat] at hwrap
  rw [spanCheck, if_neg (by omega), if_pos (by omega), BitVec.ofNat_toNat]

/-! ### Bytes that stand fetchable, and the first that does not -/

/-- The bytes bs stand fetchable from the pc on. -/
abbrev Fetchable (s : State) (bs : List Byte) : Prop :=
  Readable s s.cells.cr0 .fetch (BitVec.ofNat 32 s.cells.pc.toNat) bs

/-- The fetch of the byte at an offset from the pc ends the step. -/
def FetchStops (s : State) (i : Nat) (e : Stop) : Prop :=
  (checkByte s s.cells.cr0 .fetch (codeLinear s i) >>= fun pl => s.readPlace pl) = .error e

section Fetch
variable {s : State} {bs : List Byte}

theorem Fetchable.byteFor (h : Fetchable s bs) {i : Nat} (hi : i < bs.length) :
    byteFor s s.cells.cr0 .fetch (codeLinear s i) = bs[i]? := by
  rw [codeLinear_eq]
  exact h.2.2 i hi

theorem fetchByte_of_byteFor {i : Nat} {b : Byte} (h : byteFor s s.cells.cr0 .fetch (codeLinear s i) = some b) :
    fetchByte s i = .ok b := by
  obtain ⟨pl, hcheck, hread⟩ := byteFor_eq_some h
  simp only [fetchByte, hcheck, hread, Run.ok_bind]

theorem fetchByte_of_stop {i : Nat} {e : Stop} (h : FetchStops s i e) : fetchByte s i = .error e := by
  unfold FetchStops at h
  cases hcheck : checkByte s s.cells.cr0 .fetch (codeLinear s i) with
  | error e' =>
    rw [hcheck, Run.error_bind] at h
    cases h
    rw [fetchByte, hcheck, Run.error_bind]
  | ok pl =>
    rw [hcheck, Run.ok_bind] at h
    rw [fetchByte, hcheck, Run.ok_bind, h, Run.error_bind]

theorem fetchBytes_of_byteFor (i : Nat) (p : List Byte)
    (h : ∀ j, j < p.length → byteFor s s.cells.cr0 .fetch (codeLinear s (i + j)) = p[j]?) :
    fetchBytes s i p.length = .ok p := by
  rw [fetchBytes, readBytes_of_byteFor p (codeLinear s i) fun j hj => by rw [codeLinear_add]; exact h j hj, Run.ok_bind]

theorem fetchBytes_of_stop {i n j : Nat} {e : Stop} (hj : j < n)
    (hpass : ∀ k, k < j → (byteFor s s.cells.cr0 .fetch (codeLinear s (i + k))).isSome = true)
    (h : FetchStops s (i + j) e) : fetchBytes s i n = .error e := by
  rw [fetchBytes, readBytes_of_stop j (codeLinear s i) hj
    (fun k hk => passes_of_byteFor (by rw [codeLinear_add]; exact hpass k hk))
    (by rw [codeLinear_add]; exact h), Run.error_bind]

/-- A byte whose check fails ends the step so. -/
theorem fetchStops_of_check {i : Nat} {e : Stop} (h : checkByte s s.cells.cr0 .fetch (codeLinear s i) = .error e) :
    FetchStops s i e := by
  rw [FetchStops, h, Run.error_bind]

/-- A byte that holds no value is ReadOfUnwritten; a fetch never finds a port (R68). -/
theorem fetchStops_of_unwritten {i : Nat} {pl : Place}
    (h : checkByte s s.cells.cr0 .fetch (codeLinear s i) = .ok pl) (hnone : s.byteAt pl = none) :
    FetchStops s i (.fault (.readOfUnwritten pl.addr)) := by
  have hport : ∀ p, pl ≠ .port p := by
    rintro p rfl
    obtain ⟨-, q, -, -, hregion⟩ := checkByte_cases h
    obtain ⟨-, ⟨hpl, -⟩ | ⟨hpl, -⟩ | ⟨-, -, -, hk⟩⟩ := regionCheck_cases hregion
    · cases hpl
    · cases hpl
    · exact hk rfl
  rw [FetchStops, h, Run.ok_bind, readPlace_of_unwritten hport hnone]

end Fetch

/-! ### From the header on -/

/-- The checks before the header pass, and its three bytes are fetched. -/
structure HeaderFetched (s : State) (x a b : Byte) : Prop where
  mode : modeCheck s = .ok ()
  span : spanCheck s.cells.pc 3 = .ok ()
  opcode : fetchByte s 0 = .ok x
  first : fetchByte s 1 = .ok a
  second : fetchByte s 2 = .ok b

theorem inBlock_mono {lin : Linear} {n m : Nat} (h : InBlock lin n) (hm : m ≤ n) : InBlock lin m := by
  unfold InBlock at h ⊢
  omega

theorem headerFetched_of_fetchable {s : State} {x a b : Byte} {p : List Byte} (hmode : modeCheck s = .ok ())
    (h : Fetchable s (x :: a :: b :: p)) : HeaderFetched s x a b where
  mode := hmode
  span := spanCheck_of_inBlock (inBlock_mono h.2.1 (by simp))
  opcode := fetchByte_of_byteFor (h.byteFor (i := 0) (by simp))
  first := fetchByte_of_byteFor (h.byteFor (i := 1) (by simp))
  second := fetchByte_of_byteFor (h.byteFor (i := 2) (by simp))

namespace HeaderFetched
variable {s : State} {x a b : Byte} (h : HeaderFetched s x a b)
include h

theorem fetchInstr_of_headerModes_error {r : DecodeReject} (hmodes : headerModes a b = .error r) :
    fetchInstr s = .error (stopOfReject r) := by
  simp only [fetchInstr, h.mode, h.span, h.opcode, h.first, h.second, hmodes, Run.ok_bind]

variable {ma mb : Mode} (hmodes : headerModes a b = .ok (ma, mb))
include hmodes

theorem fetchInstr_of_span_error {e : Stop}
    (hspan : spanCheck s.cells.pc (3 + (ma.plen s.cfg + mb.plen s.cfg)) = .error e) : fetchInstr s = .error e := by
  simp only [fetchInstr, h.mode, h.span, h.opcode, h.first, h.second, hmodes, hspan, Run.ok_bind, Run.error_bind]

variable (hspan : spanCheck s.cells.pc (3 + (ma.plen s.cfg + mb.plen s.cfg)) = .ok ())
include hspan

theorem fetchInstr_of_payload_error {e : Stop} (hp : fetchBytes s 3 (ma.plen s.cfg + mb.plen s.cfg) = .error e) :
    fetchInstr s = .error e := by
  simp only [fetchInstr, h.mode, h.span, h.opcode, h.first, h.second, hmodes, hspan, hp, Run.ok_bind, Run.error_bind]

variable {p : List Byte} (hp : fetchBytes s 3 (ma.plen s.cfg + mb.plen s.cfg) = .ok p)
include hp

theorem fetchInstr_of_decodePayload_ok {i : Instr} (hi : decodePayload s.cfg x ma mb p = .ok i) :
    fetchInstr s = .ok i := by
  simp only [fetchInstr, h.mode, h.span, h.opcode, h.first, h.second, hmodes, hspan, hp, hi, Run.ok_bind]

theorem fetchInstr_of_decodePayload_error {r : DecodeReject} (hr : decodePayload s.cfg x ma mb p = .error r) :
    fetchInstr s = .error (stopOfReject r) := by
  simp only [fetchInstr, h.mode, h.span, h.opcode, h.first, h.second, hmodes, hspan, hp, hr, Run.ok_bind]

end HeaderFetched

/-! ### The length a header asks for -/

theorem neededBytes_of_headerModes {cfg : Cfg} {x a b : Byte} {p : List Byte} {ma mb : Mode}
    (h : headerModes a b = .ok (ma, mb)) :
    neededBytes cfg (x :: a :: b :: p) = 3 + (ma.plen cfg + mb.plen cfg) := by
  simp only [neededBytes, headerPayloadLen, h]

theorem neededBytes_of_headerModes_error {cfg : Cfg} {x a b : Byte} {p : List Byte} {r : DecodeReject}
    (h : headerModes a b = .error r) : neededBytes cfg (x :: a :: b :: p) = 3 := by
  simp only [neededBytes, headerPayloadLen, h]

/-- Bytes that hold as many as their header asks for hold a header. -/
theorem exists_header_of_length {cfg : Cfg} {bs : List Byte} (h : bs.length = neededBytes cfg bs) :
    ∃ x a b p, bs = x :: a :: b :: p := by
  match bs, h with
  | [], h => cases h
  | [_], h => cases h
  | [_, _], h => cases h
  | x :: a :: b :: p, _ => exact ⟨x, a, b, p, rfl⟩

/-! ### Whole instructions -/

/-- The bytes after a header are the payload fetched. -/
theorem fetchBytes_payload {s : State} {x a b : Byte} {p : List Byte} (h : Fetchable s (x :: a :: b :: p)) :
    fetchBytes s 3 p.length = .ok p := by
  refine fetchBytes_of_byteFor 3 p fun j hj => ?_
  rw [Fetchable.byteFor h (by simp; omega), Nat.add_comm 3 j]
  rfl

section Whole
variable {s : State} {bs : List Byte} (hmode : modeCheck s = .ok ()) (hfetch : Fetchable s bs)
include hmode hfetch

/-- The instruction whose bytes stand fetchable is fetched and decoded (R112). -/
theorem fetchInstr_of_decode_ok {i : Instr} (h : decode s.cfg bs = .ok (i, [])) : fetchInstr s = .ok i := by
  obtain ⟨x, ma, mb, p, rfl, hlegal, hlen, hi, hrest⟩ := decode_cases h
  have hplen : p.length = ma.plen s.cfg + mb.plen s.cfg :=
    le_antisymm (List.drop_eq_nil_iff.mp hrest.symm) hlen
  have hspan : spanCheck s.cells.pc (3 + (ma.plen s.cfg + mb.plen s.cfg)) = .ok () :=
    spanCheck_of_inBlock (inBlock_mono hfetch.2.1 (by simp; omega))
  exact (headerFetched_of_fetchable hmode hfetch).fetchInstr_of_decodePayload_ok (headerModes_code hlegal) hspan
    (hplen ▸ fetchBytes_payload hfetch) hi

/-- A whole instruction that the decoder rejects ends the step in the rejection (R148, R149). -/
theorem fetchInstr_of_decode_rejected {r : DecodeReject} (hlen : bs.length = neededBytes s.cfg bs)
    (h : decode s.cfg bs = .error (.rejected r)) : fetchInstr s = .error (stopOfReject r) := by
  obtain ⟨x, a, b, p, rfl⟩ := exists_header_of_length hlen
  have hheader := headerFetched_of_fetchable hmode hfetch
  cases hmodes : headerModes a b with
  | error r' =>
    rw [decode_of_headerModes_error hmodes] at h
    cases h
    exact hheader.fetchInstr_of_headerModes_error hmodes
  | ok m =>
    obtain ⟨ma, mb⟩ := m
    obtain ⟨rfl, rfl, hlegal⟩ := headerModes_cases hmodes
    rw [neededBytes_of_headerModes hmodes] at hlen
    have hplen : p.length = ma.plen s.cfg + mb.plen s.cfg := by
      simp only [List.length_cons] at hlen
      omega
    have hspan : spanCheck s.cells.pc (3 + (ma.plen s.cfg + mb.plen s.cfg)) = .ok () :=
      spanCheck_of_inBlock (inBlock_mono hfetch.2.1 hlen.ge)
    refine hheader.fetchInstr_of_decodePayload_error hmodes hspan (hplen ▸ fetchBytes_payload hfetch) ?_
    cases hp : decodePayload s.cfg x ma mb p with
    | ok i =>
      rw [decode_of_decodePayload_ok hlegal hplen.ge hp] at h
      cases h
    | error r' =>
      rw [decode_of_decodePayload_error hlegal hplen.ge hp] at h
      cases h
      rfl

/-- Before any byte, and once the header is there, the span of what is to be fetched is checked (log 20). -/
theorem fetchInstr_of_span_error {e : Stop} (hbs : bs = [] ∨ bs.length = 3)
    (h : spanCheck s.cells.pc (neededBytes s.cfg bs) = .error e) : fetchInstr s = .error e := by
  obtain rfl | hlen := hbs
  · have hspan : spanCheck s.cells.pc 3 = .error e := h
    rw [fetchInstr, hmode, Run.ok_bind, hspan, Run.error_bind]
  · obtain ⟨x, a, b, rfl⟩ := List.length_eq_three.mp hlen
    have hheader := headerFetched_of_fetchable hmode hfetch
    cases hmodes : headerModes a b with
    | error r =>
      rw [neededBytes_of_headerModes_error hmodes, hheader.span] at h
      cases h
    | ok m =>
      obtain ⟨ma, mb⟩ := m
      rw [neededBytes_of_headerModes hmodes] at h
      exact hheader.fetchInstr_of_span_error hmodes h

/-- The first byte that is needed and not fetchable ends the step (10_state.md R52, 20_memory.md R65). -/
theorem fetchInstr_of_stop {e : Stop} (hlen : bs.length < neededBytes s.cfg bs)
    (hb : InBlock (BitVec.ofNat 32 s.cells.pc.toNat) (neededBytes s.cfg bs)) (h : FetchStops s bs.length e) :
    fetchInstr s = .error e := by
  have hbyte : ∀ {i b}, bs[i]? = some b → fetchByte s i = .ok b := fun hi =>
    fetchByte_of_byteFor ((hfetch.byteFor (List.getElem?_eq_some_iff.mp hi).1).trans hi)
  match bs, hfetch, hlen, hb, h, @hbyte with
  | [], _, _, hb, h, _ =>
    simp only [fetchInstr, hmode, spanCheck_of_inBlock (n := 3) hb, fetchByte_of_stop (i := 0) h, Run.ok_bind,
      Run.error_bind]
  | [x], _, _, hb, h, hbyte =>
    simp only [fetchInstr, hmode, spanCheck_of_inBlock (n := 3) hb, hbyte (i := 0) rfl, fetchByte_of_stop (i := 1) h,
      Run.ok_bind, Run.error_bind]
  | [x, a], _, _, hb, h, hbyte =>
    simp only [fetchInstr, hmode, spanCheck_of_inBlock (n := 3) hb, hbyte (i := 0) rfl, hbyte (i := 1) rfl,
      fetchByte_of_stop (i := 2) h, Run.ok_bind, Run.error_bind]
  | x :: a :: b :: p, hfetch, hlen, hb, h, _ =>
    cases hmodes : headerModes a b with
    | error r =>
      rw [neededBytes_of_headerModes_error hmodes, List.length_cons, List.length_cons, List.length_cons] at hlen
      omega
    | ok m =>
      obtain ⟨ma, mb⟩ := m
      rw [neededBytes_of_headerModes hmodes] at hlen hb
      simp only [List.length_cons] at hlen h
      refine (headerFetched_of_fetchable hmode hfetch).fetchInstr_of_payload_error hmodes (spanCheck_of_inBlock hb)
        (fetchBytes_of_stop (j := p.length) (by omega) (fun k hk => ?_) (by rw [Nat.add_comm 3]; exact h))
      rw [Fetchable.byteFor hfetch (by simp; omega), Nat.add_comm 3 k]
      simpa using hk

end Whole

end Sys2Proof.Machine

namespace Sys2Proof.Claims
open Sys2Proof.Machine

/-- Settles O50: the fetch runs through header, spans and payload in R112's order, on the bytes that stand at the pc. -/
theorem stepRunsTheDecodedInstruction : Obligations.StepRunsTheDecodedInstruction := by
  rintro s bs ⟨htake, hhalt, hpoint, hv8, hpg⟩ hread
  have hturn := State.turn_of_running htake hhalt hpoint
  have hmode := modeCheck_of_modelled hv8 hpg
  have hfetch : Fetchable s.arrive bs := by rw [Fetchable, State.arrive_cells]; exact hread
  have herror : ∀ {e}, fetchInstr s.arrive = .error e → step s = outcome (.error e) :=
    fun h => step_of_fetchInstr_error hturn h
  have hreject : ∀ {r}, bs.length = neededBytes s.cfg bs → decode s.cfg bs = .error (.rejected r) →
      step s = outcome (.error (stopOfReject r)) := fun hlen h =>
    herror (fetchInstr_of_decode_rejected hmode hfetch (by rwa [State.arrive_cfg]) (by rwa [State.arrive_cfg]))
  have hspan : ∀ {e}, bs = [] ∨ bs.length = 3 → spanCheck s.cells.pc (neededBytes s.cfg bs) = .error e →
      step s = outcome (.error e) := fun hbs h =>
    herror (fetchInstr_of_span_error hmode hfetch hbs (by rwa [State.arrive_cfg, State.arrive_cells]))
  have haddr : BitVec.ofNat 32 (s.cells.pc.toNat + bs.length) = codeLinear s.arrive bs.length := by
    rw [codeLinear_eq, State.arrive_cells, BitVec.ofNat_add]
  refine ⟨fun i h => step_of_fetchInstr_ok hturn (fetchInstr_of_decode_ok hmode hfetch (by rwa [State.arrive_cfg])),
    fun hlen => ⟨fun c h => hreject hlen h, fun x h => hreject hlen h, fun m a b h => hreject hlen h,
      fun h => hreject hlen h⟩,
    fun hbs => ⟨fun h => hspan hbs (spanCheck_of_pcWrap h),
      fun h hwrap => hspan hbs (spanCheck_of_segmentWrap h hwrap)⟩,
    fun hlen hb => ?_⟩
  have hstop : ∀ {e}, FetchStops s.arrive bs.length e → step s = outcome (.error e) := fun h =>
    herror (fetchInstr_of_stop hmode hfetch (by rwa [State.arrive_cfg])
      (by rwa [State.arrive_cfg, State.arrive_cells]) h)
  rw [haddr, ← State.arrive_cells]
  refine ⟨fun f h => hstop (fetchStops_of_check h), fun r h => hstop (fetchStops_of_check h), fun pl h hnone => ?_⟩
  exact hstop (fetchStops_of_unwritten h ((s.byteAt_arrive pl).trans hnone))

end Sys2Proof.Claims
end

section
/-! Taking an interrupt and returning from it (60_exceptions.md R141 to R144, R150; log 12). -/
namespace Sys2Proof.Machine
open Sys2Proof.Claims

/-! ### The table entry -/

theorem idtEntry_eq (cfg : Cfg) (n : Fin 8192) : idtEntry cfg n = BitVec.ofNat 32 (cfg.idtBase.toNat + 4 * n.val) := by
  rw [idtEntry, BitVec.ofNat_add, BitVec.ofNat_toNat]

theorem idtEntry_add_two (cfg : Cfg) (n : Fin 8192) :
    idtEntry cfg n + 2 = BitVec.ofNat 32 (cfg.idtBase.toNat + 4 * n.val + 2) := by
  rw [idtEntry_eq, BitVec.ofNat_add (cfg.idtBase.toNat + 4 * n.val)]
  rfl

section Take
variable {s : State} {n : Fin 8192} {seg off : Value}
  (hseg : memRead s.cells.cr0 (idtEntry s.cfg n) 2 s = .ok (seg, s))
  (hoff : memRead s.cells.cr0 (idtEntry s.cfg n + 2) 2 s = .ok (off, s))
include hseg hoff

theorem takeInterrupt_of_wide
    (hwide : (linear (seg.setWidth 16) (off.setWidth 16)).extractLsb' 24 8 ≠ 0) :
    takeInterrupt n s = .error (.refuse .interruptTargetTooWide) := by
  simp only [takeInterrupt, hseg, hoff, Run.ok_bind, if_pos hwide]

variable (hfits : (linear (seg.setWidth 16) (off.setWidth 16)).extractLsb' 24 8 = 0)
include hfits

theorem takeInterrupt_of_save {u : State} (hsave : saveOnEntry s.cells.cr0 n { s with pending := none } = .ok u) :
    takeInterrupt n s = .ok (u.setPc ((linear (seg.setWidth 16) (off.setWidth 16)).setWidth 24)) := by
  simp only [takeInterrupt, hseg, hoff, Run.ok_bind, if_neg (not_not.mpr hfits), hsave]

theorem takeInterrupt_of_save_error {e : Stop}
    (hsave : saveOnEntry s.cells.cr0 n { s with pending := none } = .error e) : takeInterrupt n s = .error e := by
  simp only [takeInterrupt, hseg, hoff, Run.ok_bind, if_neg (not_not.mpr hfits), hsave, Run.error_bind]

end Take

theorem saveOnEntry_of_refuse {cr0 : BitVec 24} {n : Fin 8192} {s : State} (h : s.cfg.intEntry = .refuse) :
    saveOnEntry cr0 n s = .error (.refuse (.interruptEntryUnmodelled n)) := by
  simp only [saveOnEntry, h]

theorem saveOnEntry_of_save {cr0 : BitVec 24} {n : Fin 8192} {s : State} {entry : List EntryAction} {ret : IntReturn}
    (h : s.cfg.intEntry = .save entry ret) : saveOnEntry cr0 n s = entryActions cr0 entry s := by
  simp only [saveOnEntry, h]

/-! ### The example of a configured save -/

/-- F with its bit 6, F.ie, cleared (R144). -/
theorem clearIe_getLsbD (f : BitVec 20) (b : Nat) :
    ((f.setWidth 64 &&& (0xFFFBF : Value)).setWidth 20).getLsbD b = (f.getLsbD b && decide (b ≠ 6)) := by
  by_cases hb : b < 20
  · have hmask : ∀ b < 20, (0xFFFBF : Value).getLsbD b = decide (b ≠ 6) := by decide
    have hcarrier : b < 64 := by omega
    simp only [BitVec.getLsbD_setWidth, BitVec.getLsbD_and, hb, hcarrier, hmask b hb, decide_true, Bool.true_and]
  · rw [BitVec.getLsbD_of_ge _ _ (by omega), BitVec.getLsbD_of_ge _ _ (by omega), Bool.false_and]

/-- Everything the example's entry can do: three pushes, F.ie cleared before the last. -/
theorem exampleEntry_cases {cr0 : BitVec 24} {s t : State} {cfg : Cfg} {point : CodeAddr}
    (h : entryActions cr0 (exampleEntry cfg point) s = .ok t) :
    ∃ s1 s2, push cr0 3 (s.cells.read .F) s = .ok s1 ∧
      push cr0 (retAddrCount cfg.retaddrBytes) (s1.cells.read .PC) s1 = .ok s2 ∧
      push cr0 (retAddrCount cfg.retaddrBytes) (point.setWidth 64) (s2.setReg .F (s2.cells.read .F &&& 0xFFFBF))
        = .ok t := by
  have hset : ∀ v s', setEntryReg .F v s' = .ok (s'.setReg .F v) := fun v s' => if_neg (by simp)
  simp only [exampleEntry, entryActions, entryAction, evalEntry, Run.ok_bind, Run.bind_eq_ok, hset,
    Except.ok.injEq] at h
  obtain ⟨s1, hpush1, s2, hpush2, s3, hpush3, rfl⟩ := h
  exact ⟨s1, s2, hpush1, hpush2, hpush3⟩

/-- The example's return, where its two pops find a code address and F. -/
theorem entryActions_exampleReturn {cr0 : BitVec 24} {s s1 s2 : State} {cfg : Cfg} {point : CodeAddr} {p f : Value}
    (hpop1 : pop cr0 (retAddrCount cfg.retaddrBytes) s = .ok (p, s1)) (hp : p.toNat < 2 ^ 24)
    (hpop2 : pop cr0 3 (s1.setReg .PC p) = .ok (f, s2)) :
    entryActions cr0 (exampleReturn cfg point).acts s = .ok (s2.setReg .F f) := by
  have hpc : setEntryReg .PC p s1 = .ok (s1.setReg .PC p) := if_neg fun h => h.2.not_gt hp
  have hf : setEntryReg .F f s2 = .ok (s2.setReg .F f) := if_neg (by simp)
  simp only [exampleReturn, entryActions, entryAction, hpop1, hpc, hpop2, hf, Run.ok_bind]

/-- What a completed example entry leaves: the three items, each at the SP of its turn, and the cells. -/
structure EntrySaved (cr0 : BitVec 24) (point : CodeAddr) (k : Nat) (s s1 s3 t : State) : Prop where
  flagsFit : slotFits 3 (pushSlotOf s 3) = true
  flagsStorable : Storable s cr0 (stackAddr s (pushSlotOf s 3).1) 3
  flags : HoldsAt s t cr0 (stackAddr s (pushSlotOf s 3).1) 3 (s.cells.read .F)
  pcFit : slotFits k (pushSlotOf s1 k) = true
  pcStorable : Storable s1 cr0 (stackAddr s1 (pushSlotOf s1 k).1) k
  pc : HoldsAt s1 t cr0 (stackAddr s1 (pushSlotOf s1 k).1) k (s.cells.read .PC)
  pointFit : slotFits k (pushSlotOf s3 k) = true
  pointStorable : Storable s3 cr0 (stackAddr s3 (pushSlotOf s3 k).1) k
  point : HoldsAt s3 t cr0 (stackAddr s3 (pushSlotOf s3 k).1) k (point.setWidth 64)
  same1 : SameAccess s s1
  same3 : SameAccess s1 s3
  sp1 : (s1.cells.sp.toNat : Int) = (pushSlotOf s 3).2
  sp3 : (s3.cells.sp.toNat : Int) = (pushSlotOf s1 k).2
  sp : (t.cells.sp.toNat : Int) = (pushSlotOf s3 k).2
  f : t.cells.f = (s.cells.f.setWidth 64 &&& (0xFFFBF : Value)).setWidth 20
  tpc : t.cells.pc = s.cells.pc

theorem entrySaved_of_exampleEntry {cr0 : BitVec 24} {s t : State} {point : CodeAddr}
    (hio : s.cfg.ioModel = .refuse) (h : entryActions cr0 (exampleEntry s.cfg point) s = .ok t) :
    ∃ s1 s3, EntrySaved cr0 point (retAddrCount s.cfg.retaddrBytes) s s1 s3 t := by
  obtain ⟨s1, s2, hpush1, hpush2, hpush3⟩ := exampleEntry_cases h
  have hsame1 := push_sameAccess hpush1
  have hsame2 := push_sameAccess hpush2
  have hsame3 : SameAccess s1 (s2.setReg .F (s2.cells.read .F &&& 0xFFFBF)) :=
    hsame2.trans (.setReg_f _ _)
  obtain ⟨hf1, hst1, hholds1, hcells1, -⟩ := push_stored hio hpush1
  obtain ⟨hf2, hst2, hholds2, hcells2, -⟩ := push_stored (by rw [hsame1.cfg]; exact hio) hpush2
  obtain ⟨hf3, hst3, hholds3, hcells3, -⟩ := push_stored (by rw [hsame3.cfg, hsame1.cfg]; exact hio) hpush3
  have hsp1 := push_sp hpush1
  have hsp2 := push_sp hpush2
  have hread : s1.cells.read .PC = s.cells.read .PC := by rw [hcells1]; rfl
  have hslot2 : pushSlotOf s1 (retAddrCount s.cfg.retaddrBytes)
      = pushSlot s.cfg.stackDir s.cfg.stackEmpty (retAddrCount s.cfg.retaddrBytes) s1.cells.sp.toNat := by
    rw [pushSlotOf, hsame1.cfg]
  have hpast1 : pastItem s.cfg.stackDir 3 s.cells.sp.toNat s1.cells.sp.toNat := by
    rw [hsp1]
    exact pastItem_pushSlot _ _ _ _
  have hpast2 : pastItem s1.cfg.stackDir (retAddrCount s.cfg.retaddrBytes) s1.cells.sp.toNat s2.cells.sp.toNat := by
    rw [hsp2]
    exact pastItem_pushSlot _ _ _ _
  have hpast12 : pastItem s.cfg.stackDir 3 s.cells.sp.toNat s2.cells.sp.toNat := by
    rw [hsp2, hslot2]
    exact hpast1.pushSlot _ _
  have hflags2 := holdsAt_of_push hpush2 hsame1 rfl hf1 hpast1 hholds1
  refine ⟨s1, _, hf1, hst1, ?_, hf2, hst2, ?_, hf3, hst3, hholds3, hsame1, hsame3, hsp1, hsp2, push_sp hpush3, ?_, ?_⟩
  · exact holdsAt_of_push hpush3 (hsame1.trans hsame3) rfl hf1 hpast12
      (holdsAt_congr hflags2 (State.byteAt_setCells s2 _))
  · rw [hread] at hholds2
    exact holdsAt_of_push hpush3 hsame3 rfl hf2 hpast2 (holdsAt_congr hholds2 (State.byteAt_setCells s2 _))
  · rw [hcells3, State.setReg_cells, hcells2, hcells1]
    rfl
  · rw [hcells3, State.setReg_cells, hcells2, hcells1]
    rfl

namespace EntrySaved
variable {cr0 : BitVec 24} {point : CodeAddr} {k : Nat} {s s1 s3 t : State} (h : EntrySaved cr0 point k s s1 s3 t)
  (hk : k = retAddrCount s.cfg.retaddrBytes)
include h hk

/-- A handler's RET pops the return point. -/
theorem exec_ret {u : State} (hsame : SameAccess s u) (hbytes : ∀ pl, u.byteAt pl = t.byteAt pl)
    (hsp : u.cells.sp = t.cells.sp) (hcr0 : u.cells.cr0 = cr0) :
    exec (.ret .none) u = .next ((u.setSp s3.cells.sp).setPc point) := by
  subst hcr0
  have hsame3 := h.same3.symm.trans (h.same1.symm.trans hsame)
  exact exec_ret_none_of_item (by rw [hk, h.same3.cfg, h.same1.cfg]) h.pointFit h.pointStorable
    (holdsAt_congr h.point hbytes) hsame3 (by rw [hsp]; exact h.sp)

/-- The return pops the pc and F. -/
theorem entryActions_return {u : State} (hsame : SameAccess s u) (hbytes : ∀ pl, u.byteAt pl = t.byteAt pl)
    (hsp : u.cells.sp = s3.cells.sp) :
    entryActions cr0 (exampleReturn s.cfg point).acts u
      = .ok ((((u.setSp s1.cells.sp).setReg .PC (s.cells.read .PC)).setSp s.cells.sp).setReg .F (s.cells.read .F)) := by
  have hpc : (s.cells.read .PC).toNat < 2 ^ 24 := s.cells.read_lt .PC
  have hpop1 := pop_of_item rfl (inStack_toNat s1.cells.sp) h.pcFit (hpc.trans_le (hk ▸ pow_retAddrCount _))
    h.pcStorable (holdsAt_congr h.pc hbytes) (h.same1.symm.trans hsame) (by rw [hsp]; exact h.sp3)
  rw [ofInt_toNat_self, hk] at hpop1
  have hbytes2 : ∀ pl, ((u.setSp s1.cells.sp).setReg .PC (s.cells.read .PC)).byteAt pl = t.byteAt pl :=
    fun pl => ((State.byteAt_setReg _ _ _ pl).trans (u.byteAt_setSp _ pl)).trans (hbytes pl)
  have hsp2 : ((u.setSp s1.cells.sp).setReg .PC (s.cells.read .PC)).cells.sp = s1.cells.sp := State.setSp_sp _ _
  have hpop2 := pop_of_item rfl (inStack_toNat s.cells.sp) h.flagsFit
    ((s.cells.read_lt .F).trans_le (by decide)) h.flagsStorable (holdsAt_congr h.flags hbytes2)
    ((hsame.trans (.setSp _ _)).trans (.setReg_pc _ _)) (by rw [hsp2]; exact h.sp1)
  rw [ofInt_toNat_self] at hpop2
  exact entryActions_exampleReturn hpop1 hpc hpop2

end EntrySaved

/-- The handler's state after RET to `p` and the configured return, with pc, F and SP taken from `c`. -/
def State.returned (h : State) (c : Cells) (p : CodeAddr) (sp1 sp3 : BitVec 16) : State :=
  (((((h.setSp sp3).setPc p).setSp sp1).setReg .PC (c.read .PC)).setSp c.sp).setReg .F (c.read .F)

theorem State.returned_cells (h : State) (c : Cells) (p : CodeAddr) (sp1 sp3 : BitVec 16) :
    (h.returned c p sp1 sp3).cells = { h.cells with pc := c.pc, f := c.f, spx := withLow16 h.cells.spx c.sp } := by
  simp [State.returned, Cells.write, Cells.read]

theorem State.onlyCells_returned (h : State) (c : Cells) (p : CodeAddr) (sp1 sp3 : BitVec 16) :
    OnlyCells h (h.returned c p sp1 sp3) := by
  simp [State.returned, OnlyCells, RestSame]

theorem returnFromInterrupt_of_save {s : State} {entry : List EntryAction} {ret : IntReturn}
    (h : s.cfg.intEntry = .save entry ret) : returnFromInterrupt s = entryActions s.cells.cr0 ret.acts s := by
  simp only [returnFromInterrupt, h]

theorem atReturnPoint_of_save {s : State} {entry : List EntryAction} {ret : IntReturn}
    (h : s.cfg.intEntry = .save entry ret) (hpc : s.cells.pc = ret.point) : s.atReturnPoint = true := by
  simp [State.atReturnPoint, h, hpc]

end Sys2Proof.Machine

namespace Sys2Proof.Claims
open Sys2Proof.Machine

/-- Settles O52: the two words of the entry are read, and the segment decides between refusal and entry. -/
theorem pendingInterruptIsTaken : Obligations.PendingInterruptIsTaken := by
  rintro s _ n bseg boff seg off rfl hpending hie hv8 hpg hlseg hloff hrseg hroff hseg hoff
  have hturn := State.turn_of_takeable ((State.takeable_of_ie hie).trans hpending)
  have hstep := step_of_interrupt hturn (modeCheck_of_modelled hv8 hpg)
  have hrdseg := memRead_of_readable hrseg hseg
  have hrdoff := memRead_of_readable hroff hoff
  rw [hlseg, ← idtEntry_eq] at hrdseg
  rw [hloff, ← idtEntry_add_two] at hrdoff
  have hsegLt : seg.toNat < 2 ^ 16 := by have := hseg.1; rwa [hlseg] at this
  have hoffLt : off.toNat < 2 ^ 16 := by have := hoff.1; rwa [hloff] at this
  have htarget : linear (seg.setWidth 16) (off.setWidth 16) = BitVec.ofNat 32 (seg.toNat * 0x10000 + off.toNat) := by
    rw [linear_setWidth_of_lt _ hoffLt, BitVec.toNat_setWidth, Nat.mod_eq_of_lt hsegLt]
  have htoNat : (linear (seg.setWidth 16) (off.setWidth 16)).toNat = seg.toNat * 0x10000 + off.toNat := by
    rw [htarget, BitVec.toNat_ofNat]
    omega
  have hfits : seg.toNat ≤ 0xFF → (linear (seg.setWidth 16) (off.setWidth 16)).extractLsb' 24 8 = 0 :=
    fun hle => high8_eq_zero (by rw [htoNat]; omega)
  refine ⟨fun hwide => ?_, fun hle hrefuse => ?_, fun hle entry ret u hsave hacts => ?_⟩
  · rw [hstep, takeInterrupt_of_wide hrdseg hrdoff (high8_ne_zero (by rw [htoNat]; omega) (BitVec.isLt _)),
      outcome_refuse]
  · rw [hstep, takeInterrupt_of_save_error hrdseg hrdoff (hfits hle) (saveOnEntry_of_refuse hrefuse), outcome_refuse]
  · have hsaved := (saveOnEntry_of_save (n := n) (s := { s.arrive with pending := none }) hsave).trans hacts
    rw [hstep, takeInterrupt_of_save hrdseg hrdoff (hfits hle) hsaved, outcome_ok, htarget,
      BitVec.setWidth_ofNat_of_le (by decide)]

/-- Settles O53: the entry's three items stand one past the other, and the handler's RET and the return pop them in the
opposite order. -/
theorem configuredEntrySavesPcAndFlags : Obligations.ConfiguredEntrySavesPcAndFlags := by
  refine ⟨fun s t cr0 point hio hentry => ?_, fun s entry ret hsave hnone hhalt hv8 hpg hpc => ?_⟩
  · obtain ⟨s1, s3, hsaved⟩ := entrySaved_of_exampleEntry hio hentry
    refine ⟨?_, fun b hb => ?_, hsaved.tpc, fun h hcfg hcode hmem hbank hsp hss hcr0 hmb => ?_⟩
    · rw [Cells.fIe, hsaved.f, clearIe_getLsbD]
      simp
    · rw [hsaved.f, clearIe_getLsbD]
      simp [hb]
    · have hbytes : ∀ pl, h.byteAt pl = t.byteAt pl := fun pl => by
        cases pl <;> simp only [State.byteAt, hmem, hbank]
      have hsame : SameAccess s h := ⟨hcfg, hcode, hmb, hss⟩
      have hreturn := hsaved.entryActions_return rfl (u := (h.setSp s3.cells.sp).setPc point)
        ((hsame.trans (.setSp _ _)).trans (.setPc _ _)) (fun pl => (State.byteAt_setCells _ _ pl).trans (hbytes pl))
        (State.setSp_sp _ _)
      exact ⟨(h.setSp s3.cells.sp).setPc point, h.returned s.cells point s1.cells.sp s3.cells.sp,
        hsaved.exec_ret rfl hsame hbytes hsp hcr0, by simp only [State.setPc_cells, State.setSp_cells], hreturn,
        h.returned_cells _ _ _ _, h.onlyCells_returned _ _ _ _⟩
  · have hsave' : s.arrive.cfg.intEntry = .save entry ret := by rwa [State.arrive_cfg]
    have hturn := State.turn_of_returnPoint hnone (by rwa [State.arrive_cells])
      (atReturnPoint_of_save hsave' (by rwa [State.arrive_cells]))
    rw [step_of_return hturn (modeCheck_of_modelled (by rwa [State.arrive_cells]) (by rwa [State.arrive_cells])),
      returnFromInterrupt_of_save hsave', State.arrive_cells]

end Sys2Proof.Claims
end
